-- ==== Sys2Proof/Word.lean ====
section
/-! DEFINITION. The word types of the machine: bytes of memory, linear addresses, whole vector registers. -/

namespace Sys2Proof

/-- A byte of memory or of an instruction (20_memory.md R50). -/
abbrev Byte := BitVec 8

/-- A 64-bit general register, `rip`, a segment base or a linear address (10_state.md R26, R27, R30). -/
abbrev Addr := BitVec 64

/-- A whole vector register at the largest `MAXVL` (10_state.md R20, R22). -/
abbrev Zmm := BitVec 512

/-- A vector of `kl` elements of `w` bits, element 0 in the lowest bits (00_scope.md R10, R11). -/
abbrev Vec (w kl : Nat) := BitVec (w * kl)

end Sys2Proof
end

