-- ==== Sys2Proof/Syntax.lean ====
section
/-! DEFINITION. The six instruction forms as syntax: their operands, addressing forms, masks and legacy prefixes. -/

namespace Sys2Proof

/-- Number of a vector register under EVEX (30_encoding.md R93). -/
abbrev VReg := Fin 32

/-- Number of a vector register under VEX: 0 to 15 (30_encoding.md R92). -/
abbrev VReg16 := Fin 16

/-- Number of a general register: RAX, RCX, RDX, RBX, RSP, RBP, RSI, RDI, r8 to r15 (10_state.md R26). -/
abbrev Gpr := Fin 16

/-- The segment-override prefixes of the admitted subset: none, 64H, 65H (30_encoding.md R82). -/
inductive SegOverride where
  | none
  | fs
  | gs
deriving DecidableEq, Repr

/-- The legacy prefixes of an admitted instruction (30_encoding.md R82): at most one 67H and at most one of 64H, 65H. Their order
has no effect and is not kept (log 15). -/
structure Prefixes where
  /-- 67H: the memory operand has 32-bit address size. -/
  addr32 : Bool
  seg : SegOverride
deriving DecidableEq, Repr

/-- A displacement as it stands in the bytes (30_encoding.md R90, R91): none, one byte, four bytes. The factor N of R94 is not yet
applied. -/
inductive Disp where
  | none
  | d8 (v : BitVec 8)
  | d32 (v : BitVec 32)
deriving DecidableEq, Repr

/-- The memory addressing forms of 64-bit mode (30_encoding.md R90), one constructor for each shape of bytes, so that the length
(R111) is a function of the form. `ss` is the SIB scale field: the scale is 2 to the power `ss`. -/
inductive MemOp where
  /-- ModRM alone: `B:rm` and a displacement given by mod. -/
  | based (base : Gpr) (disp : Disp)
  /-- mod = 00b, rm = 101b: the address of the next instruction plus a disp32. -/
  | ripRel (disp : BitVec 32)
  /-- SIB with a base. -/
  | sib (base : Gpr) (index : Option Gpr) (ss : BitVec 2) (disp : Disp)
  /-- SIB with mod = 00b and bs = 101b: no base, a disp32. -/
  | sibNoBase (index : Option Gpr) (ss : BitVec 2) (disp : BitVec 32)
deriving DecidableEq, Repr

/-- Operand 3 of Op/En A (form 1): ymm3 or m256. -/
inductive VexSrc where
  | reg (r : VReg16)
  | mem (m : MemOp)
deriving DecidableEq, Repr

/-- Operand 3 of Op/En B, tuple type Full (forms 2, 3): a register, a full memory operand, or a 32-bit broadcast. -/
inductive FullSrc where
  | reg (r : VReg)
  | mem (m : MemOp)
  | bcst (m : MemOp)
deriving DecidableEq, Repr

/-- Operand 3 of Op/En C, tuple type Full Mem (forms 4, 5, 6): a register or a full memory operand (41_vpermw.md R174: no
broadcast). -/
inductive FullMemSrc where
  | reg (r : VReg)
  | mem (m : MemOp)
deriving DecidableEq, Repr

/-- The writemask fields EVEX.aaa and EVEX.z (30_encoding.md R87): `aaa = 0` is no writemask; `z` is zeroing. -/
structure Writemask where
  aaa : Fin 8
  z : Bool
deriving DecidableEq, Repr

/-- The rows of spec/opcode_table.json (00_scope.md R2). -/
inductive Form where
  | vexD256
  | evexD256
  | evexD512
  | evexW128
  | evexW256
  | evexW512
deriving DecidableEq, Repr

/-- The instructions: one constructor per row of the opcode table (00_scope.md R2, 30_encoding.md R96). `dest` is operand 1,
`src1` operand 2 (the indices), `src2` operand 3 (the data) (40_vpermd.md R140). -/
inductive Instr where
  /-- `VPERMD ymm1, ymm2, ymm3/m256` (R142). -/
  | vpermdVex256 (p : Prefixes) (dest src1 : VReg16) (src2 : VexSrc)
  /-- `VPERMD ymm1 {k1}{z}, ymm2, ymm3/m256/m32bcst` (R143). -/
  | vpermdEvex256 (p : Prefixes) (dest src1 : VReg) (wm : Writemask) (src2 : FullSrc)
  /-- `VPERMD zmm1 {k1}{z}, zmm2, zmm3/m512/m32bcst` (R144). -/
  | vpermdEvex512 (p : Prefixes) (dest src1 : VReg) (wm : Writemask) (src2 : FullSrc)
  /-- `VPERMW xmm1 {k1}{z}, xmm2, xmm3/m128` (R171). -/
  | vpermwEvex128 (p : Prefixes) (dest src1 : VReg) (wm : Writemask) (src2 : FullMemSrc)
  /-- `VPERMW ymm1 {k1}{z}, ymm2, ymm3/m256` (R172). -/
  | vpermwEvex256 (p : Prefixes) (dest src1 : VReg) (wm : Writemask) (src2 : FullMemSrc)
  /-- `VPERMW zmm1 {k1}{z}, zmm2, zmm3/m512` (R173). -/
  | vpermwEvex512 (p : Prefixes) (dest src1 : VReg) (wm : Writemask) (src2 : FullMemSrc)
deriving DecidableEq, Repr

end Sys2Proof
end

