-- ==== Sys2Proof/Machine/Elements.lean ====
section
/-! DEFINITION. Vectors as elements: slices, `Replicate`, `Permute` and `ApplyMask` (00_scope.md R10, 40_vpermd.md R141, R145). -/

namespace Sys2Proof.Machine

/-- `elem_w(v, j)`: bits `w*j + w - 1 : w*j` (00_scope.md R10). -/
def elem (w : Nat) {n : Nat} (v : BitVec n) (j : Nat) : BitVec w := v.extractLsb' (w * j) w

/-- The vector whose elements `0 .. kl-1` are `f 0 .. f (kl-1)`. -/
def ofElems (w kl : Nat) (f : Nat → BitVec w) : Vec w kl :=
  (List.range kl).foldr (fun j acc => (acc <<< w) ||| (f j).setWidth (w * kl)) 0

/-- `Replicate(kl, v)` (00_scope.md R10, 20_memory.md R56). -/
def replicate (w kl : Nat) (v : BitVec w) : Vec w kl := ofElems w kl fun _ => v

/-- `sel_j`: the low `log2 kl` bits of element `j` of the index vector (40_vpermd.md R141). -/
def sel (w kl : Nat) (idx : Vec w kl) (j : Nat) : Nat := (idx.extractLsb' (w * j) (Nat.log2 kl)).toNat

/-- `Permute(w, VL, idx, data)` (40_vpermd.md R141). -/
def permute (w kl : Nat) (idx data : Vec w kl) : Vec w kl :=
  ofElems w kl fun j => elem w data (sel w kl idx j)

/-- `ApplyMask(w, VL, tmp, old, aaa, z, k)` (40_vpermd.md R145). -/
def applyMask (w kl : Nat) (tmp old : Vec w kl) (wm : Writemask) (k : Vector (BitVec 64) 8) : Vec w kl :=
  ofElems w kl fun j =>
    if wm.aaa = 0 ∨ (k.get wm.aaa).getLsbD j = true then elem w tmp j
    else if wm.z then 0
    else elem w old j

end Sys2Proof.Machine
end

