-- ==== Sys2Proof/Config.lean ====
section
/-! DEFINITION. What a processor and its platform fix (00_scope.md R7), as plain data, and the free value of a platform
written as ranges. -/

namespace Sys2Proof

/-- Width of a whole vector register where AVX512F is absent (00_scope.md R7: 256 or 512). -/
inductive MaxVl where
  | v256
  | v512
deriving DecidableEq, Repr

/-- The AVX-512 feature flags. `HAS_AVX512VL` and `HAS_AVX512BW` imply `HAS_AVX512F`, and `HAS_AVX512F` implies `MAXVL = 512`
(00_scope.md R7), so a configuration that breaks a constraint (93 U12) cannot be written down. -/
inductive Avx512 where
  /-- `HAS_AVX512F` is false, and with it the other two. -/
  | absent (maxvl : MaxVl)
  /-- `HAS_AVX512F` is true; `vl` is `HAS_AVX512VL`, `bw` is `HAS_AVX512BW`. -/
  | present (vl bw : Bool)
deriving DecidableEq, Repr

/-- Number of implemented linear-address bits, `VA_BITS` (00_scope.md R7, 20_memory.md R54). -/
inductive VaBits where
  | va48
  | va57
deriving DecidableEq, Repr

/-- The kind of an access, first argument of `Access` (20_memory.md R68). -/
inductive AccessKind where
  | fetch
  | read
deriving DecidableEq, Repr

/-- Why memory that the spec gives no meaning is refused (20_memory.md R68). -/
inductive AccessRefusal where
  /-- A read there has side effects (R59). -/
  | sideEffects
  /-- No memory is allocated there. -/
  | unallocated
deriving DecidableEq, Repr

/-- What `Access` answers for `n` bytes (20_memory.md R68). The address a page fault records lies within the `n` bytes (60_exceptions.md
R197), so it is given as the offset of one of them. -/
inductive AccessAnswer (n : Nat) where
  | ok (bytes : Vector Byte n)
  | pageFault (errorCode : BitVec 32) (offset : Fin n)
  | refused (r : AccessRefusal)
deriving DecidableEq, Repr

/-- What a platform decides of an access. Which bytes an allowed access gets is not its choice: they are those of memory (20_memory.md R62,
R65). -/
inductive AccessVerdict (n : Nat) where
  | allowed
  | pageFault (errorCode : BitVec 32) (offset : Fin n)
  | refused (r : AccessRefusal)
deriving DecidableEq, Repr, Inhabited

/-! ## A platform written as ranges of addresses -/

/-- Why a page fault was raised, as far as the bits that 60_exceptions.md R197 describes say it. The other bits of that description
follow from the access (W/R, I/D) and the privilege level (U/S). -/
structure PageFaultCause where
  /-- P: the page was present and the fault is a protection violation. -/
  present : Bool
  /-- RSVD: a reserved bit was set in a paging structure. -/
  reserved : Bool
  /-- PK: a protection-key violation. -/
  protectionKey : Bool
  /-- Whether the platform reports an instruction fetch in the I/D bit. -/
  fetchReported : Bool
deriving DecidableEq, Repr

/-- What a range answers for each of its bytes (20_memory.md R68). -/
inductive RegionAnswer where
  /-- Translation of the byte fails. -/
  | pageFault (cause : PageFaultCause)
  /-- Memory the spec gives no meaning. -/
  | refused (r : AccessRefusal)
deriving DecidableEq, Repr

/-- A range of linear addresses that is not plain memory for some accesses (log 4). -/
structure Region where
  /-- First linear address of the range. -/
  base : Nat
  /-- Number of bytes. -/
  size : Nat
  /-- The answer holds for instruction fetches. -/
  onFetch : Bool
  /-- The answer holds for operand loads. -/
  onRead : Bool
  /-- The answer holds for accesses made below CPL 3 (60_exceptions.md R205). -/
  onSupervisor : Bool
  /-- The answer holds for accesses made at CPL 3. -/
  onUser : Bool
  answer : RegionAnswer
deriving DecidableEq, Repr

/-- The platform's part of `Access` (20_memory.md R67, R68; log 4). -/
inductive Platform where
  /-- RAM without faults, except where a range says otherwise. The first range of the list that covers a byte decides it. The
  empty list is the default instance of 92 D8: flat RAM, no faults. -/
  | ranges (map : List Region)
  /-- Any other platform: which accesses it allows is the free value `Machine.otherVerdict`, a function of the access and of the whole
  state. -/
  | other
deriving DecidableEq, Repr

/-- The parameters of 00_scope.md R7 that no instruction reads or writes as state. -/
structure Config where
  hasAvx2 : Bool
  avx512 : Avx512
  vaBits : VaBits
  /-- `Access`. -/
  platform : Platform
deriving DecidableEq, Repr

/-- The default configuration of 00_scope.md R7 with the default instance of `Access` (92 D8): every feature, flat RAM, no faults. -/
def Config.default : Config where
  hasAvx2 := true
  avx512 := .present true true
  vaBits := .va48
  platform := .ranges []

/-- FREE VALUE (log 5; 20_memory.md R69, 93 U7): which one of the faulting bytes of an operand a platform of ranges reports, when more
than one would fault. Applied to the operand's linear address, its size and the offsets that fault; nothing constrains it. -/
opaque Config.faultByte (la : Nat) (n : Nat) (offsets : List Nat) : Nat

end Sys2Proof
end

