-- ==== Sys2Proof/Machine/State.lean ====
section
/-! DEFINITION. The machine's state as plain data, the reasons a step can stop, and the state after reset. -/

namespace Sys2Proof.Machine

/-- Memory as the bytes that differ from what an unlisted address reads as (20_memory.md R50, R68; log 3): a list of linear
addresses and bytes in the one canonical form `Memory.wf` (Machine/Ops.lean). -/
abbrev Memory := List Host.Cell

/-- The architectural state (10_state.md R20 to R31, R36) and the configuration (00_scope.md R7). Where the spec gives a register's bit
positions and no width, the width is the family's: PRESUMED (log 28). -/
structure State where
  /-- Vector registers ZMM0 to ZMM31 (R20 to R23). -/
  zmm : Vector Zmm 32
  /-- Opmask registers k0 to k7 (R24, R25). -/
  k : Vector (BitVec 64) 8
  /-- General registers (R26). -/
  gpr : Vector Addr 16
  /-- Instruction pointer (R27). -/
  rip : Addr
  /-- RFLAGS (R29); 64 bits PRESUMED (log 28). -/
  rflags : BitVec 64
  /-- MXCSR (R32); 32 bits PRESUMED (log 28). -/
  mxcsr : BitVec 32
  /-- FS and GS segment bases (R30). -/
  fsBase : Addr
  gsBase : Addr
  /-- CS segment base (R36); in 64-bit mode it is taken as 0 (R30); 64 bits PRESUMED (log 28). -/
  csBase : Addr
  /-- Control registers (R31), CR0 and CR4 of 64 bits PRESUMED (log 28); CR2 holds the address of a page fault, of 64 bits
  (20_memory.md R68, 60_exceptions.md R190). -/
  cr0 : BitVec 64
  cr2 : Addr
  cr4 : BitVec 64
  /-- Extended control register (R31); 64 bits PRESUMED (log 28). -/
  xcr0 : BitVec 64
  /-- IA32_EFER.LMA and CS.L, which together select 64-bit mode (R31). -/
  lma : Bool
  csL : Bool
  /-- Current privilege level (R31, 60_exceptions.md R205). -/
  cpl : Fin 4
  /-- The platform's memory (R33). -/
  mem : Memory
  /-- The parameters of 00_scope.md R7. -/
  cfg : Config
deriving DecidableEq, Repr

/-- The exceptions of 60_exceptions.md R190, terminal outcomes of a run (R201, 92 D10). Each holds `rip`, which points at the first byte of
the faulting instruction (R200). All are safe: the chip raises them too; what its handler then does is out of scope (R6). -/
inductive Fault where
  /-- #UD, vector 6, no error code: raised by decode (R191, 30_encoding.md R82, R98 to R104) and by the enable and feature checks
  (R195, R106). Safe. -/
  | ud (rip : Addr)
  /-- #NM, vector 7, no error code: raised when CR0.TS is 1 (R198). Safe. -/
  | nm (rip : Addr)
  /-- #SS(0), vector 12, error code 0: raised by an operand in the SS segment with a non-canonical byte (R196). Safe. -/
  | ss0 (rip : Addr)
  /-- #GP(0), vector 13, error code 0: raised by another operand with a non-canonical byte (R196), an instruction byte at a
  non-canonical address (R199) or an instruction longer than 15 bytes (R81). Safe. -/
  | gp0 (rip : Addr)
  /-- #PF, vector 14: raised when the platform's translation of an operand byte or an instruction byte fails; the error code is the
  platform's (R197). Safe. -/
  | pf (code : BitVec 32) (cr2 : Addr) (rip : Addr)
deriving DecidableEq, Repr

/-- Situations to which the chip gives a meaning and the spec gives none (00_scope.md R10, 92 D28). All are safe: nothing can be proved
of what the chip does there. -/
inductive Refusal where
  /-- An instruction that has no meaning in this model; raised by no arm. Safe. -/
  | notModelled (mnemonic : String)
  /-- The processor is not in 64-bit mode (30_encoding.md R107, 92 D1); raised by `step` and by every meaning. Safe. -/
  | mode
  /-- A legacy-prefix run outside the admitted subset (R82, 92 D24); raised by decode. Safe. -/
  | prefixRun
  /-- Bytes that are no form in scope nor a listed illegal variant (R105, 92 D17); raised by decode. Safe. -/
  | notInScope
  /-- A memory operand that wraps past linear address 2^64 - 1 (20_memory.md R55, 92 D30); raised by `memRead`. Safe. -/
  | wrap
  /-- An instruction whose bytes wrap past linear address 2^64 - 1 (10_state.md R27, 92 D21); raised by the fetch. Safe. -/
  | codeWrap
  /-- A byte in memory whose reads have side effects (20_memory.md R59, 92 D26); raised by `access`. Safe. -/
  | sideEffects
  /-- A byte where the platform has no memory (20_memory.md R68); raised by `access`. Safe. -/
  | unallocated
deriving DecidableEq, Repr

/-- The answer of a check or of a memory access: it passes with a value, raises an exception, or is refused (20_memory.md R68). -/
inductive Answer (α : Type) where
  | ok (a : α)
  | fault (f : Fault)
  | refused (r : Refusal)
deriving DecidableEq, Repr

/-- The processor signature that RDX holds after reset (10_state.md R36). PRESUMED (log 1): that of a Skylake server processor. -/
def resetSignature : Addr := 0x50654

/-- The state right after reset. PRESUMED (log 1): the values the third column of 10_state.md R36 lists as known of the family; the
spec's source gives none. The configuration is the default of 00_scope.md R7; memory lists nothing (log 3). -/
def State.reset : State where
  zmm := Vector.replicate 32 0
  k := Vector.replicate 8 0
  gpr := #v[0, 0, resetSignature, 0, 0, 0, 0, 0, 0, 0, 0, 0, 0, 0, 0, 0]
  rip := 0xFFF0
  rflags := 2
  mxcsr := 0x1F80
  fsBase := 0
  gsBase := 0
  csBase := 0xFFFF0000
  cr0 := 0x60000010
  cr2 := 0
  cr4 := 0
  xcr0 := 1
  lma := false
  csL := false
  cpl := 0
  mem := []
  cfg := Config.default

end Sys2Proof.Machine
end

