-- ==== Sys2Proof/Machine/Flags.lean ====
section
/-! DEFINITION. The parameters of 00_scope.md R7 as functions of the configuration, and the status and control bits that the checks
read (10_state.md R31). No form in scope reads or writes a status flag (R29), so there is no flag computation. -/

namespace Sys2Proof

/-! ## Configuration -/

def Config.hasAvx512F (c : Config) : Bool :=
  match c.avx512 with
  | .absent _ => false
  | .present _ _ => true

def Config.hasAvx512VL (c : Config) : Bool :=
  match c.avx512 with
  | .absent _ => false
  | .present vl _ => vl

def Config.hasAvx512BW (c : Config) : Bool :=
  match c.avx512 with
  | .absent _ => false
  | .present _ bw => bw

def MaxVl.bits : MaxVl → Nat
  | .v256 => 256
  | .v512 => 512

/-- `MAXVL`, the width of a whole vector register (R7, 10_state.md R22). -/
def Config.maxvl (c : Config) : Nat :=
  match c.avx512 with
  | .absent m => m.bits
  | .present _ _ => 512

/-- `NVREG`, the number of vector registers (R7, 92 D23). -/
def Config.nvreg (c : Config) : Nat := if c.hasAvx512F then 32 else 16

/-- `KWIDTH`, the width of an opmask register (R7, 10_state.md R24). -/
def Config.kwidth (c : Config) : Nat := if c.hasAvx512BW then 64 else 16

/-- `VA_BITS` (R7, 20_memory.md R54). -/
def VaBits.bits : VaBits → Nat
  | .va48 => 48
  | .va57 => 57

namespace Machine

/-! ## Status and control bits (10_state.md R31) -/

/-- 64-bit mode: IA32_EFER.LMA = 1 and CS.L = 1. -/
def State.mode64 (s : State) : Bool := s.lma && s.csL

/-- `CR0_TS`: CR0 bit 3. -/
def State.cr0TS (s : State) : Bool := s.cr0.getLsbD 3

/-- CR4.OSXSAVE: CR4 bit 18. -/
def State.osxsave (s : State) : Bool := s.cr4.getLsbD 18

/-- `OS_AVX_ENABLED`: CR4.OSXSAVE = 1 and XCR0[2:1] = 11b (00_scope.md R7). -/
def State.osAvxEnabled (s : State) : Bool := s.osxsave && s.xcr0.getLsbD 1 && s.xcr0.getLsbD 2

/-- `OS_AVX512_ENABLED`: `OS_AVX_ENABLED` and XCR0[7:5] = 111b (00_scope.md R7). -/
def State.osAvx512Enabled (s : State) : Bool :=
  s.osAvxEnabled && s.xcr0.getLsbD 5 && s.xcr0.getLsbD 6 && s.xcr0.getLsbD 7

/-- RFLAGS.AC: bit 18 (10_state.md R29). -/
def State.alignmentFlag (s : State) : Bool := s.rflags.getLsbD 18

/-- RFLAGS.TF, single-stepping (60_exceptions.md R210). PRESUMED (log 17): bit 8. -/
def State.trapFlag (s : State) : Bool := s.rflags.getLsbD 8

end Machine

end Sys2Proof
end

