-- ==== Sys2Proof/Machine/Ops.lean ====
section
/-! DEFINITION. The named operations on memory and registers: bytes, the canonical check, `Access`, `MemRead`, register reads and
writes, taking an exception, completing an instruction, and the boot steps. -/

namespace Sys2Proof.Machine

/-! ## Memory (20_memory.md R50, R51; log 3) -/

/-- What an address that memory does not list reads as. DESIGN CHOICE (log 3). -/
def Memory.blank : Byte := 0

/-- The byte at a linear address. -/
def Memory.get : Memory → Nat → Byte
  | [], _ => Memory.blank
  | (a, b) :: m, addr => if a = addr then b else Memory.get m addr

/-- The cell list of one byte: nothing when it is what an unlisted address reads as. -/
def Memory.cell (addr : Nat) (v : Byte) : Memory := if v = Memory.blank then [] else [(addr, v)]

/-- Memory with one byte changed, in canonical form. -/
def Memory.set : Memory → Nat → Byte → Memory
  | [], addr, v => Memory.cell addr v
  | (a, b) :: m, addr, v =>
    if addr < a then Memory.cell addr v ++ (a, b) :: m
    else if addr = a then Memory.cell addr v ++ m
    else (a, b) :: Memory.set m addr v

/-- Memory with consecutive bytes changed. -/
def Memory.setBytes (m : Memory) (addr : Nat) : List Byte → Memory
  | [] => m
  | b :: bs => Memory.setBytes (m.set addr b) (addr + 1) bs

/-- The addresses are strictly rising from `lo` and within the address space, and no listed byte is blank. -/
def Memory.wfFrom : Nat → Memory → Bool
  | _, [] => true
  | lo, (a, b) :: m => decide (lo ≤ a) && decide (a < 2 ^ 64) && decide (b ≠ Memory.blank) && Memory.wfFrom (a + 1) m

/-- The canonical form of memory. -/
def Memory.wf (m : Memory) : Bool := Memory.wfFrom 0 m

/-- The value of bytes with the first in the lowest place (20_memory.md R51, R55). -/
def leNumber : List Byte → Nat
  | [] => 0
  | b :: bs => b.toNat + 256 * leNumber bs

/-! ## Answers -/

/-- Goes on with the value of a check or access that passed. -/
def Answer.bind {α β : Type} (x : Answer α) (f : α → Answer β) : Answer β :=
  match x with
  | .ok a => f a
  | .fault e => .fault e
  | .refused r => .refused r

/-- The outcome of a step whose next state depends on an answer. -/
def Answer.toOutcome {α : Type} (x : Answer α) (f : α → State) : Host.Outcome State Fault Refusal :=
  match x with
  | .ok a => .next (f a)
  | .fault e => .fault e
  | .refused r => .refused r

/-! ## Exceptions (60_exceptions.md R190, R200, R201) -/

/-- Taking an exception (`raise` of 00_scope.md R10): the run ends in the terminal outcome that names the exception and `rip`, the address
of the instruction's first byte; no state has changed (R200, R201, 92 D10). -/
def raise {α : Type} (exc : Addr → Fault) (s : State) : Answer α := .fault (exc s.rip)

/-- Vector numbers (R190). -/
def Fault.vector : Fault → Nat
  | .ud _ => 6
  | .nm _ => 7
  | .ss0 _ => 12
  | .gp0 _ => 13
  | .pf _ _ _ => 14

/-- Error codes (R190); #UD and #NM have none. -/
def Fault.errorCode : Fault → Option (BitVec 32)
  | .ud _ => none
  | .nm _ => none
  | .ss0 _ => some 0
  | .gp0 _ => some 0
  | .pf code _ _ => some code

/-- The address a page fault records in CR2 (R190, R197). -/
def Fault.cr2 : Fault → Option Addr
  | .pf _ cr2 _ => some cr2
  | _ => none

/-- `rip` of the faulting instruction (R200). -/
def Fault.rip : Fault → Addr
  | .ud rip => rip
  | .nm rip => rip
  | .ss0 rip => rip
  | .gp0 rip => rip
  | .pf _ _ rip => rip

/-- The state a fault leaves (R200): the state before the instruction, with CR2 holding the address of a page fault (R190, R197). -/
def State.afterFault (s : State) (f : Fault) : State :=
  match f.cr2 with
  | some a => { s with cr2 := a }
  | none => s

/-! ## Addresses and `Access` (20_memory.md R54, R68) -/

/-- A linear address is canonical when bits `63 : va - 1` are all equal (R54). -/
def canonical (va : Nat) (a : Nat) : Bool := a / 2 ^ (va - 1) == 0 || a / 2 ^ (va - 1) == 2 ^ (65 - va) - 1

/-- Every one of the `n` bytes from `la` is at a canonical address. -/
def canonicalRange (va : Nat) (la n : Nat) : Bool := (List.range n).all fun i => canonical va (la + i)

/-- FREE VALUE (log 4; R68, 92 D8): what a platform that is not written as ranges decides of an access: any function of the kind, the
address, the number of bytes and the whole state. Nothing constrains it. -/
opaque otherVerdict (kind : AccessKind) (la n : Nat) (s : State) : AccessVerdict n

/-- A region decides the access to this byte. -/
def Region.covers (r : Region) (kind : AccessKind) (cpl : Fin 4) (a : Nat) : Bool :=
  decide (r.base ≤ a) && decide (a < r.base + r.size) &&
    (match kind with
      | .fetch => r.onFetch
      | .read => r.onRead) && (if cpl = 3 then r.onUser else r.onSupervisor)

/-- What a platform of ranges answers for one byte; `none` is plain memory. -/
def regionAnswer (map : List Region) (kind : AccessKind) (cpl : Fin 4) (a : Nat) : Option RegionAnswer :=
  (map.find? fun r => Region.covers r kind cpl a).map Region.answer

/-- The page fault of one byte. -/
def RegionAnswer.pageFault? : Option RegionAnswer → Option PageFaultCause
  | some (.pageFault c) => some c
  | _ => none

/-- The refusal of one byte. -/
def RegionAnswer.refusal? : Option RegionAnswer → Option AccessRefusal
  | some (.refused r) => some r
  | _ => none

/-- The page-fault error code of a platform of ranges, with the bits 60_exceptions.md R197 describes: P, W/R = 0, U/S, RSVD, I/D, PK in
bits 0 to 5, the rest 0 (log 14). -/
def pageFaultCode (kind : AccessKind) (cpl : Fin 4) (c : PageFaultCause) : BitVec 32 :=
  0#26 ++ BitVec.ofBool c.protectionKey ++ BitVec.ofBool (kind == .fetch && c.fetchReported) ++
    BitVec.ofBool c.reserved ++ BitVec.ofBool (cpl == 3) ++ 0#1 ++ BitVec.ofBool c.present

/-- The offsets of the bytes that page-fault, with their causes. -/
def faultingBytes (map : List Region) (kind : AccessKind) (cpl : Fin 4) (la n : Nat) : List (Fin n × PageFaultCause) :=
  (List.finRange n).filterMap fun i =>
    (RegionAnswer.pageFault? (regionAnswer map kind cpl (la + i.val))).map fun c => (i, c)

/-- The first refusal among the bytes. -/
def firstRefusal (map : List Region) (kind : AccessKind) (cpl : Fin 4) (la n : Nat) : Option AccessRefusal :=
  (List.range n).findSome? fun i => RegionAnswer.refusal? (regionAnswer map kind cpl (la + i))

/-- The member of a nonempty list at a position counted round; of one member there is no choice. -/
def pickFrom {α : Type} (x : α) : List α → Nat → α
  | [], _ => x
  | y :: ys, i => (x :: y :: ys).getD (i % (ys.length + 2)) x

/-- What a platform of ranges decides (R68, R69). A page fault of any byte is reported; which byte, when several would fault, is the free
value `Config.faultByte` (93 U7, log 5). A page fault goes before a refusal (log 13). -/
def rangesVerdict (map : List Region) (kind : AccessKind) (cpl : Fin 4) (la n : Nat) : AccessVerdict n :=
  match faultingBytes map kind cpl la n with
  | p :: rest =>
    let q := pickFrom p rest (Config.faultByte la n ((p :: rest).map fun x => x.1.val))
    .pageFault (pageFaultCode kind cpl q.2) q.1
  | [] =>
    match firstRefusal map kind cpl la n with
    | some r => .refused r
    | none => .allowed

/-- What the platform of the configuration decides. -/
def State.verdict (s : State) (kind : AccessKind) (la n : Nat) : AccessVerdict n :=
  match s.cfg.platform with
  | .ranges map => rangesVerdict map kind s.cpl la n
  | .other => otherVerdict kind la n s

/-- `Access(kind, la, n)` of R68. An allowed access gets the bytes of the one memory, fetches and loads alike, at their linear addresses (R50,
R62, R65), which nothing changes during a run; so views of different widths agree (R51). -/
def State.answer (s : State) (kind : AccessKind) (la n : Nat) : AccessAnswer n :=
  match s.verdict kind la n with
  | .allowed => .ok (Vector.ofFn fun i => s.mem.get (la + i.val))
  | .pageFault code i => .pageFault code i
  | .refused r => .refused r

/-- The refusal of a step for a refusal of `Access`. -/
def AccessRefusal.refusal : AccessRefusal → Refusal
  | .sideEffects => .sideEffects
  | .unallocated => .unallocated

/-- `Access(kind, la, n)` (R68, R69): one question for the whole range, asked after the canonical check. A page fault passes the platform's
error code through, and the address of the byte it names (60_exceptions.md R197). -/
def access (kind : AccessKind) (la n : Nat) (s : State) : Answer (Vector Byte n) :=
  match s.answer kind la n with
  | .ok bytes => .ok bytes
  | .pageFault code i => raise (.pf code (BitVec.ofNat 64 (la + i.val))) s
  | .refused r => .refused (AccessRefusal.refusal r)

/-- The segment of a memory access (R54). -/
inductive Segment where
  | ds
  | ss
  | fs
  | gs
deriving DecidableEq, Repr

/-- The base of a segment in 64-bit mode (10_state.md R30): FS and GS have one, the others 0. -/
def State.segBase (s : State) : Segment → Addr
  | .ds => 0
  | .ss => 0
  | .fs => s.fsBase
  | .gs => s.gsBase

/-- The exception of a non-canonical operand (60_exceptions.md R196). -/
def Segment.nonCanonical : Segment → Addr → Fault
  | .ds => .gp0
  | .ss => .ss0
  | .fs => .gp0
  | .gs => .gp0

/-- `MemRead(la, n)` (20_memory.md R55): the `n` bytes at `la`, lowest address in the lowest bits, after every check has passed. -/
def memRead (seg : Segment) (la : Addr) (n : Nat) (s : State) : Answer (BitVec (8 * n)) :=
  if la.toNat + n > 2 ^ 64 then .refused .wrap
  else if !canonicalRange s.cfg.vaBits.bits la.toNat n then raise seg.nonCanonical s
  else (access .read la.toNat n s).bind fun bytes => .ok (BitVec.ofNat (8 * n) (leNumber bytes.toList))

/-! ## Registers (10_state.md R20 to R26) -/

/-- `zmm[i][VL-1:0]` (00_scope.md R10). -/
def State.vec (s : State) (w kl : Nat) (i : VReg) : Vec w kl := (s.zmm.get i).setWidth (w * kl)

/-- `gpr[r]` (00_scope.md R10). -/
def State.reg (s : State) (r : Gpr) : Addr := s.gpr.get r

/-- `zmm[d] <- zext_MAXVL(v)` (10_state.md R23): the whole register is written, bits above the vector length with 0. A register of this state has
512 bits; where `MAXVL` is 256 the upper half does not exist and stays 0 (log 11). -/
def State.setVec (s : State) (d : VReg) {n : Nat} (v : BitVec n) : State :=
  { s with zmm := s.zmm.set d.val ((v.setWidth s.cfg.maxvl).setWidth 512) d.isLt }

/-- `rip <- rip + len`, a 64-bit addition (10_state.md R27, 40_vpermd.md R152). -/
def State.advance (s : State) (len : Nat) : State := { s with rip := s.rip + BitVec.ofNat 64 len }

/-! ## The boot steps (70_reset_and_hazards.md R231) -/

/-- What software does before a launch (R231 steps 1, 3, 4, 5): protected mode, PAE and paging on, 64-bit mode, OSXSAVE, XCR0 with x87,
SSE and AVX, CR0.TS clear. PRESUMED (log 16): CR0.PE, CR0.PG, CR4.PAE are bits 0, 31, 5. DESIGN CHOICE (log 16): opmask, ZMM_Hi256 and
Hi16_ZMM are set too exactly where the processor has AVX512F; R231 asks for them for forms 2 to 6 only. -/
def State.boot (s : State) : State :=
  { s with
    cr0 := (s.cr0 ||| 0x80000001) &&& ~~~8
    cr4 := s.cr4 ||| 0x40020
    xcr0 := s.xcr0 ||| (if s.cfg.hasAvx512F then 0xE7 else 7)
    lma := true
    csL := true }

/-- Bytes placed in memory from a linear address up. -/
def State.placeBytes (s : State) (addr : Addr) (bytes : List Byte) : State :=
  { s with mem := s.mem.setBytes addr.toNat bytes }

end Sys2Proof.Machine
end

