-- ==== Sys2Proof/Machine/Operands.lean ====
section
/-! DEFINITION. What a row of the opcode table fixes, instruction lengths, and every operand form: effective and linear addresses, the
load of operand 3, broadcast. -/

namespace Sys2Proof

/-! ## Rows of the opcode table (00_scope.md R2) -/

/-- Element width in bits (R11). -/
def Form.width : Form → Nat
  | .vexD256 => 32
  | .evexD256 => 32
  | .evexD512 => 32
  | .evexW128 => 16
  | .evexW256 => 16
  | .evexW512 => 16

/-- Number of elements, `KL` (30_encoding.md R88). -/
def Form.count : Form → Nat
  | .vexD256 => 8
  | .evexD256 => 8
  | .evexD512 => 16
  | .evexW128 => 8
  | .evexW256 => 16
  | .evexW512 => 32

/-- The form has an EVEX prefix. -/
def Form.isEvex : Form → Bool
  | .vexD256 => false
  | .evexD256 => true
  | .evexD512 => true
  | .evexW128 => true
  | .evexW256 => true
  | .evexW512 => true

/-- The CPUID feature flags the form needs are all 1 (30_encoding.md R106). -/
def Form.hasFeatures (f : Form) (c : Config) : Bool :=
  match f with
  | .vexD256 => c.hasAvx2
  | .evexD256 => c.hasAvx512F && c.hasAvx512VL
  | .evexD512 => c.hasAvx512F
  | .evexW128 => c.hasAvx512BW && c.hasAvx512VL
  | .evexW256 => c.hasAvx512BW && c.hasAvx512VL
  | .evexW512 => c.hasAvx512BW

/-! ## Lengths (30_encoding.md R111) -/

def Prefixes.length (p : Prefixes) : Nat :=
  (if p.addr32 then 1 else 0) + (if p.seg = .none then 0 else 1)

def Disp.length : Disp → Nat
  | .none => 0
  | .d8 _ => 1
  | .d32 _ => 4

/-- SIB and displacement bytes. -/
def MemOp.length : MemOp → Nat
  | .based _ d => d.length
  | .ripRel _ => 4
  | .sib _ _ _ d => 1 + d.length
  | .sibNoBase _ _ _ => 5

def VexSrc.length : VexSrc → Nat
  | .reg _ => 0
  | .mem m => m.length

def FullSrc.length : FullSrc → Nat
  | .reg _ => 0
  | .mem m => m.length
  | .bcst m => m.length

def FullMemSrc.length : FullMemSrc → Nat
  | .reg _ => 0
  | .mem m => m.length

/-- The length of an instruction: prefixes, VEX (3) or EVEX (4), opcode, ModRM, SIB and displacement. -/
def Instr.length : Instr → Nat
  | .vpermdVex256 p _ _ src2 => p.length + 5 + src2.length
  | .vpermdEvex256 p _ _ _ src2 => p.length + 6 + src2.length
  | .vpermdEvex512 p _ _ _ src2 => p.length + 6 + src2.length
  | .vpermwEvex128 p _ _ _ src2 => p.length + 6 + src2.length
  | .vpermwEvex256 p _ _ _ src2 => p.length + 6 + src2.length
  | .vpermwEvex512 p _ _ _ src2 => p.length + 6 + src2.length

namespace Machine

/-! ## Addresses (20_memory.md R53, R54) -/

/-- A displacement sign-extended to 64 bits; a disp8 is multiplied by N (30_encoding.md R91, R94), a disp32 is not. -/
def Disp.value (N : Nat) : Disp → Addr
  | .none => 0
  | .d8 v => v.signExtend 64 * BitVec.ofNat 64 N
  | .d32 v => v.signExtend 64

/-- The terms an addressing form adds: base (or the next `rip`), scaled index, displacement. -/
structure AddrTerms where
  base : Addr
  index : Addr
  scale : BitVec 2
  disp : Addr
deriving DecidableEq, Repr

/-- The terms of R53 for an instruction of `len` bytes. -/
def MemOp.terms (N len : Nat) (s : State) : MemOp → AddrTerms
  | .based b d => ⟨s.reg b, 0, 0, Disp.value N d⟩
  | .ripRel d => ⟨s.rip + BitVec.ofNat 64 len, 0, 0, d.signExtend 64⟩
  | .sib b i ss d => ⟨s.reg b, (i.map s.reg).getD 0, ss, Disp.value N d⟩
  | .sibNoBase i ss d => ⟨0, (i.map s.reg).getD 0, ss, d.signExtend 64⟩

/-- The effective address with 64-bit address size (R53). -/
def AddrTerms.ea64 (t : AddrTerms) : Addr := t.base + t.index * BitVec.ofNat 64 (2 ^ t.scale.toNat) + t.disp

/-- The effective address with 32-bit address size (R53): every term modulo 2^32, the sum zero-extended. -/
def AddrTerms.ea32 (t : AddrTerms) : Addr :=
  (t.base.setWidth 32 + t.index.setWidth 32 * BitVec.ofNat 32 (2 ^ t.scale.toNat) + t.disp.setWidth 32).setWidth 64

def effectiveAddress (p : Prefixes) (N len : Nat) (m : MemOp) (s : State) : Addr :=
  if p.addr32 then (MemOp.terms N len s m).ea32 else (MemOp.terms N len s m).ea64

/-- A base of RSP or RBP selects SS (R54). -/
def MemOp.defaultSegment : MemOp → Segment
  | .based b _ => if b = 4 ∨ b = 5 then .ss else .ds
  | .ripRel _ => .ds
  | .sib b _ _ _ => if b = 4 ∨ b = 5 then .ss else .ds
  | .sibNoBase _ _ _ => .ds

/-- The segment of the access (R54). -/
def segmentOf (p : Prefixes) (m : MemOp) : Segment :=
  match p.seg with
  | .none => MemOp.defaultSegment m
  | .fs => .fs
  | .gs => .gs

/-- The linear address of a memory operand (R54). -/
def linearAddress (p : Prefixes) (N len : Nat) (m : MemOp) (s : State) : Addr :=
  s.segBase (segmentOf p m) + effectiveAddress p N len m s

/-! ## Operand 3 (20_memory.md R52, R55, R56) -/

/-- An `n`-byte memory operand; `N` is the factor of a disp8. -/
def loadBytes (p : Prefixes) (N len n : Nat) (m : MemOp) (s : State) : Answer (BitVec (8 * n)) :=
  memRead (segmentOf p m) (linearAddress p N len m s) n s

/-- A full memory operand of `w * kl` bits. -/
def loadFullMem (p : Prefixes) (N len w kl : Nat) (m : MemOp) (s : State) : Answer (Vec w kl) :=
  (loadBytes p N len (w * kl / 8) m s).bind fun v => .ok (v.setWidth (w * kl))

/-- A broadcast memory operand (R56): four bytes, replicated; N = 4 (30_encoding.md R94). -/
def loadBroadcast (p : Prefixes) (len kl : Nat) (m : MemOp) (s : State) : Answer (Vec 32 kl) :=
  (loadBytes p 4 len 4 m s).bind fun v => .ok (replicate 32 kl v)

/-- Operand 3 of Op/En A: no compressed displacement (30_encoding.md R94). -/
def VexSrc.load (p : Prefixes) (len w kl : Nat) (s : State) : VexSrc → Answer (Vec w kl)
  | .reg r => .ok (s.vec w kl (r.castLE (by decide)))
  | .mem m => loadFullMem p 1 len w kl m s

/-- Operand 3 of Op/En B: N is the operand's size in bytes, 4 for a broadcast (30_encoding.md R94). -/
def FullSrc.load (p : Prefixes) (len kl : Nat) (s : State) : FullSrc → Answer (Vec 32 kl)
  | .reg r => .ok (s.vec 32 kl r)
  | .mem m => loadFullMem p (32 * kl / 8) len 32 kl m s
  | .bcst m => loadBroadcast p len kl m s

/-- Operand 3 of Op/En C: N is the operand's size in bytes (30_encoding.md R94). -/
def FullMemSrc.load (p : Prefixes) (len w kl : Nat) (s : State) : FullMemSrc → Answer (Vec w kl)
  | .reg r => .ok (s.vec w kl r)
  | .mem m => loadFullMem p (w * kl / 8) len w kl m s

/-! ## The execution sequence (40_vpermd.md R148) -/

/-- The operating system has enabled the state the form uses (60_exceptions.md R195). -/
def Form.osEnabled (f : Form) (s : State) : Bool := if f.isEvex then s.osAvx512Enabled else s.osAvxEnabled

/-- Steps 2 and 3 of R148: the mode (30_encoding.md R107), the enables and feature flags (60_exceptions.md R195), CR0.TS (R198). -/
def checkEnabled (f : Form) (s : State) : Answer Unit :=
  if !s.mode64 then .refused .mode
  else if !(Form.osEnabled f s && f.hasFeatures s.cfg) then raise .ud s
  else if s.cr0TS then raise .nm s
  else .ok ()

/-- Steps 7 and 8 of R148, together or not at all. -/
def State.complete (s : State) (dest : VReg) (len : Nat) {n : Nat} (res : BitVec n) : State :=
  (s.setVec dest res).advance len

/-- Steps 2 to 8 of R148 for a form: the checks, the load of operand 3, then the destination and `rip` at once. `result` computes the
destination's new value from operand 3 and the registers of the old state (R147). -/
def execForm (f : Form) (len : Nat) (dest : VReg) {n : Nat} (src2 : Answer (BitVec n)) (result : BitVec n → BitVec n)
    (s : State) : Host.Outcome State Fault Refusal :=
  ((checkEnabled f s).bind fun _ => src2).toOutcome fun data => s.complete dest len (result data)

/-- Step 6 of R148 for forms 2 to 6: permute, then mask. -/
def maskedPermute (w kl : Nat) (dest src1 : VReg) (wm : Writemask) (s : State) (data : Vec w kl) : Vec w kl :=
  applyMask w kl (permute w kl (s.vec w kl src1) data) (s.vec w kl dest) wm s.k

end Machine

end Sys2Proof
end

