-- ==== Sys2Proof/Machine/Vpermd.lean ====
section
/-! DEFINITION. The meanings of the three VPERMD forms (40_vpermd.md R142 to R144). -/

namespace Sys2Proof.Machine

/-- Form 1, `VPERMD ymm1, ymm2, ymm3/m256` (R142): no mask, no broadcast, disp8 unscaled. -/
def execVpermdVex256 (p : Prefixes) (dest src1 : VReg16) (src2 : VexSrc) (s : State) :
    Host.Outcome State Fault Refusal :=
  execForm .vexD256 (Instr.vpermdVex256 p dest src1 src2).length (dest.castLE (by decide))
    (VexSrc.load p (Instr.vpermdVex256 p dest src1 src2).length 32 8 s src2)
    (fun data => permute 32 8 (s.vec 32 8 (src1.castLE (by decide))) data) s

/-- Form 2, `VPERMD ymm1 {k1}{z}, ymm2, ymm3/m256/m32bcst` (R143). -/
def execVpermdEvex256 (p : Prefixes) (dest src1 : VReg) (wm : Writemask) (src2 : FullSrc) (s : State) :
    Host.Outcome State Fault Refusal :=
  execForm .evexD256 (Instr.vpermdEvex256 p dest src1 wm src2).length dest
    (FullSrc.load p (Instr.vpermdEvex256 p dest src1 wm src2).length 8 s src2) (maskedPermute 32 8 dest src1 wm s) s

/-- Form 3, `VPERMD zmm1 {k1}{z}, zmm2, zmm3/m512/m32bcst` (R144). -/
def execVpermdEvex512 (p : Prefixes) (dest src1 : VReg) (wm : Writemask) (src2 : FullSrc) (s : State) :
    Host.Outcome State Fault Refusal :=
  execForm .evexD512 (Instr.vpermdEvex512 p dest src1 wm src2).length dest
    (FullSrc.load p (Instr.vpermdEvex512 p dest src1 wm src2).length 16 s src2) (maskedPermute 32 16 dest src1 wm s) s

end Sys2Proof.Machine
end

