-- ==== Sys2Proof/Machine/Vpermw.lean ====
section
/-! DEFINITION. The meanings of the three VPERMW forms (41_vpermw.md R171 to R173). -/

namespace Sys2Proof.Machine

/-- Form 4, `VPERMW xmm1 {k1}{z}, xmm2, xmm3/m128` (R171). -/
def execVpermwEvex128 (p : Prefixes) (dest src1 : VReg) (wm : Writemask) (src2 : FullMemSrc) (s : State) :
    Host.Outcome State Fault Refusal :=
  execForm .evexW128 (Instr.vpermwEvex128 p dest src1 wm src2).length dest
    (FullMemSrc.load p (Instr.vpermwEvex128 p dest src1 wm src2).length 16 8 s src2)
    (maskedPermute 16 8 dest src1 wm s) s

/-- Form 5, `VPERMW ymm1 {k1}{z}, ymm2, ymm3/m256` (R172). -/
def execVpermwEvex256 (p : Prefixes) (dest src1 : VReg) (wm : Writemask) (src2 : FullMemSrc) (s : State) :
    Host.Outcome State Fault Refusal :=
  execForm .evexW256 (Instr.vpermwEvex256 p dest src1 wm src2).length dest
    (FullMemSrc.load p (Instr.vpermwEvex256 p dest src1 wm src2).length 16 16 s src2)
    (maskedPermute 16 16 dest src1 wm s) s

/-- Form 6, `VPERMW zmm1 {k1}{z}, zmm2, zmm3/m512` (R173). -/
def execVpermwEvex512 (p : Prefixes) (dest src1 : VReg) (wm : Writemask) (src2 : FullMemSrc) (s : State) :
    Host.Outcome State Fault Refusal :=
  execForm .evexW512 (Instr.vpermwEvex512 p dest src1 wm src2).length dest
    (FullMemSrc.load p (Instr.vpermwEvex512 p dest src1 wm src2).length 16 32 s src2)
    (maskedPermute 16 32 dest src1 wm s) s

end Sys2Proof.Machine
end

