-- ==== Sys2Proof/Machine/Dispatch.lean ====
section
/-! DEFINITION. One arm per instruction form: its meaning. -/

namespace Sys2Proof.Machine

-- The execution of a decoded instruction (40_vpermd.md R148, steps 2 to 8).
def exec (i : Instr) (s : State) : Host.Outcome State Fault Refusal :=
  match i with
  | .vpermdVex256 p dest src1 src2 => Sys2Proof.Machine.execVpermdVex256 p dest src1 src2 s
  | .vpermdEvex256 p dest src1 wm src2 => Sys2Proof.Machine.execVpermdEvex256 p dest src1 wm src2 s
  | .vpermdEvex512 p dest src1 wm src2 => Sys2Proof.Machine.execVpermdEvex512 p dest src1 wm src2 s
  | .vpermwEvex128 p dest src1 wm src2 => Sys2Proof.Machine.execVpermwEvex128 p dest src1 wm src2 s
  | .vpermwEvex256 p dest src1 wm src2 => Sys2Proof.Machine.execVpermwEvex256 p dest src1 wm src2 s
  | .vpermwEvex512 p dest src1 wm src2 => Sys2Proof.Machine.execVpermwEvex512 p dest src1 wm src2 s

end Sys2Proof.Machine
end

