-- ==== Sys2Proof/WellFormed.lean ====
section
/-! DEFINITION. Which terms of `Instr` an encoding exists for: the checks that the types of Syntax.lean do not make. -/

namespace Sys2Proof

/-- The low three bits of a general register number, which stand in ModRM.rm or SIB.bs (30_encoding.md R90). -/
def Gpr.low (r : Gpr) : Nat := r.val % 8

/-- mod = 00b with low base bits 101b is another addressing form, so a base whose low bits are 101b needs a displacement
(30_encoding.md R90). -/
def Disp.wfBase (d : Disp) (base : Gpr) : Bool := d != .none || base.low != 5

/-- Register number 4 as a SIB index means no index (30_encoding.md R90). -/
def Gpr.wfIndex (index : Option Gpr) : Bool := index != some 4

/-- The addressing form is one that bytes can select (30_encoding.md R90): without a SIB byte the base's low bits are not 100b. -/
def MemOp.wf : MemOp → Bool
  | .based base disp => base.low != 4 && disp.wfBase base
  | .ripRel _ => true
  | .sib base index _ disp => Gpr.wfIndex index && disp.wfBase base
  | .sibNoBase index _ _ => Gpr.wfIndex index

/-- Zeroing-masking needs a writemask: z = 1 with aaa = 000b is #UD (30_encoding.md R102). -/
def Writemask.wf (wm : Writemask) : Bool := !wm.z || wm.aaa != 0

def VexSrc.wf : VexSrc → Bool
  | .reg _ => true
  | .mem m => m.wf

def FullSrc.wf : FullSrc → Bool
  | .reg _ => true
  | .mem m => m.wf
  | .bcst m => m.wf

def FullMemSrc.wf : FullMemSrc → Bool
  | .reg _ => true
  | .mem m => m.wf

/-- The instruction has an encoding. -/
def Instr.wf : Instr → Bool
  | .vpermdVex256 _ _ _ src2 => src2.wf
  | .vpermdEvex256 _ _ _ wm src2 => wm.wf && src2.wf
  | .vpermdEvex512 _ _ _ wm src2 => wm.wf && src2.wf
  | .vpermwEvex128 _ _ _ wm src2 => wm.wf && src2.wf
  | .vpermwEvex256 _ _ _ wm src2 => wm.wf && src2.wf
  | .vpermwEvex512 _ _ _ wm src2 => wm.wf && src2.wf

end Sys2Proof
end

