-- ==== Sys2Proof/Decode.lean ====
section
/-! DEFINITION. Instruction bytes: fields, the decode procedure (30_encoding.md R97), the encoder (R86 to R93), and the opcode
table's words. The bit layouts are the spec's own (R84, R87, R89, R90). -/

namespace Sys2Proof

/-! ## Fields -/

/-- Bit `i` of a byte. -/
def bitAt (b : Byte) (i : Nat) : Bool := b.getLsbD i

/-- Bits `lo + n - 1 : lo` of a byte (00_scope.md R8). -/
def field (b : Byte) (lo n : Nat) : BitVec n := b.extractLsb' lo n

/-- The register number `hi:lo` of four bits (30_encoding.md R90, R92). -/
def reg4 (hi : Bool) (lo : BitVec 3) : Fin 16 := (BitVec.ofBool hi ++ lo).toFin

/-- The register number `top:hi:lo` of five bits (30_encoding.md R93). -/
def reg5 (top hi : Bool) (lo : BitVec 3) : Fin 32 := (BitVec.ofBool top ++ BitVec.ofBool hi ++ lo).toFin

/-- Four bytes, least significant first (30_encoding.md R91). -/
def le32 (v : BitVec 32) : List Byte :=
  [v.extractLsb' 0 8, v.extractLsb' 8 8, v.extractLsb' 16 8, v.extractLsb' 24 8]

/-! ## Legacy prefixes (30_encoding.md R82) -/

/-- 40H to 4FH. -/
def isRex (b : Byte) : Bool := field b 4 4 == 4

/-- The bytes step 1 of R97 reads as legacy prefixes. -/
def isLegacyPrefix (b : Byte) : Bool :=
  b == 0x26 || b == 0x2E || b == 0x36 || b == 0x3E || b == 0x64 || b == 0x65 || b == 0x66 || b == 0x67 ||
    b == 0xF0 || b == 0xF2 || b == 0xF3 || isRex b

/-- 66H, F2H, F3H, F0H or REX before a VEX or EVEX prefix is #UD. -/
def isForbiddenPrefix (b : Byte) : Bool :=
  b == 0x66 || b == 0xF2 || b == 0xF3 || b == 0xF0 || isRex b

/-- The prefix run of an instruction, repeats included, and the bytes after it. -/
def splitPrefixes : List Byte → List Byte × List Byte
  | [] => ([], [])
  | b :: bs =>
    if isLegacyPrefix b then ((splitPrefixes bs).1.cons b, (splitPrefixes bs).2) else ([], b :: bs)

/-- The admitted subset (92 D24): at most one 67H and at most one of 64H, 65H, in either order, and nothing else. -/
def admitPrefixes (run : List Byte) : Option Prefixes :=
  if run.all (fun b => b == 0x67 || b == 0x64 || b == 0x65) && run.count 0x67 ≤ 1 &&
      run.count 0x64 + run.count 0x65 ≤ 1 then
    some { addr32 := run.contains 0x67
           seg := if run.contains 0x64 then .fs else if run.contains 0x65 then .gs else .none }
  else none

/-- The bytes of a segment override. -/
def SegOverride.bytes : SegOverride → List Byte
  | .none => []
  | .fs => [0x64]
  | .gs => [0x65]

/-- The bytes of an admitted prefix set; the encoder writes 67H last. -/
def Prefixes.bytes (p : Prefixes) : List Byte :=
  p.seg.bytes ++ (if p.addr32 then [0x67] else [])

/-! ## ModRM, SIB, displacement (30_encoding.md R89 to R91) -/

/-- Operand 3 as ModRM gives it: the three bits of a register, or a memory operand. -/
inductive RmOperand where
  | reg (rm : BitVec 3)
  | mem (m : MemOp)
deriving DecidableEq, Repr

def readDisp8 : List Byte → Option (BitVec 8)
  | b :: _ => some b
  | [] => none

def readDisp32 : List Byte → Option (BitVec 32)
  | b0 :: b1 :: b2 :: b3 :: _ => some (b3 ++ b2 ++ b1 ++ b0)
  | _ => none

/-- The displacement that mod = 00b, 01b, 10b asks for, and the number of its bytes. -/
def readDisp (mod : BitVec 2) (bs : List Byte) : Option (Disp × Nat) :=
  if mod = 0 then some (.none, 0)
  else if mod = 1 then (readDisp8 bs).map fun v => (.d8 v, 1)
  else (readDisp32 bs).map fun v => (.d32 v, 4)

/-- A SIB index field: `X:idx = 0100b` is no index. -/
def sibIndex (x : Bool) (idx : BitVec 3) : Option Gpr :=
  if reg4 x idx = 4 then none else some (reg4 x idx)

/-- The rows of R90's table with rm = 100b: SIB byte, then the displacement. -/
def readSib (mod : BitVec 2) (x b : Bool) : List Byte → Option (RmOperand × Nat)
  | [] => none
  | sib :: bs =>
    if mod = 0 ∧ field sib 0 3 = 5 then
      (readDisp32 bs).map fun d => (.mem (.sibNoBase (sibIndex x (field sib 3 3)) (field sib 6 2) d), 5)
    else
      (readDisp mod bs).map fun d =>
        (.mem (.sib (reg4 b (field sib 0 3)) (sibIndex x (field sib 3 3)) (field sib 6 2) d.1), 1 + d.2)

/-- Operand 3 from ModRM and the bytes after it, and how many of these it takes; `none` when there are too few. -/
def readRm (modrm : Byte) (x b : Bool) (bs : List Byte) : Option (RmOperand × Nat) :=
  if field modrm 6 2 = 3 then some (.reg (field modrm 0 3), 0)
  else if field modrm 0 3 = 4 then readSib (field modrm 6 2) x b bs
  else if field modrm 6 2 = 0 ∧ field modrm 0 3 = 5 then
    (readDisp32 bs).map fun d => (.mem (.ripRel d), 4)
  else
    (readDisp (field modrm 6 2) bs).map fun d => (.mem (.based (reg4 b (field modrm 0 3)) d.1), d.2)

/-! ## The decode procedure (30_encoding.md R97) -/

/-- Why bytes decode to #UD. -/
inductive UdCause where
  /-- A 66H, F2H, F3H, F0H or REX prefix precedes (R82). -/
  | forbiddenPrefix
  /-- VEX.L = 0 (R98). -/
  | vexL0
  /-- VEX.W = 1 (R104). -/
  | vexW1
  /-- EVEX P0[3:2] not 00b or P1[2] = 0 (R103). -/
  | evexReserved
  /-- EVEX.L'L = 11b (R100). -/
  | evexLL3
  /-- EVEX.L'L = 00b for VPERMD (R99). -/
  | vpermdLL0
  /-- EVEX.b = 1 with a register operand 3 (R101). -/
  | broadcastRegister
  /-- EVEX.b = 1 for VPERMW (R101, R174). -/
  | broadcastWord
  /-- EVEX.z = 1 with aaa = 000b (R102). -/
  | zeroingNoMask
deriving DecidableEq, Repr

/-- The results of decoding (R97). -/
inductive Decoded where
  /-- An instruction of `len` bytes. -/
  | instr (i : Instr) (len : Nat)
  /-- The chip raises #UD. -/
  | ud (c : UdCause)
  /-- Longer than 15 bytes: #GP(0) (R81). -/
  | gpLen
  /-- A prefix run outside the admitted subset (R82): the spec gives no meaning. -/
  | prefixRun
  /-- Not a form in scope nor one of its listed illegal variants (R105). -/
  | notInScope
  /-- The bytes given end before the procedure has what it needs. -/
  | truncated
deriving DecidableEq, Repr

/-- The longest instruction (R81). -/
def maxInstrBytes : Nat := 15

/-- Reads the rest of an instruction of which `before` bytes are read: ModRM, SIB and displacement (R80, R90). A length above 15 goes
before what `judge` finds in the bytes: before a #UD cause as 60_exceptions.md R199 orders them (92 D11), before a refused prefix run by the
model's reading (log 8). -/
def readOperand (before : Nat) (x b : Bool) (rest : List Byte) (judge : Byte → RmOperand → Nat → Decoded) : Decoded :=
  match rest with
  | [] => .truncated
  | modrm :: bs =>
    match readRm modrm x b bs with
    | none => .truncated
    | some (rm, n) => if before + 1 + n > maxInstrBytes then .gpLen else judge modrm rm (before + 1 + n)

/-- The vector register or memory operand of form 1 (R92). -/
def vexSrc (b : Bool) : RmOperand → VexSrc
  | .reg rm => .reg (reg4 b rm)
  | .mem m => .mem m

/-- Operand 3 of forms 2 and 3 (R93, R101); `none` is b = 1 with a register. -/
def fullSrc (x b bcst : Bool) : RmOperand → Option FullSrc
  | .reg rm => if bcst then none else some (.reg (reg5 x b rm))
  | .mem m => some (if bcst then .bcst m else .mem m)

/-- Operand 3 of forms 4 to 6 (R93). -/
def fullMemSrc (x b : Bool) : RmOperand → FullMemSrc
  | .reg rm => .reg (reg5 x b rm)
  | .mem m => .mem m

/-- Step 2 of R97: after C4H. `run` is the prefix run; `b1`, `b2`, `op` the next bytes. -/
def decodeVex (run : List Byte) (b1 b2 op : Byte) (rest : List Byte) : Decoded :=
  if ¬(field b1 0 5 = 2 ∧ field b2 0 2 = 1 ∧ op = 0x36) then .notInScope
  else readOperand (run.length + 4) (!bitAt b1 6) (!bitAt b1 5) rest fun modrm rm len =>
    if run.any isForbiddenPrefix then .ud .forbiddenPrefix
    else match admitPrefixes run with
      | none => .prefixRun
      | some p =>
        if bitAt b2 2 = false then .ud .vexL0
        else if bitAt b2 7 then .ud .vexW1
        else .instr
          (.vpermdVex256 p (reg4 (!bitAt b1 7) (field modrm 3 3)) (~~~field b2 3 4).toFin (vexSrc (!bitAt b1 5) rm)) len

/-- The end of step 3 of R97: the checks after the operand is read, and the instruction of the row (R88). -/
def evexInstr (p : Prefixes) (w : Bool) (ll : BitVec 2) (x b bcst : Bool) (dest src1 : VReg) (wm : Writemask)
    (rm : RmOperand) : Except UdCause Instr :=
  match fullSrc x b bcst rm with
  | none => .error .broadcastRegister
  | some src2 =>
    if bcst && w then .error .broadcastWord
    else if wm.z && wm.aaa == 0 then .error .zeroingNoMask
    else if w = false then
      .ok (if ll = 1 then .vpermdEvex256 p dest src1 wm src2 else .vpermdEvex512 p dest src1 wm src2)
    else if ll = 0 then .ok (.vpermwEvex128 p dest src1 wm (fullMemSrc x b rm))
    else if ll = 1 then .ok (.vpermwEvex256 p dest src1 wm (fullMemSrc x b rm))
    else .ok (.vpermwEvex512 p dest src1 wm (fullMemSrc x b rm))

/-- Step 3 of R97: after 62H. An instruction with wrong reserved bits is read in the shape of R80 like the others (log 6). -/
def decodeEvex (run : List Byte) (p0 p1 p2 op : Byte) (rest : List Byte) : Decoded :=
  if (field p0 2 2 = 0 ∧ bitAt p1 2 = true) ∧
      ¬(field p0 0 2 = 2 ∧ field p1 0 2 = 1 ∧
        ((op = 0x36 ∧ bitAt p1 7 = false) ∨ (op = 0x8D ∧ bitAt p1 7 = true))) then .notInScope
  else readOperand (run.length + 5) (!bitAt p0 6) (!bitAt p0 5) rest fun modrm rm len =>
    if ¬(field p0 2 2 = 0 ∧ bitAt p1 2 = true) then .ud .evexReserved
    else if run.any isForbiddenPrefix then .ud .forbiddenPrefix
    else match admitPrefixes run with
      | none => .prefixRun
      | some p =>
        if field p2 5 2 = 3 then .ud .evexLL3
        else if op = 0x36 ∧ field p2 5 2 = 0 then .ud .vpermdLL0
        else match evexInstr p (bitAt p1 7) (field p2 5 2) (!bitAt p0 6) (!bitAt p0 5) (bitAt p2 4)
            (reg5 (!bitAt p0 4) (!bitAt p0 7) (field modrm 3 3))
            (BitVec.ofBool (!bitAt p2 3) ++ ~~~field p1 3 4).toFin
            ⟨(field p2 0 3).toFin, bitAt p2 7⟩ rm with
          | .error c => .ud c
          | .ok i => .instr i len

/-- Steps 2 to 4 of R97: the bytes after the prefix run. -/
def decodeBody (run : List Byte) : List Byte → Decoded
  | [] => .truncated
  | b0 :: bs =>
    if b0 = 0xC4 then
      match bs with
      | b1 :: b2 :: op :: rest => decodeVex run b1 b2 op rest
      | _ => .truncated
    else if b0 = 0x62 then
      match bs with
      | p0 :: p1 :: p2 :: op :: rest => decodeEvex run p0 p1 p2 op rest
      | _ => .truncated
    else .notInScope

/-- Decode (R97): total on any bytes. Bytes after the instruction are not looked at. Within steps 2 and 3 the instruction is read whole
before its length and then its #UD causes are judged, the order of 60_exceptions.md R199. -/
def decode (bytes : List Byte) : Decoded :=
  decodeBody (splitPrefixes bytes).1 (splitPrefixes bytes).2

/-! ## The encoder -/

/-- The low three bits of a register number. -/
def low3 {n : Nat} (r : Fin n) : BitVec 3 := BitVec.ofNat 3 r.val

/-- Bit `i` of a register number. -/
def regBit {n : Nat} (r : Fin n) (i : Nat) : Bool := r.val.testBit i

/-- The two bits mod for a displacement (R90). -/
def Disp.modBits : Disp → BitVec 2
  | .none => 0
  | .d8 _ => 1
  | .d32 _ => 2

def Disp.bytes : Disp → List Byte
  | .none => []
  | .d8 v => [v]
  | .d32 v => le32 v

/-- What ModRM, SIB and displacement hold for operand 3, and the prefix bits X and B it needs (R89, R90). -/
structure RmBits where
  modBits : BitVec 2
  rm : BitVec 3
  x : Bool
  b : Bool
  tail : List Byte
deriving DecidableEq, Repr

/-- The number that stands for a SIB index; no index is number 4. -/
def indexNumber (index : Option Gpr) : Gpr := index.getD 4

def sibByte (ss : BitVec 2) (index : Option Gpr) (bs : BitVec 3) : Byte :=
  ss ++ low3 (indexNumber index) ++ bs

/-- The encoding of a memory operand; bits the decoder ignores are written as X = B = 0 (log 15). -/
def MemOp.bits : MemOp → RmBits
  | .based base d => ⟨d.modBits, low3 base, false, regBit base 3, d.bytes⟩
  | .ripRel d => ⟨0, 5, false, false, le32 d⟩
  | .sib base index ss d =>
    ⟨d.modBits, 4, regBit (indexNumber index) 3, regBit base 3, sibByte ss index (low3 base) :: d.bytes⟩
  | .sibNoBase index ss d => ⟨0, 4, regBit (indexNumber index) 3, false, sibByte ss index 5 :: le32 d⟩

/-- A register operand 3: `X:B:rm` (R93); under VEX the register is below 16 and X is 0 (R92). -/
def regBits {n : Nat} (r : Fin n) : RmBits := ⟨3, low3 r, regBit r 4, regBit r 3, []⟩

def VexSrc.bits : VexSrc → RmBits
  | .reg r => regBits r
  | .mem m => m.bits

def FullSrc.bits : FullSrc → RmBits
  | .reg r => regBits r
  | .mem m => m.bits
  | .bcst m => m.bits

/-- EVEX.b (R101). -/
def FullSrc.bcstBit : FullSrc → Bool
  | .reg _ => false
  | .mem _ => false
  | .bcst _ => true

def FullMemSrc.bits : FullMemSrc → RmBits
  | .reg r => regBits r
  | .mem m => m.bits

/-- A prefix bit is stored complemented (R84, R87). -/
def inv (b : Bool) : BitVec 1 := BitVec.ofBool (!b)

/-- Form 1 (R84, R86): C4H, the two payload bytes, 36H, ModRM, SIB and displacement. -/
def encodeVex (p : Prefixes) (dest src1 : VReg16) (m : RmBits) : List Byte :=
  p.bytes ++
    [0xC4, inv (regBit dest 3) ++ inv m.x ++ inv m.b ++ 2#5, 0#1 ++ ~~~(BitVec.ofNat 4 src1.val) ++ 1#1 ++ 1#2,
      0x36, m.modBits ++ low3 dest ++ m.rm] ++ m.tail

/-- Forms 2 to 6 (R87, R88): 62H, P0, P1, P2, opcode, ModRM, SIB and displacement. -/
def encodeEvex (p : Prefixes) (w : Bool) (ll : BitVec 2) (op : Byte) (dest src1 : VReg) (wm : Writemask)
    (bcst : Bool) (m : RmBits) : List Byte :=
  p.bytes ++
    [0x62, inv (regBit dest 3) ++ inv m.x ++ inv m.b ++ inv (regBit dest 4) ++ 0#2 ++ 2#2,
      BitVec.ofBool w ++ ~~~(BitVec.ofNat 4 src1.val) ++ 1#1 ++ 1#2,
      BitVec.ofBool wm.z ++ ll ++ BitVec.ofBool bcst ++ inv (regBit src1 4) ++ BitVec.ofNat 3 wm.aaa.val,
      op, m.modBits ++ low3 dest ++ m.rm] ++ m.tail

/-- The bytes of an instruction (R86, R88). -/
def encode : Instr → List Byte
  | .vpermdVex256 p dest src1 src2 => encodeVex p dest src1 src2.bits
  | .vpermdEvex256 p dest src1 wm src2 => encodeEvex p false 1 0x36 dest src1 wm src2.bcstBit src2.bits
  | .vpermdEvex512 p dest src1 wm src2 => encodeEvex p false 2 0x36 dest src1 wm src2.bcstBit src2.bits
  | .vpermwEvex128 p dest src1 wm src2 => encodeEvex p true 0 0x8D dest src1 wm false src2.bits
  | .vpermwEvex256 p dest src1 wm src2 => encodeEvex p true 1 0x8D dest src1 wm false src2.bits
  | .vpermwEvex512 p dest src1 wm src2 => encodeEvex p true 2 0x8D dest src1 wm false src2.bits

/-! ## The opcode table -/

/-- The row of the opcode table an instruction belongs to. -/
def Instr.form : Instr → Form
  | .vpermdVex256 .. => .vexD256
  | .vpermdEvex256 .. => .evexD256
  | .vpermdEvex512 .. => .evexD512
  | .vpermwEvex128 .. => .evexW128
  | .vpermwEvex256 .. => .evexW256
  | .vpermwEvex512 .. => .evexW512

/-- A row's fixed bits: the number of bytes they cover, their mask and their value, byte 0 most significant (R86, R88). -/
structure RowPattern where
  bytes : Nat
  mask : Nat
  value : Nat
deriving DecidableEq, Repr

def Form.pattern : Form → RowPattern
  | .vexD256 => ⟨4, 0xFF1F87FF, 0xC4020536⟩
  | .evexD256 => ⟨5, 0xFF0F8760FF, 0x6202052036⟩
  | .evexD512 => ⟨5, 0xFF0F8760FF, 0x6202054036⟩
  | .evexW128 => ⟨5, 0xFF0F8760FF, 0x620285008D⟩
  | .evexW256 => ⟨5, 0xFF0F8760FF, 0x620285208D⟩
  | .evexW512 => ⟨5, 0xFF0F8760FF, 0x620285408D⟩

/-- Bytes read as one number, byte 0 most significant (R86). -/
def beNumber : List Byte → Nat → Nat
  | [], acc => acc
  | b :: bs, acc => beNumber bs (acc * 256 + b.toNat)

/-- The bytes after the legacy prefixes have the row's fixed bits. -/
def Form.matchesBytes (f : Form) (body : List Byte) : Bool :=
  f.pattern.bytes ≤ body.length &&
    beNumber (body.take f.pattern.bytes) 0 &&& f.pattern.mask == f.pattern.value

/-- The low `n` bytes of a number, lowest first. -/
def lowFirst : Nat → Nat → List Byte
  | 0, _ => []
  | n + 1, w => BitVec.ofNat 8 w :: lowFirst n (w / 256)

def padBytes (bs : List Byte) : List Byte := bs ++ List.replicate (maxInstrBytes - bs.length) 0

def Decoded.instr? : Decoded → Option Instr
  | .instr i _ => some i
  | _ => none

/-- The bytes a word of the opcode table stands for, with zero bytes after them up to the longest instruction. The table numbers byte
0 most significant (its note; R86, R88); where the bytes in that order are no instruction, byte 0 is taken as the least significant
(log 12). -/
def tableBytes (nbits w : Nat) : List Byte :=
  if (decode (padBytes ((lowFirst (nbits / 8) w).reverse.dropWhile (· == 0)))).instr?.isSome then
    padBytes ((lowFirst (nbits / 8) w).reverse.dropWhile (· == 0))
  else padBytes (lowFirst (nbits / 8) w)

/-- The instruction the decoder reads from a word of the opcode table. -/
def decodeTableWord (nbits w : Nat) : Option Instr := (decode (tableBytes nbits w)).instr?

end Sys2Proof
end

