-- ==== Sys2Proof/Machine/Fetch.lean ====
section
/-! DEFINITION. Fetching an instruction's bytes and what each result of decoding them means (40_vpermd.md R148 step 1,
60_exceptions.md R199). -/

namespace Sys2Proof.Machine

/-- The instruction byte at a linear address: it must not lie past the top of the address space (10_state.md R27, 92 D21; log 7), must be
canonical (R27, else #GP(0)), and the platform must let it be fetched (20_memory.md R65, R68). One question for each byte: how many
bytes an instruction has is known only when they are read (log 6). -/
def fetchByte (a : Nat) (s : State) : Answer Byte :=
  if a ≥ 2 ^ 64 then .refused .codeWrap
  else if !canonical s.cfg.vaBits.bits a then raise .gp0 s
  else (access .fetch a 1 s).bind fun bytes => .ok bytes[0]

/-- Step 1 of R148: the instruction at `rip`, or what ends the step, in the order of 60_exceptions.md R199. `bytes` are the bytes at `rip`
fetched so far. The next one is fetched, and a byte that cannot be ends the step; then the decoder says what the bytes are, or that it
needs one more. It judges an instruction, its length first, when all its bytes are fetched, so a fault on fetching any of them goes
before the length, wherever the fifteenth byte lies (log 6, 8). The first argument is the number of addresses left below 2^64. -/
def fetchInstr : Nat → List Byte → State → Answer Instr
  | 0, _, _ => .refused .codeWrap
  | left + 1, bytes, s =>
    (fetchByte (s.rip.toNat + bytes.length) s).bind fun b =>
      match decode (bytes ++ [b]) with
      | .instr i _ => .ok i
      | .ud _ => raise .ud s
      | .gpLen => raise .gp0 s
      | .prefixRun => .refused .prefixRun
      | .notInScope => .refused .notInScope
      | .truncated => fetchInstr left (bytes ++ [b]) s

/-- The first step of R148 with the mode that 30_encoding.md R107 asks for. -/
def nextInstr (s : State) : Answer Instr :=
  if s.mode64 then fetchInstr (2 ^ 64 - s.rip.toNat) [] s else .refused .mode

/-- The state with a word of the opcode table placed at `rip` and the boot steps done (70_reset_and_hazards.md R231, R235; log 2). -/
def State.launchWord (s : State) (nbits w : Nat) : State := s.boot.placeBytes s.rip (tableBytes nbits w)

end Sys2Proof.Machine
end

