-- ==== Sys2Proof/Machine/Step.lean ====
section
/-! DEFINITION. One step of the machine (40_vpermd.md R148) and the placing of an instruction where the next step fetches it. -/

namespace Sys2Proof.Machine

/-- One step (R148): fetch and decode at `rip`, then execute. -/
def step (s : State) : Host.Outcome State Fault Refusal :=
  match nextInstr s with
  | .ok i => exec i s
  | .fault f => .fault f
  | .refused r => .refused r

/-- The state in which the next step runs the instruction of a word of the opcode table. A program comes to run by a launch, after the boot
steps (70_reset_and_hazards.md R231, R235); both are done here, and nothing else changes (log 2). -/
def State.withFetchWord (s : State) (nbits w : Nat) : State := s.launchWord nbits w

end Sys2Proof.Machine
end

