-- ==== Sys2Proof/Safety.lean ====
section
/-! DEFINITION. The terms claims are stated in: when a form may execute, which memory operand an instruction reads, the invariant of the
machine, launches and their runs (70_reset_and_hazards.md R235). -/

namespace Sys2Proof

/-! ## Operands of an instruction -/

/-- A memory operand: its addressing form, the factor of a disp8 (30_encoding.md R94), its size in bytes (20_memory.md R52). -/
structure MemAccess where
  m : MemOp
  N : Nat
  n : Nat
deriving DecidableEq, Repr

def Instr.prefixes : Instr → Prefixes
  | .vpermdVex256 p _ _ _ => p
  | .vpermdEvex256 p _ _ _ _ => p
  | .vpermdEvex512 p _ _ _ _ => p
  | .vpermwEvex128 p _ _ _ _ => p
  | .vpermwEvex256 p _ _ _ _ => p
  | .vpermwEvex512 p _ _ _ _ => p

/-- The destination register, operand 1. -/
def Instr.dest : Instr → VReg
  | .vpermdVex256 _ d _ _ => d.castLE (by decide)
  | .vpermdEvex256 _ d _ _ _ => d
  | .vpermdEvex512 _ d _ _ _ => d
  | .vpermwEvex128 _ d _ _ _ => d
  | .vpermwEvex256 _ d _ _ _ => d
  | .vpermwEvex512 _ d _ _ _ => d

def VexSrc.memAccess : VexSrc → Option MemAccess
  | .reg _ => none
  | .mem m => some ⟨m, 1, 32⟩

def FullSrc.memAccess (bytes : Nat) : FullSrc → Option MemAccess
  | .reg _ => none
  | .mem m => some ⟨m, bytes, bytes⟩
  | .bcst m => some ⟨m, 4, 4⟩

def FullMemSrc.memAccess (bytes : Nat) : FullMemSrc → Option MemAccess
  | .reg _ => none
  | .mem m => some ⟨m, bytes, bytes⟩

/-- The memory operand, as the tables of 20_memory.md R52 and 30_encoding.md R94 give its size and its factor. -/
def Instr.memAccess : Instr → Option MemAccess
  | .vpermdVex256 _ _ _ src2 => src2.memAccess
  | .vpermdEvex256 _ _ _ _ src2 => src2.memAccess 32
  | .vpermdEvex512 _ _ _ _ src2 => src2.memAccess 64
  | .vpermwEvex128 _ _ _ _ src2 => src2.memAccess 16
  | .vpermwEvex256 _ _ _ _ src2 => src2.memAccess 32
  | .vpermwEvex512 _ _ _ _ src2 => src2.memAccess 64

namespace Machine

/-- The linear address of a memory operand of an instruction (20_memory.md R53, R54). -/
def operandAddress (i : Instr) (a : MemAccess) (s : State) : Addr := linearAddress i.prefixes a.N i.length a.m s

/-! ## When an instruction executes -/

/-- The mode, the operating system's enables, the feature flags and CR0.TS let the form execute (40_vpermd.md R148 steps 2, 3;
30_encoding.md R106, R107; 60_exceptions.md R195, R198). -/
def Ready (f : Form) (s : State) : Bool := s.mode64 && Form.osEnabled f s && f.hasFeatures s.cfg && !s.cr0TS

/-- `Access` answers with bytes (20_memory.md R68). -/
def AccessAnswer.isOk {n : Nat} : AccessAnswer n → Bool
  | .ok _ => true
  | .pageFault _ _ => false
  | .refused _ => false

/-- A range can be read: within the address space, canonical, and `Access` answers with bytes (20_memory.md R55). -/
def readable (la n : Nat) (s : State) : Bool :=
  decide (la + n ≤ 2 ^ 64) && canonicalRange s.cfg.vaBits.bits la n && AccessAnswer.isOk (s.answer .read la n)

/-- Operand 3 is a register, or can be read. -/
def operandReadable (i : Instr) (s : State) : Bool :=
  match i.memAccess with
  | none => true
  | some a => readable (operandAddress i a s).toNat a.n s

/-- `Access` answers alike in two states: what an instruction reads through it does not tell them apart. A platform may answer by the whole
state (20_memory.md R68). -/
abbrev SameAccess (s t : State) : Prop := ∀ (kind : AccessKind) (la n : Nat), t.answer kind la n = s.answer kind la n

/-! ## What a result is compared with -/

/-- The bytes of `data`, lowest first, are those of memory from a linear address up (20_memory.md R51, R55, R62). -/
abbrev BytesFrom {n : Nat} (data : BitVec n) (bytes : Nat) (addr : Nat) (s : State) : Prop :=
  ∀ b < bytes, elem 8 data b = s.mem.get (addr + b)

/-- `data` is operand 3 of form 1: the register's low bits, or the bytes read (40_vpermd.md R142). -/
abbrev VexSrc.HasData (p : Prefixes) (len : Nat) (s : State) (data : Vec 32 8) : VexSrc → Prop
  | .reg r => data = (s.zmm.get (r.castLE (by decide))).setWidth (32 * 8)
  | .mem m => BytesFrom data 32 (linearAddress p 1 len m s).toNat s

/-- `data` is operand 3 of forms 2 and 3, `kl` doublewords: the register's low bits, the bytes read, or four bytes read in every doubleword
(40_vpermd.md R143, R144). -/
abbrev FullSrc.HasData (kl : Nat) (p : Prefixes) (len : Nat) (s : State) (data : Vec 32 kl) : FullSrc → Prop
  | .reg r => data = (s.zmm.get r).setWidth (32 * kl)
  | .mem m => BytesFrom data (4 * kl) (linearAddress p (4 * kl) len m s).toNat s
  | .bcst m => ∀ j < kl, BytesFrom (elem 32 data j) 4 (linearAddress p 4 len m s).toNat s

/-- `data` is operand 3 of forms 4 to 6, `kl` words: the register's low bits or the bytes read (41_vpermw.md R170). -/
abbrev FullMemSrc.HasData (kl : Nat) (p : Prefixes) (len : Nat) (s : State) (data : Vec 16 kl) : FullMemSrc → Prop
  | .reg r => data = (s.zmm.get r).setWidth (16 * kl)
  | .mem m => BytesFrom data (2 * kl) (linearAddress p (2 * kl) len m s).toNat s

/-- Element `j` of the result of a masked form (40_vpermd.md R141, R145), with `nb` index bits. -/
def maskedElem (w nb : Nat) {n : Nat} (s : State) (dest src1 : VReg) (wm : Writemask) (data : BitVec n) (j : Nat) :
    BitVec w :=
  if wm.aaa = 0 ∨ (s.k.get wm.aaa).getLsbD j = true then
    elem w data ((s.zmm.get src1).extractLsb' (w * j) nb).toNat
  else if wm.z then 0
  else elem w (s.zmm.get dest) j

/-- The sum of R53 as an integer: base (or the next instruction's address), index times scale, displacement (a disp8 times N). -/
def addressSum (N len : Nat) (s : State) : MemOp → Int
  | .based b d => (s.gpr.get b).toNat + dispInt N d
  | .ripRel d => s.rip.toNat + len + d.toInt
  | .sib b i ss d => (s.gpr.get b).toNat + indexInt s i * 2 ^ ss.toNat + dispInt N d
  | .sibNoBase i ss d => indexInt s i * 2 ^ ss.toNat + d.toInt
where
  dispInt (N : Nat) : Disp → Int
    | .none => 0
    | .d8 v => v.toInt * N
    | .d32 v => v.toInt
  indexInt (s : State) : Option Gpr → Int
    | none => 0
    | some r => (s.gpr.get r).toNat

/-- The access uses the SS segment: no override, and RSP or RBP as base (20_memory.md R54). -/
def usesStackSegment (i : Instr) (m : MemOp) : Bool :=
  i.prefixes.seg == .none &&
    match m with
    | .based b _ => b == 4 || b == 5
    | .ripRel _ => false
    | .sib b _ _ _ => b == 4 || b == 5
    | .sibNoBase _ _ _ => false

/-- A linear address is the sign extension of its low `va` bits: bits 63 to `va - 1` are all equal (20_memory.md R54). -/
abbrev IsCanonical (va : Nat) (a : Nat) : Prop :=
  ((BitVec.ofNat 64 a).setWidth va).signExtend 64 = BitVec.ofNat 64 a

/-! ## Bytes at `rip` -/

/-- The bytes at a linear address can be fetched, and are these (R235 `CodeAt`): each is within the address space and canonical, and
`Access` answers with it. -/
def CodeAt : Nat → List Byte → State → Bool
  | _, [], _ => true
  | a, b :: bs, s =>
    decide (a < 2 ^ 64) && canonical s.cfg.vaBits.bits a && s.answer .fetch a 1 == .ok #v[b] && CodeAt (a + 1) bs s

/-- The first `n` bytes at `rip` can be fetched, and the decoder asks for one more, which may be the sixteenth or a later one
(30_encoding.md R97). -/
abbrev NeedsByte (s : State) (n : Nat) : Prop :=
  s.mode64 = true ∧ ∃ bytes : List Byte, bytes.length = n ∧ CodeAt s.rip.toNat bytes s = true ∧
    decode bytes = .truncated

/-- In 64-bit mode with these bytes at `rip`, the step has this outcome. -/
abbrev StepOnBytes (bytes : List Byte) (outcome : State → Host.Outcome State Fault Refusal) : Prop :=
  ∀ s : State, s.mode64 = true → CodeAt s.rip.toNat bytes s = true → step s = outcome s

/-- In 64-bit mode with these bytes at `rip`, the step raises #UD. -/
abbrev StepRaisesUd (bytes : List Byte) : Prop := StepOnBytes bytes fun s => .fault (.ud s.rip)

/-- The pattern of form 1 (30_encoding.md R86) with L and W left open. -/
def vexPattern (b1 b2 op : Byte) : Bool := field b1 0 5 == 2 && field b2 0 2 == 1 && op == 0x36

/-- The fixed bits of an EVEX prefix (30_encoding.md R87). -/
def evexFixed (p0 p1 : Byte) : Bool := field p0 2 2 == 0 && bitAt p1 2

/-- The pattern of forms 2 to 6 (30_encoding.md R88) with L'L left open. -/
def evexPattern (p0 p1 op : Byte) : Bool :=
  evexFixed p0 p1 && field p0 0 2 == 2 && field p1 0 2 == 1 &&
    ((op == 0x36 && !bitAt p1 7) || (op == 0x8D && bitAt p1 7))

/-- The encoding does not enter the address: no displacement that one form scales and another does not, and not relative to `rip`
(40_vpermd.md R146). -/
def MemOp.encodingFree : MemOp → Bool
  | .based _ (.d8 _) => false
  | .based _ _ => true
  | .ripRel _ => false
  | .sib _ _ _ (.d8 _) => false
  | .sib _ _ _ _ => true
  | .sibNoBase _ _ _ => true

/-- Element `j` of an index register names element `j`, for every element (40_vpermd.md R149). -/
abbrev IdentityIndices (w kl nb : Nat) (idx : Zmm) : Prop := ∀ j < kl, (idx.extractLsb' (w * j) nb).toNat = j

/-- The state that differs from `s` in one vector register and in `rip`. -/
def State.withResult (s : State) (d : VReg) (v : Zmm) (rip : Addr) : State :=
  { s with zmm := s.zmm.set d.val v d.isLt, rip := rip }

/-- An outcome with its next state changed. -/
def mapNext (f : State → State) : Host.Outcome State Fault Refusal → Host.Outcome State Fault Refusal
  | .next t => .next (f t)
  | .fault e => .fault e
  | .refused r => .refused r

/-- A page-fault code without its U/S bit (60_exceptions.md R197). -/
def clearUser (code : BitVec 32) : BitVec 32 := code &&& ~~~4#32

def AccessAnswer.clearUser {n : Nat} : AccessAnswer n → AccessAnswer n
  | .ok bytes => .ok bytes
  | .pageFault code i => .pageFault (Machine.clearUser code) i
  | .refused r => .refused r

/-- An outcome without the U/S bit of a page fault's code. -/
def outcomeClearUser : Host.Outcome State Fault Refusal → Host.Outcome State Fault Refusal
  | .fault (.pf code cr2 rip) => .fault (.pf (clearUser code) cr2 rip)
  | o => o

/-! ## The invariant -/

/-- Memory is in its canonical form, no vector register holds bits at or above `MAXVL` or exists at or above `NVREG`, and no opmask register
holds bits at or above `KWIDTH` (10_state.md R20, R22, R24; log 11). -/
abbrev State.Inv (s : State) : Prop :=
  Memory.wf s.mem = true ∧
    (∀ r : VReg, (s.zmm.get r).toNat < 2 ^ s.cfg.maxvl ∧ (s.cfg.nvreg ≤ r.val → s.zmm.get r = 0)) ∧
    ∀ a : Fin 8, (s.k.get a).toNat < 2 ^ s.cfg.kwidth

/-! ## Launches and runs (70_reset_and_hazards.md R235) -/

/-- A launch: the machine's state with its configuration and memory, and the end address. -/
structure Launch where
  state0 : State
  endAddr : Addr
deriving DecidableEq, Repr

/-- A launch's code neither crosses a canonical boundary nor wraps (10_state.md R27, 92 D21). DESIGN CHOICE (log 29): its code is the bytes
from the first `rip` up to the end address, which is not below it; R235 lets a run step past the end address and does not say whether the
bytes there are the launch's code. -/
def Launch.codeFits (l : Launch) : Bool :=
  decide (l.state0.rip.toNat ≤ l.endAddr.toNat) &&
    canonical l.state0.cfg.vaBits.bits l.state0.rip.toNat &&
    (decide (l.endAddr.toNat ≤ 2 ^ (l.state0.cfg.vaBits.bits - 1)) ||
      decide (2 ^ 64 - 2 ^ (l.state0.cfg.vaBits.bits - 1) ≤ l.state0.rip.toNat))

/-- `Access` is constant during a run: it does not depend on the vector registers and `rip`, which are all that a run changes (R235; log 4). -/
abbrev Launch.AccessIsConstant (l : Launch) : Prop :=
  ∀ (zmm : Vector Zmm 32) (rip : Addr), SameAccess l.state0 { l.state0 with zmm := zmm, rip := rip }

/-- R235 `CleanLaunch`: the boot steps are done, alignment checking (20_memory.md R57, 93 U6) and single-stepping (60_exceptions.md R210) are
off, the code fits, and `Access` is constant. The configuration satisfies its constraints by its type; no fault is recorded and nothing
is in flight, since the state has no place for either. -/
abbrev Launch.Clean (l : Launch) : Prop :=
  l.state0.mode64 = true ∧ l.state0.Inv ∧ l.state0.alignmentFlag = false ∧ l.state0.trapFlag = false ∧
    l.codeFits = true ∧ l.AccessIsConstant

/-- How far a run has come (R235). -/
inductive RunStatus where
  /-- `rip` has reached the end address. -/
  | final (s : State)
  /-- A step of this state raised an exception: terminal, not final (60_exceptions.md R201). -/
  | faulted (s : State) (f : Fault)
  /-- A step of this state was refused: terminal, not final. -/
  | refused (s : State) (r : Refusal)
  /-- The steps allowed are used up. -/
  | running (s : State)
deriving DecidableEq, Repr

/-- The state in which a run stands. -/
def RunStatus.state : RunStatus → State
  | .final s => s
  | .faulted s _ => s
  | .refused s _ => s
  | .running s => s

/-- A run of at most `n` steps; nothing is fetched at the end address (R235). -/
def runTo (endAddr : Addr) : Nat → State → RunStatus
  | 0, s => if s.rip = endAddr then .final s else .running s
  | n + 1, s =>
    if s.rip = endAddr then .final s
    else match step s with
      | .next t => runTo endAddr n t
      | .fault f => .faulted s f
      | .refused r => .refused s r

def Launch.run (l : Launch) (n : Nat) : RunStatus := runTo l.endAddr n l.state0

/-- A successful run: it reaches the end address; a faulted or refused run is none (60_exceptions.md R201). -/
def Launch.succeeds (l : Launch) (n : Nat) : Bool :=
  match l.run n with
  | .final _ => true
  | _ => false

/-- The state of the processor after a reset and the boot steps: where a launch may start. -/
def State.launch : State := State.reset.boot

end Machine

end Sys2Proof
end

