-- ==== Sys2Proof/Certificates/Slice0/Obligations.lean ====
section
/-! DEFINITION. The statements for the provers. Each docstring names the rules of spec/ it comes from. -/

open Sys2Proof Sys2Proof.Machine

/-! ## Encoding and decoding -/

/-- Decoding the bytes of a well-formed instruction, whatever follows them, gives the instruction and its length
(30_encoding.md R84 to R93, R97, R111). The encoder's choice of ignored bits is the model's (log 15). -/
def Obligations.DecodeOfEncodeIsTheInstruction : Prop :=
  ∀ i : Instr, i.wf = true → ∀ rest : List Byte, decode (encode i ++ rest) = .instr i i.length

/-- What the decoder accepts is well-formed, has the length of R111, and lies in the bytes given (30_encoding.md R90, R97, R102, R111). -/
def Obligations.DecodedInstructionIsWellFormed : Prop :=
  ∀ (bs : List Byte) (i : Instr) (n : Nat), decode bs = .instr i n → i.wf = true ∧ n = i.length ∧ n ≤ bs.length

/-- The decoder looks at no byte after the instruction (30_encoding.md R97, R111). -/
def Obligations.DecodeReadsOnlyTheInstructionsBytes : Prop :=
  ∀ (bs : List Byte) (i : Instr) (n : Nat), decode bs = .instr i n →
    ∀ rest : List Byte, decode (bs.take n ++ rest) = .instr i n

/-- The bytes after the legacy prefixes of a decoded instruction have the mask and match of its row (30_encoding.md R86, R88, R96). -/
def Obligations.DecodedBytesMatchTheirRow : Prop :=
  ∀ (bs : List Byte) (i : Instr) (n : Nat), decode bs = .instr i n →
    i.form.matchesBytes (splitPrefixes bs).2 = true

/-- No bytes match two rows of the opcode table (30_encoding.md R86, R88, R96). -/
def Obligations.NoBytesMatchTwoRows : Prop :=
  ∀ (f g : Form) (body : List Byte), f.matchesBytes body = true → g.matchesBytes body = true → f = g

/-- Words of the six forms written out from the encodings of the spec decode to the instructions they stand for
(95_test_vectors.md VE5, VE7, VE15, VE12, VE21, VE23, VE25). -/
def Obligations.SampleWordsDecode : Prop :=
  decode [0xC4, 0xE2, 0x05, 0x36, 0x5C, 0x9C, 0x20] =
      .instr (.vpermdVex256 ⟨false, .none⟩ 3 15 (.mem (.sib 4 (some 3) 2 (.d8 0x20)))) 7 ∧
    decode [0xC4, 0xA2, 0x75, 0x36, 0x04, 0x20] =
      .instr (.vpermdVex256 ⟨false, .none⟩ 0 1 (.mem (.sib 0 (some 12) 0 .none))) 6 ∧
    decode [0x62, 0xF2, 0x75, 0x39, 0x36, 0x40, 0x01] =
      .instr (.vpermdEvex256 ⟨false, .none⟩ 0 1 ⟨1, false⟩ (.bcst (.based 0 (.d8 1)))) 7 ∧
    decode [0x62, 0xA2, 0x6D, 0x43, 0x36, 0xCB] =
      .instr (.vpermdEvex512 ⟨false, .none⟩ 17 18 ⟨3, false⟩ (.reg 19)) 6 ∧
    decode [0x62, 0xF2, 0xCD, 0x08, 0x8D, 0x6A, 0x01] =
      .instr (.vpermwEvex128 ⟨false, .none⟩ 5 6 ⟨0, false⟩ (.mem (.based 2 (.d8 1)))) 7 ∧
    decode [0x62, 0xF2, 0xF5, 0x2A, 0x8D, 0x40, 0x01] =
      .instr (.vpermwEvex256 ⟨false, .none⟩ 0 1 ⟨2, false⟩ (.mem (.based 0 (.d8 1)))) 7 ∧
    decode [0x62, 0x92, 0x85, 0xC7, 0x8D, 0x44, 0xC8, 0xFF] =
      .instr (.vpermwEvex512 ⟨false, .none⟩ 0 31 ⟨7, true⟩ (.mem (.sib 8 (some 9) 3 (.d8 0xFF)))) 8

/-- The pattern of form 1 with L = 0, and the EVEX pattern with opcode 36H and L'L = 00b, raise #UD when the whole instruction can be
fetched; with opcode 8DH, L'L = 00b is form 4 (30_encoding.md R98, R99; 60_exceptions.md R191). -/
def Obligations.UnsupportedVectorLengthRaisesUd : Prop :=
  ∀ (run : List Byte) (p : Prefixes), admitPrefixes run = some p → ∀ (modrm : Byte) (tail : List Byte) (rm : RmOperand × Nat),
    (∀ b1 b2 op : Byte, vexPattern b1 b2 op = true → bitAt b2 2 = false →
      readRm modrm (!bitAt b1 6) (!bitAt b1 5) tail = some rm →
      StepRaisesUd (run ++ [0xC4, b1, b2, op, modrm] ++ tail)) ∧
    (∀ p0 p1 p2 : Byte, evexPattern p0 p1 0x36 = true → field p2 5 2 = 0 →
      readRm modrm (!bitAt p0 6) (!bitAt p0 5) tail = some rm →
      StepRaisesUd (run ++ [0x62, p0, p1, p2, 0x36, modrm] ++ tail)) ∧
    (∀ p0 p1 p2 : Byte, evexPattern p0 p1 0x8D = true →
      field p2 5 2 = 0 → bitAt p2 4 = false → (bitAt p2 7 = false ∨ field p2 0 3 ≠ 0) →
      readRm modrm (!bitAt p0 6) (!bitAt p0 5) tail = some rm →
      ∃ (i : Instr) (n : Nat), decode (run ++ [0x62, p0, p1, p2, 0x8D, modrm] ++ tail) = .instr i n ∧
        i.form = .evexW128)

/-- L'L = 11b with either opcode, and VEX.W = 1 at the pattern of form 1, raise #UD when the whole instruction can be fetched. Both are
decisions of the spec (30_encoding.md R100, D15; R104, D16), and VEX.W = 1 is in doubt on the chip (log 20). -/
def Obligations.ReservedLengthOrVexWRaisesUd : Prop :=
  ∀ (run : List Byte) (p : Prefixes), admitPrefixes run = some p → ∀ (modrm : Byte) (tail : List Byte) (rm : RmOperand × Nat),
    (∀ p0 p1 p2 op : Byte, evexPattern p0 p1 op = true → field p2 5 2 = 3 →
      readRm modrm (!bitAt p0 6) (!bitAt p0 5) tail = some rm →
      StepRaisesUd (run ++ [0x62, p0, p1, p2, op, modrm] ++ tail)) ∧
    (∀ b1 b2 op : Byte, vexPattern b1 b2 op = true → bitAt b2 7 = true →
      readRm modrm (!bitAt b1 6) (!bitAt b1 5) tail = some rm →
      StepRaisesUd (run ++ [0xC4, b1, b2, op, modrm] ++ tail))

/-- A wrong reserved bit of the EVEX prefix raises #UD, whatever the prefix run and the opcode are, when the whole instruction can be
fetched and has at most 15 bytes (30_encoding.md R103). That its bytes are those of R80's shape is the model's reading (log 6), that the
check goes before NotInScope and the refusal of prefix runs is R97's order (D11, log 19). -/
def Obligations.EvexReservedBitsRaiseUd : Prop :=
  ∀ (run : List Byte) (p0 p1 p2 op modrm : Byte) (tail : List Byte) (rm : RmOperand) (n : Nat),
    run.all isLegacyPrefix = true → readRm modrm (!bitAt p0 6) (!bitAt p0 5) tail = some (rm, n) →
    run.length + 6 + n ≤ 15 → (field p0 2 2 ≠ 0 ∨ bitAt p1 2 = false) →
    StepRaisesUd (run ++ [0x62, p0, p1, p2, op, modrm] ++ tail)

/-- EVEX.b = 1 selects the four-byte broadcast for VPERMD with a memory operand, and raises #UD for VPERMW and for every form with a
register operand 3 (30_encoding.md R101). -/
def Obligations.BroadcastBitSelectsBroadcastOrRaisesUd : Prop :=
  ∀ (run : List Byte) (p : Prefixes) (p0 p1 p2 op modrm : Byte) (tail : List Byte) (rm : RmOperand) (n : Nat),
    admitPrefixes run = some p → evexPattern p0 p1 op = true → bitAt p2 4 = true →
    readRm modrm (!bitAt p0 6) (!bitAt p0 5) tail = some (rm, n) →
    (field modrm 6 2 = 3 ∨ op = 0x8D → StepRaisesUd (run ++ [0x62, p0, p1, p2, op, modrm] ++ tail)) ∧
    (op = 0x36 → (field p2 5 2 = 1 ∨ field p2 5 2 = 2) → (bitAt p2 7 = false ∨ field p2 0 3 ≠ 0) →
      ∀ m : MemOp, rm = .mem m → ∃ (i : Instr) (len : Nat),
        decode (run ++ [0x62, p0, p1, p2, op, modrm] ++ tail) = .instr i len ∧ i.memAccess = some ⟨m, 4, 4⟩)

/-- EVEX.z = 1 with aaa = 000b raises #UD (30_encoding.md R102). -/
def Obligations.ZeroingWithoutWritemaskRaisesUd : Prop :=
  ∀ (run : List Byte) (p : Prefixes) (p0 p1 p2 op modrm : Byte) (tail : List Byte) (rm : RmOperand × Nat),
    admitPrefixes run = some p → evexPattern p0 p1 op = true → bitAt p2 7 = true → field p2 0 3 = 0 →
    readRm modrm (!bitAt p0 6) (!bitAt p0 5) tail = some rm →
    StepRaisesUd (run ++ [0x62, p0, p1, p2, op, modrm] ++ tail)

/-- A 66H, F2H, F3H, F0H or REX prefix before the VEX or EVEX pattern raises #UD when the whole instruction can be fetched and has at most
15 bytes (30_encoding.md R82, 60_exceptions.md R199). What the instruction's bytes are is the model's reading (log 6, 8). -/
def Obligations.ForbiddenLegacyPrefixRaisesUd : Prop :=
  ∀ run : List Byte, run.all isLegacyPrefix = true →
    (∃ b ∈ run, b = 0x66 ∨ b = 0xF2 ∨ b = 0xF3 ∨ b = 0xF0 ∨ (0x40 ≤ b.toNat ∧ b.toNat ≤ 0x4F)) →
    ∀ (modrm : Byte) (tail : List Byte) (rm : RmOperand) (n : Nat),
    (∀ b1 b2 op : Byte, vexPattern b1 b2 op = true →
      readRm modrm (!bitAt b1 6) (!bitAt b1 5) tail = some (rm, n) → run.length + 5 + n ≤ 15 →
      StepRaisesUd (run ++ [0xC4, b1, b2, op, modrm] ++ tail)) ∧
    (∀ p0 p1 p2 op : Byte, evexPattern p0 p1 op = true →
      readRm modrm (!bitAt p0 6) (!bitAt p0 5) tail = some (rm, n) → run.length + 6 + n ≤ 15 →
      StepRaisesUd (run ++ [0x62, p0, p1, p2, op, modrm] ++ tail))

/-- The admitted prefix runs are the empty one, 67H alone, 64H or 65H alone, and 67H with one of these in either order; 67H means 32-bit
address size, 64H the FS segment, 65H the GS segment. The bytes of an instruction after its own prefixes decode after any run of the same
meaning to that instruction, in either order of the run (30_encoding.md R82). -/
def Obligations.AdmittedPrefixRunsAreEight : Prop :=
  (∀ (run : List Byte) (p : Prefixes), admitPrefixes run = some p ↔
    (run, p) ∈ [([], ⟨false, .none⟩), ([0x67], ⟨true, .none⟩), ([0x64], ⟨false, .fs⟩), ([0x65], ⟨false, .gs⟩),
      ([0x67, 0x64], ⟨true, .fs⟩), ([0x64, 0x67], ⟨true, .fs⟩), ([0x67, 0x65], ⟨true, .gs⟩), ([0x65, 0x67], ⟨true, .gs⟩)]) ∧
    ∀ i : Instr, i.wf = true → ∀ run : List Byte, admitPrefixes run = some i.prefixes →
      ∀ rest : List Byte, decode (run ++ (encode i).drop i.prefixes.length ++ rest) = .instr i i.length

/-- A prefix run that repeats a prefix, holds both 64H and 65H, or holds 26H, 2EH, 36H or 3EH, and holds no forbidden prefix, is refused
before the VEX or EVEX pattern when the whole instruction can be fetched and has at most 15 bytes (30_encoding.md R82, 60_exceptions.md
R199). What the instruction's bytes are, and that the refusal comes after the length, is the model's reading (log 6, 8). -/
def Obligations.OtherPrefixRunsAreRefused : Prop :=
  ∀ run : List Byte, run.all isLegacyPrefix = true → run.any isForbiddenPrefix = false →
    (0x26 ∈ run ∨ 0x2E ∈ run ∨ 0x36 ∈ run ∨ 0x3E ∈ run ∨ (0x64 ∈ run ∧ 0x65 ∈ run) ∨ ¬run.Nodup) →
    ∀ (modrm : Byte) (tail : List Byte) (rm : RmOperand) (n : Nat),
    (∀ b1 b2 op : Byte, vexPattern b1 b2 op = true →
      readRm modrm (!bitAt b1 6) (!bitAt b1 5) tail = some (rm, n) → run.length + 5 + n ≤ 15 →
      StepOnBytes (run ++ [0xC4, b1, b2, op, modrm] ++ tail) fun _ => .refused .prefixRun) ∧
    (∀ p0 p1 p2 op : Byte, evexPattern p0 p1 op = true →
      readRm modrm (!bitAt p0 6) (!bitAt p0 5) tail = some (rm, n) → run.length + 6 + n ≤ 15 →
      StepOnBytes (run ++ [0x62, p0, p1, p2, op, modrm] ++ tail) fun _ => .refused .prefixRun)

/-- Neighbouring encodings, the two-byte VEX prefix, and bytes without a VEX or EVEX prefix are refused as not in scope, after prefixes
without bound: the procedure asks for the length of an instruction in scope alone (30_encoding.md R85, R97, R105). That the refusal goes
before the length after a long run is the model's reading of R97 (log 8). -/
def Obligations.NeighbouringEncodingsAreNotInScope : Prop :=
  ∀ run : List Byte, run.all isLegacyPrefix = true →
    (∀ b : Byte, isLegacyPrefix b = false → b ≠ 0xC4 → b ≠ 0x62 → StepOnBytes (run ++ [b]) fun _ => .refused .notInScope) ∧
    (∀ b1 b2 op : Byte, vexPattern b1 b2 op = false →
      StepOnBytes (run ++ [0xC4, b1, b2, op]) fun _ => .refused .notInScope) ∧
    (∀ p0 p1 p2 op : Byte, evexFixed p0 p1 = true → evexPattern p0 p1 op = false →
      StepOnBytes (run ++ [0x62, p0, p1, p2, op]) fun _ => .refused .notInScope)

/-- An instruction longer than 15 bytes raises #GP(0) when all its bytes can be fetched, those after the fifteenth too, and so does one
that has a #UD cause; no instruction of the admitted subset is longer than 13 (30_encoding.md R81, R97, 60_exceptions.md R199). A fault on
fetching any of its bytes goes first (`NonCanonicalFetchRaisesGp`, `PageFaultOnFetchIsRaised`, `RefusedFetches`). An instruction of more
than 15 bytes with a refused prefix run raises #GP(0) too: that the refusal comes after the length is the model's reading, unsafe, for
neither R199 nor R97 orders the two (log 8). What the bytes of an encoding with a #UD cause or a refused run are is its reading too
(log 6). -/
def Obligations.LongerThanFifteenBytesRaisesGp : Prop :=
  (∀ bytes : List Byte, decode bytes = .gpLen → StepOnBytes bytes fun s => .fault (.gp0 s.rip)) ∧
    (∀ (run : List Byte) (modrm : Byte) (tail : List Byte) (rm : RmOperand) (n : Nat), run.all isLegacyPrefix = true →
      (∀ b1 b2 op : Byte, vexPattern b1 b2 op = true → readRm modrm (!bitAt b1 6) (!bitAt b1 5) tail = some (rm, n) →
        run.length + 5 + n > 15 →
        StepOnBytes (run ++ [0xC4, b1, b2, op, modrm] ++ tail) fun s => .fault (.gp0 s.rip)) ∧
      (∀ p0 p1 p2 op : Byte, evexPattern p0 p1 op = true ∨ evexFixed p0 p1 = false →
        readRm modrm (!bitAt p0 6) (!bitAt p0 5) tail = some (rm, n) → run.length + 6 + n > 15 →
        StepOnBytes (run ++ [0x62, p0, p1, p2, op, modrm] ++ tail) fun s => .fault (.gp0 s.rip))) ∧
    ∀ (bs : List Byte) (i : Instr) (n : Nat), decode bs = .instr i n → n ≤ 13

/-! ## A step -/

/-- When bytes that decode to an instruction stand at `rip` and can be fetched, the step is its execution in the same state
(40_vpermd.md R148). -/
def Obligations.StepRunsTheDecodedInstruction : Prop :=
  ∀ (bytes : List Byte) (i : Instr) (n : Nat), decode bytes = .instr i n → StepOnBytes bytes fun s => exec i s

/-- When the encoding of a well-formed instruction stands at `rip` and can be fetched, the step is its execution in the same state
(40_vpermd.md R148, 20_memory.md R65, 70_reset_and_hazards.md R235). -/
def Obligations.StepRunsTheInstructionInMemory : Prop :=
  ∀ i : Instr, i.wf = true → StepOnBytes (encode i) fun s => exec i s

/-- Outside 64-bit mode the step and every meaning are refused (30_encoding.md R107). -/
def Obligations.OtherModesAreRefused : Prop :=
  ∀ s : State, s.mode64 = false → step s = .refused .mode ∧ ∀ i : Instr, exec i s = .refused .mode

/-- An instruction byte at a non-canonical address raises #GP(0): the first byte, or a later one that the decoder needs after bytes that can
be fetched, the sixteenth and later ones too (10_state.md R27, 60_exceptions.md R199). That only the bytes of the instruction count is the
model's reading (log 6, 7). -/
def Obligations.NonCanonicalFetchRaisesGp : Prop :=
  ∀ (s : State) (n : Nat), NeedsByte s n → s.rip.toNat + n < 2 ^ 64 →
    ¬IsCanonical s.cfg.vaBits.bits (s.rip.toNat + n) → step s = .fault (.gp0 s.rip)

/-- A page fault on the first byte that cannot be fetched and that the decoder still needs is raised, with the platform's code and that
byte's address, before the instruction's length counts: the sixteenth byte and later ones too (60_exceptions.md R197, R199). That it is the
first such byte, asked for alone, is the model's reading (log 6). -/
def Obligations.PageFaultOnFetchIsRaised : Prop :=
  ∀ (s : State) (n : Nat) (code : BitVec 32) (b : Fin 1), NeedsByte s n → s.rip.toNat + n < 2 ^ 64 →
    IsCanonical s.cfg.vaBits.bits (s.rip.toNat + n) →
    s.answer .fetch (s.rip.toNat + n) 1 = .pageFault code b →
    step s = .fault (.pf code (s.rip + BitVec.ofNat 64 n) s.rip)

/-! ## Selection -/

/-- Element `j` of the permutation is the element of the data that the low index bits of element `j` of the index vector name, and that
number is below the number of elements (40_vpermd.md R141). -/
def Obligations.PermuteTakesTheNamedElements : Prop :=
  ∀ q ∈ [(32, 8, 3), (32, 16, 4), (16, 8, 3), (16, 16, 4), (16, 32, 5)],
    ∀ (idx data : Vec q.1 q.2.1) (j : Nat), j < q.2.1 →
      elem q.1 (permute q.1 q.2.1 idx data) j = elem q.1 data (idx.extractLsb' (q.1 * j) q.2.2).toNat ∧
        (idx.extractLsb' (q.1 * j) q.2.2).toNat < q.2.1

/-- The 256-bit VPERMD permutation is the listing of the VEX form: each doubleword is the data shifted right by 32 times the index, cut
to 32 bits (40_vpermd.md R141, R142). -/
def Obligations.PermuteIsTheVexListing : Prop :=
  ∀ (src1 src2 : Vec 32 8) (j : Nat), j < 8 →
    elem 32 (permute 32 8 src1 src2) j =
      (src2 >>> ((src1.extractLsb' (32 * j) 3).toNat * 32)).setWidth 32

/-- Permuting a broadcast vector gives that vector, whatever the indices (20_memory.md R56, 40_vpermd.md R143). -/
def Obligations.PermuteOfABroadcastIsTheBroadcast : Prop :=
  ∀ (idx8 : Vec 32 8) (idx16 : Vec 32 16) (v : BitVec 32),
    permute 32 8 idx8 (replicate 32 8 v) = replicate 32 8 v ∧
      permute 32 16 idx16 (replicate 32 16 v) = replicate 32 16 v

/-! ## What each form computes -/

/-- Form 1 completes when it is enabled and its operand can be read; the destination holds the permuted doublewords and zeros above, and
`rip` advances (40_vpermd.md R142, R148; 10_state.md R23; 20_memory.md R55). -/
def Obligations.VpermdVex256PermutesDoublewords : Prop :=
  ∀ (p : Prefixes) (dest src1 : VReg16) (src2 : VexSrc) (s : State), Ready .vexD256 s = true →
    operandReadable (.vpermdVex256 p dest src1 src2) s = true →
    ∃ (data : Vec 32 8) (v : Zmm),
      exec (.vpermdVex256 p dest src1 src2) s =
          .next (s.withResult (dest.castLE (by decide)) v (s.rip + BitVec.ofNat 64 (Instr.vpermdVex256 p dest src1 src2).length)) ∧
        VexSrc.HasData p (Instr.vpermdVex256 p dest src1 src2).length s data src2 ∧
        (∀ j < 8, elem 32 v j =
          elem 32 data ((s.zmm.get (src1.castLE (by decide))).extractLsb' (32 * j) 3).toNat) ∧
        v.toNat < 2 ^ 256

/-- Form 2 completes when it is enabled and its operand can be read; the destination holds the permuted and masked doublewords and zeros
above, and `rip` advances (40_vpermd.md R143, R145, R148; 20_memory.md R55, R56; 10_state.md R23). -/
def Obligations.VpermdEvex256PermutesAndMasksDoublewords : Prop :=
  ∀ (p : Prefixes) (dest src1 : VReg) (wm : Writemask) (src2 : FullSrc) (s : State), Ready .evexD256 s = true →
    operandReadable (.vpermdEvex256 p dest src1 wm src2) s = true →
    ∃ (data : Vec 32 8) (v : Zmm),
      exec (.vpermdEvex256 p dest src1 wm src2) s =
          .next (s.withResult dest v (s.rip + BitVec.ofNat 64 (Instr.vpermdEvex256 p dest src1 wm src2).length)) ∧
        FullSrc.HasData 8 p (Instr.vpermdEvex256 p dest src1 wm src2).length s data src2 ∧
        (∀ j < 8, elem 32 v j = maskedElem 32 3 s dest src1 wm data j) ∧ v.toNat < 2 ^ 256

/-- Form 3 completes when it is enabled and its operand can be read; the destination holds the permuted and masked doublewords, and `rip`
advances (40_vpermd.md R144, R145, R148; 20_memory.md R55, R56). -/
def Obligations.VpermdEvex512PermutesAndMasksDoublewords : Prop :=
  ∀ (p : Prefixes) (dest src1 : VReg) (wm : Writemask) (src2 : FullSrc) (s : State), Ready .evexD512 s = true →
    operandReadable (.vpermdEvex512 p dest src1 wm src2) s = true →
    ∃ (data : Vec 32 16) (v : Zmm),
      exec (.vpermdEvex512 p dest src1 wm src2) s =
          .next (s.withResult dest v (s.rip + BitVec.ofNat 64 (Instr.vpermdEvex512 p dest src1 wm src2).length)) ∧
        FullSrc.HasData 16 p (Instr.vpermdEvex512 p dest src1 wm src2).length s data src2 ∧
        ∀ j < 16, elem 32 v j = maskedElem 32 4 s dest src1 wm data j

/-- Form 4 completes when it is enabled and its operand can be read; the destination holds the permuted and masked words and zeros above,
and `rip` advances (41_vpermw.md R170, R171; 40_vpermd.md R145, R148; 10_state.md R23). -/
def Obligations.VpermwEvex128PermutesAndMasksWords : Prop :=
  ∀ (p : Prefixes) (dest src1 : VReg) (wm : Writemask) (src2 : FullMemSrc) (s : State), Ready .evexW128 s = true →
    operandReadable (.vpermwEvex128 p dest src1 wm src2) s = true →
    ∃ (data : Vec 16 8) (v : Zmm),
      exec (.vpermwEvex128 p dest src1 wm src2) s =
          .next (s.withResult dest v (s.rip + BitVec.ofNat 64 (Instr.vpermwEvex128 p dest src1 wm src2).length)) ∧
        FullMemSrc.HasData 8 p (Instr.vpermwEvex128 p dest src1 wm src2).length s data src2 ∧
        (∀ j < 8, elem 16 v j = maskedElem 16 3 s dest src1 wm data j) ∧ v.toNat < 2 ^ 128

/-- Form 5 completes when it is enabled and its operand can be read; the destination holds the permuted and masked words and zeros above,
and `rip` advances (41_vpermw.md R170, R172; 40_vpermd.md R145, R148; 10_state.md R23). -/
def Obligations.VpermwEvex256PermutesAndMasksWords : Prop :=
  ∀ (p : Prefixes) (dest src1 : VReg) (wm : Writemask) (src2 : FullMemSrc) (s : State), Ready .evexW256 s = true →
    operandReadable (.vpermwEvex256 p dest src1 wm src2) s = true →
    ∃ (data : Vec 16 16) (v : Zmm),
      exec (.vpermwEvex256 p dest src1 wm src2) s =
          .next (s.withResult dest v (s.rip + BitVec.ofNat 64 (Instr.vpermwEvex256 p dest src1 wm src2).length)) ∧
        FullMemSrc.HasData 16 p (Instr.vpermwEvex256 p dest src1 wm src2).length s data src2 ∧
        (∀ j < 16, elem 16 v j = maskedElem 16 4 s dest src1 wm data j) ∧ v.toNat < 2 ^ 256

/-- Form 6 completes when it is enabled and its operand can be read; the destination holds the permuted and masked words, and `rip`
advances (41_vpermw.md R170, R173; 40_vpermd.md R145, R148). -/
def Obligations.VpermwEvex512PermutesAndMasksWords : Prop :=
  ∀ (p : Prefixes) (dest src1 : VReg) (wm : Writemask) (src2 : FullMemSrc) (s : State), Ready .evexW512 s = true →
    operandReadable (.vpermwEvex512 p dest src1 wm src2) s = true →
    ∃ (data : Vec 16 32) (v : Zmm),
      exec (.vpermwEvex512 p dest src1 wm src2) s =
          .next (s.withResult dest v (s.rip + BitVec.ofNat 64 (Instr.vpermwEvex512 p dest src1 wm src2).length)) ∧
        FullMemSrc.HasData 32 p (Instr.vpermwEvex512 p dest src1 wm src2).length s data src2 ∧
        ∀ j < 32, elem 16 v j = maskedElem 16 5 s dest src1 wm data j

/-- Form 2 without a writemask and form 1 on the same operand leave the same state but for one byte of length: on the same registers both
complete; on the same memory operand, whose address does not depend on the encoding, they also fault and refuse alike
(40_vpermd.md R146). -/
def Obligations.UnmaskedEvexEqualsVex : Prop :=
  ∀ (p : Prefixes) (dest src1 : VReg16) (s : State), Ready .vexD256 s = true → Ready .evexD256 s = true →
    (∀ r : VReg16, ∃ t u : State,
      exec (.vpermdVex256 p dest src1 (.reg r)) s = .next t ∧
        exec (.vpermdEvex256 p (dest.castLE (by decide)) (src1.castLE (by decide)) ⟨0, false⟩
            (.reg (r.castLE (by decide)))) s = .next u ∧
        u = { t with rip := t.rip + 1 }) ∧
    ∀ m : MemOp, MemOp.encodingFree m = true →
      exec (.vpermdEvex256 p (dest.castLE (by decide)) (src1.castLE (by decide)) ⟨0, false⟩ (.mem m)) s =
        mapNext (fun t => { t with rip := t.rip + 1 }) (exec (.vpermdVex256 p dest src1 (.mem m)) s)

/-- With identity indices, no mask, the destination as operand 3, and zeros above the vector length, each of the six forms changes only
`rip` (40_vpermd.md R149). -/
def Obligations.IdentityIndicesChangeOnlyRip : Prop :=
  ∀ (p : Prefixes) (s : State),
    (∀ d src1 : VReg16, Ready .vexD256 s = true → IdentityIndices 32 8 3 (s.zmm.get (src1.castLE (by decide))) →
      (s.zmm.get (d.castLE (by decide))).toNat < 2 ^ 256 →
      exec (.vpermdVex256 p d src1 (.reg d)) s = .next { s with rip := s.rip + BitVec.ofNat 64 (p.length + 5) }) ∧
    ∀ d src1 : VReg,
      (Ready .evexD256 s = true → IdentityIndices 32 8 3 (s.zmm.get src1) → (s.zmm.get d).toNat < 2 ^ 256 →
        exec (.vpermdEvex256 p d src1 ⟨0, false⟩ (.reg d)) s =
          .next { s with rip := s.rip + BitVec.ofNat 64 (p.length + 6) }) ∧
      (Ready .evexD512 s = true → IdentityIndices 32 16 4 (s.zmm.get src1) →
        exec (.vpermdEvex512 p d src1 ⟨0, false⟩ (.reg d)) s =
          .next { s with rip := s.rip + BitVec.ofNat 64 (p.length + 6) }) ∧
      (Ready .evexW128 s = true → IdentityIndices 16 8 3 (s.zmm.get src1) → (s.zmm.get d).toNat < 2 ^ 128 →
        exec (.vpermwEvex128 p d src1 ⟨0, false⟩ (.reg d)) s =
          .next { s with rip := s.rip + BitVec.ofNat 64 (p.length + 6) }) ∧
      (Ready .evexW256 s = true → IdentityIndices 16 16 4 (s.zmm.get src1) → (s.zmm.get d).toNat < 2 ^ 256 →
        exec (.vpermwEvex256 p d src1 ⟨0, false⟩ (.reg d)) s =
          .next { s with rip := s.rip + BitVec.ofNat 64 (p.length + 6) }) ∧
      (Ready .evexW512 s = true → IdentityIndices 16 32 5 (s.zmm.get src1) →
        exec (.vpermwEvex512 p d src1 ⟨0, false⟩ (.reg d)) s =
          .next { s with rip := s.rip + BitVec.ofNat 64 (p.length + 6) })

/-! ## What an instruction leaves alone -/

/-- The frame of all six forms: a completed instruction changes the destination register and `rip` and nothing else, and no byte of memory
(10_state.md R34, 20_memory.md R61). -/
def Obligations.CompletedInstructionChangesDestinationAndRip : Prop :=
  ∀ (i : Instr) (s t : State), exec i s = .next t →
    (∀ r : VReg, r ≠ i.dest → t.zmm.get r = s.zmm.get r) ∧ t.rip = s.rip + BitVec.ofNat 64 i.length ∧
      t.k = s.k ∧ t.gpr = s.gpr ∧ t.rflags = s.rflags ∧ t.mxcsr = s.mxcsr ∧ t.fsBase = s.fsBase ∧
      t.gsBase = s.gsBase ∧ t.csBase = s.csBase ∧ t.cr0 = s.cr0 ∧ t.cr2 = s.cr2 ∧ t.cr4 = s.cr4 ∧
      t.xcr0 = s.xcr0 ∧ t.lma = s.lma ∧ t.csL = s.csL ∧ t.cpl = s.cpl ∧ t.cfg = s.cfg ∧
      (∀ a : Nat, t.mem.get a = s.mem.get a) ∧ t.mem = s.mem

/-- The destination holds zeros at and above the vector length, whatever the mask (10_state.md R23). -/
def Obligations.DestinationIsZeroAboveTheVectorLength : Prop :=
  ∀ (i : Instr) (s t : State), exec i s = .next t →
    (t.zmm.get i.dest).toNat < 2 ^ (i.form.width * i.form.count)

/-- No form reads or writes RFLAGS or MXCSR (10_state.md R29, R32). A platform may answer by the whole state (20_memory.md R68, log 4), so
the accesses are taken to be answered alike, as they are on every platform of ranges. -/
def Obligations.FlagsAreNeitherReadNorWritten : Prop :=
  ∀ (i : Instr) (s : State),
    (∀ (x : BitVec 64) (y : BitVec 32), SameAccess s { s with rflags := x, mxcsr := y } →
      exec i { s with rflags := x, mxcsr := y } =
        mapNext (fun t => { t with rflags := x, mxcsr := y }) (exec i s)) ∧
      ∀ t, exec i s = .next t → t.rflags = s.rflags ∧ t.mxcsr = s.mxcsr

/-- Mask bits at and above the number of elements, and all of k0, are never read by a form (10_state.md R24, R25). The accesses are taken to
be answered alike (20_memory.md R68, log 4), as they are on every platform of ranges. -/
def Obligations.UnusedMaskBitsAreIgnored : Prop :=
  ∀ (i : Instr) (s : State) (k : Vector (BitVec 64) 8),
    (∀ a : Fin 8, a ≠ 0 → ∀ j < i.form.count, (k.get a).getLsbD j = (s.k.get a).getLsbD j) →
    SameAccess s { s with k := k } →
    exec i { s with k := k } = mapNext (fun t => { t with k := k }) (exec i s)

/-- A fault does not depend on the mask, the indices or any vector register: no fault suppression (20_memory.md R52,
60_exceptions.md R193). That the same byte is reported in CR2 rests on the platform answering alike, a premise here (20_memory.md R68,
log 4); on a platform of ranges it holds because `Config.faultByte` is applied to the operand and its faulting bytes only (log 5). -/
def Obligations.FaultsDoNotDependOnMaskOrVectors : Prop :=
  ∀ (i : Instr) (s : State) (f : Fault) (zmm : Vector Zmm 32) (k : Vector (BitVec 64) 8),
    SameAccess s { s with zmm := zmm, k := k } →
    exec i s = .fault f → exec i { s with zmm := zmm, k := k } = .fault f

/-- The privilege level acts only through `Access`: where the accesses are answered alike at two levels, an instruction and a step have the
same outcome with the level kept; where they are answered alike up to the U/S bit of a page fault's code, so are the outcomes; and a
platform whose ranges answer alike at the two levels answers so (60_exceptions.md R197, R205; the form of the ranges and of their codes
is the model's, log 4, 14). -/
def Obligations.PrivilegeActsOnlyThroughAccess : Prop :=
  ∀ (i : Instr) (s : State) (c : Fin 4),
    (SameAccess s { s with cpl := c } →
      exec i { s with cpl := c } = mapNext (fun t => { t with cpl := c }) (exec i s) ∧
        step { s with cpl := c } = mapNext (fun t => { t with cpl := c }) (step s)) ∧
    ((∀ (kind : AccessKind) (la n : Nat), AccessAnswer.clearUser (({ s with cpl := c } : State).answer kind la n) =
        AccessAnswer.clearUser (s.answer kind la n)) →
      outcomeClearUser (exec i { s with cpl := c }) =
          mapNext (fun t => { t with cpl := c }) (outcomeClearUser (exec i s)) ∧
        outcomeClearUser (step { s with cpl := c }) =
          mapNext (fun t => { t with cpl := c }) (outcomeClearUser (step s))) ∧
    ∀ map : List Region, s.cfg.platform = .ranges map →
      (∀ (kind : AccessKind) (a : Nat), regionAnswer map kind c a = regionAnswer map kind s.cpl a) →
      ∀ (kind : AccessKind) (la n : Nat), AccessAnswer.clearUser (({ s with cpl := c } : State).answer kind la n) =
        AccessAnswer.clearUser (s.answer kind la n)

/-! ## Exceptions -/

/-- A form whose feature flags are not all 1, or whose state the operating system has not enabled, raises #UD, whatever CR0.TS and the
operands are (30_encoding.md R106, 60_exceptions.md R195). -/
def Obligations.DisabledFormRaisesUd : Prop :=
  ∀ (i : Instr) (s : State), s.mode64 = true →
    (match i.form with
      | .vexD256 => s.cfg.hasAvx2 = false
      | .evexD256 => s.cfg.hasAvx512F = false ∨ s.cfg.hasAvx512VL = false
      | .evexD512 => s.cfg.hasAvx512F = false
      | .evexW128 => s.cfg.hasAvx512BW = false ∨ s.cfg.hasAvx512VL = false
      | .evexW256 => s.cfg.hasAvx512BW = false ∨ s.cfg.hasAvx512VL = false
      | .evexW512 => s.cfg.hasAvx512BW = false) ∨
      (s.cr4.getLsbD 18 = false ∨ s.xcr0.extractLsb' 1 2 ≠ 3 ∨ (i.form ≠ .vexD256 ∧ s.xcr0.extractLsb' 5 3 ≠ 7)) →
    exec i s = .fault (.ud s.rip)

/-- With CR0.TS set, a form that passes the #UD checks raises #NM before any operand is read (60_exceptions.md R198). -/
def Obligations.TaskSwitchedRaisesNm : Prop :=
  ∀ (i : Instr) (s : State), s.mode64 = true → Form.osEnabled i.form s = true → i.form.hasFeatures s.cfg = true →
    s.cr0.getLsbD 3 = true → exec i s = .fault (.nm s.rip)

/-- A memory operand with a byte at a non-canonical address raises #SS(0) when the access uses the SS segment and #GP(0) otherwise
(60_exceptions.md R196). -/
def Obligations.NonCanonicalOperandRaisesSsOrGp : Prop :=
  ∀ (i : Instr) (a : MemAccess) (s : State), i.memAccess = some a → Ready i.form s = true →
    (operandAddress i a s).toNat + a.n ≤ 2 ^ 64 →
    (∃ b < a.n, ¬IsCanonical s.cfg.vaBits.bits ((operandAddress i a s).toNat + b)) →
    exec i s = .fault (if usesStackSegment i a.m then .ss0 s.rip else .gp0 s.rip)

/-- A canonical memory operand for which `Access` answers a page fault raises #PF with the platform's code and the address of the byte it
names (60_exceptions.md R197, 20_memory.md R68, R69). On a platform of ranges with a byte that page-faults, the byte named is one of
these, whatever other bytes are refused (log 13), and the code's bits 0 to 5 are P, 0, U/S, RSVD, 0, PK and the rest 0; which byte is
free (log 5), and the form of the ranges is the model's (log 4, 14). -/
def Obligations.PageFaultOnOperandIsRaised : Prop :=
  ∀ (i : Instr) (a : MemAccess) (s : State), i.memAccess = some a → Ready i.form s = true →
    (operandAddress i a s).toNat + a.n ≤ 2 ^ 64 →
    (∀ b < a.n, IsCanonical s.cfg.vaBits.bits ((operandAddress i a s).toNat + b)) →
    (∀ (code : BitVec 32) (b : Fin a.n), s.answer .read (operandAddress i a s).toNat a.n = .pageFault code b →
      exec i s = .fault (.pf code (operandAddress i a s + BitVec.ofNat 64 b.val) s.rip)) ∧
    ∀ map : List Region, s.cfg.platform = .ranges map →
      (∃ b < a.n, ∃ c, regionAnswer map .read s.cpl ((operandAddress i a s).toNat + b) = some (.pageFault c)) →
      ∃ (b : Nat) (c : PageFaultCause) (code : BitVec 32), b < a.n ∧
        regionAnswer map .read s.cpl ((operandAddress i a s).toNat + b) = some (.pageFault c) ∧
        exec i s = .fault (.pf code (operandAddress i a s + BitVec.ofNat 64 b) s.rip) ∧
        code.getLsbD 0 = c.present ∧ code.getLsbD 1 = false ∧ code.getLsbD 2 = decide (s.cpl = 3) ∧
        code.getLsbD 3 = c.reserved ∧ code.getLsbD 4 = false ∧ code.getLsbD 5 = c.protectionKey ∧ code.toNat < 64

/-- A memory operand that wraps past the top of the address space is refused, and so is a canonical one for which `Access` answers a refusal:
memory whose reads have side effects, or no memory (20_memory.md R55, R59, R68). On a platform of ranges that is an operand with no byte
that page-faults and with a byte that is refused, the first of which gives the reason (the order is the model's, log 13). -/
def Obligations.WrappingAndDeviceOperandsAreRefused : Prop :=
  ∀ (i : Instr) (a : MemAccess) (s : State), i.memAccess = some a → Ready i.form s = true →
    ((operandAddress i a s).toNat + a.n > 2 ^ 64 → exec i s = .refused .wrap) ∧
    ((operandAddress i a s).toNat + a.n ≤ 2 ^ 64 →
      (∀ b < a.n, IsCanonical s.cfg.vaBits.bits ((operandAddress i a s).toNat + b)) →
      (s.answer .read (operandAddress i a s).toNat a.n = .refused .sideEffects → exec i s = .refused .sideEffects) ∧
      (s.answer .read (operandAddress i a s).toNat a.n = .refused .unallocated → exec i s = .refused .unallocated) ∧
      ∀ (map : List Region) (b : Nat) (r : AccessRefusal), s.cfg.platform = .ranges map → b < a.n →
        (∀ d < a.n, ∀ c, regionAnswer map .read s.cpl ((operandAddress i a s).toNat + d) ≠ some (.pageFault c)) →
        regionAnswer map .read s.cpl ((operandAddress i a s).toNat + b) = some (.refused r) →
        (∀ d < b, regionAnswer map .read s.cpl ((operandAddress i a s).toNat + d) = none) →
        exec i s = .refused (match r with
          | .sideEffects => .sideEffects
          | .unallocated => .unallocated))

/-- Every fault of a step names the instruction's first byte and is one of the five exceptions with its vector number, error code and
recorded address; a page fault's code and address are the ones `Access` answered, and on a platform of ranges the code's bits are those
of 60_exceptions.md R197 as the model puts them together (log 14). The state a fault leaves, `State.afterFault` (log 9), differs from the
old one in CR2 at most (60_exceptions.md R190, R197, R200, R201). -/
def Obligations.FaultsArePrecise : Prop :=
  ∀ (s : State) (f : Fault), step s = .fault f →
    f.rip = s.rip ∧ s.afterFault f = { s with cr2 := f.cr2.getD s.cr2 } ∧
      ((f.vector = 6 ∧ f.errorCode = none ∧ f.cr2 = none) ∨ (f.vector = 7 ∧ f.errorCode = none ∧ f.cr2 = none) ∨
        (f.vector = 12 ∧ f.errorCode = some 0 ∧ f.cr2 = none) ∨
        (f.vector = 13 ∧ f.errorCode = some 0 ∧ f.cr2 = none) ∨
        ∃ (code : BitVec 32) (kind : AccessKind) (la n : Nat) (b : Fin n),
          s.answer kind la n = .pageFault code b ∧ f = .pf code (BitVec.ofNat 64 (la + b.val)) s.rip ∧
          f.vector = 14 ∧ f.errorCode = some code ∧ f.cr2 = some (BitVec.ofNat 64 (la + b.val)) ∧
          ∀ map : List Region, s.cfg.platform = .ranges map →
            code.getLsbD 1 = false ∧ code.getLsbD 2 = decide (s.cpl = 3) ∧ code.toNat < 64)

/-! ## Addresses -/

/-- The effective address is the sum of base, scaled index and displacement, modulo 2^64, or modulo 2^32 under 67H
(20_memory.md R53, 30_encoding.md R91). -/
def Obligations.EffectiveAddressIsTheModularSum : Prop :=
  ∀ (p : Prefixes) (N len : Nat) (m : MemOp) (s : State),
    ((effectiveAddress p N len m s).toNat : Int) = addressSum N len s m % 2 ^ (if p.addr32 then 32 else 64)

/-- The linear address adds the FS base under 64H, the GS base under 65H, and nothing otherwise, modulo 2^64 (20_memory.md R54). -/
def Obligations.LinearAddressAddsTheSegmentBase : Prop :=
  ∀ (p : Prefixes) (N len : Nat) (m : MemOp) (s : State),
    (linearAddress p N len m s).toNat =
      ((match p.seg with
        | .none => 0
        | .fs => s.fsBase.toNat
        | .gs => s.gsBase.toNat) + (effectiveAddress p N len m s).toNat) % 2 ^ 64

/-! ## Reset and boot -/

/-- What reset leaves: the values R36 lists as known of the family, the default configuration of R7, no byte listed (10_state.md R36,
00_scope.md R7). The values are the model's (log 1, 3). -/
def Obligations.ResetState : Prop :=
  (∀ r : VReg, State.reset.zmm.get r = 0) ∧ (∀ a : Fin 8, State.reset.k.get a = 0) ∧
    (∀ r : Gpr, State.reset.gpr.get r = if r = 2 then 0x50654 else 0) ∧
    State.reset.rip = 0xFFF0 ∧ State.reset.rflags = 2 ∧ State.reset.mxcsr = 0x1F80 ∧
    State.reset.fsBase = 0 ∧ State.reset.gsBase = 0 ∧ State.reset.csBase = 0xFFFF0000 ∧
    State.reset.cr0 = 0x60000010 ∧ State.reset.cr4 = 0 ∧ State.reset.xcr0 = 1 ∧
    State.reset.mode64 = false ∧ (∀ a : Nat, State.reset.mem.get a = 0) ∧
    State.reset.cfg.hasAvx2 = true ∧ State.reset.cfg.hasAvx512F = true ∧ State.reset.cfg.hasAvx512VL = true ∧
    State.reset.cfg.hasAvx512BW = true ∧ State.reset.cfg.maxvl = 512 ∧ State.reset.cfg.vaBits = .va48

/-- At reset the step and every meaning are refused for the mode, as outside 64-bit mode everywhere (30_encoding.md R107). That reset leaves
another mode is the model's reset values (log 1), and that a meaning by itself refuses is the model's choice (log 10). The spec does
not model reset; it says that the processor then is in real-address mode, where a form raises #UD (10_state.md R36). -/
def Obligations.NoFormExecutesAtReset : Prop :=
  step State.reset = .refused .mode ∧ ∀ i : Instr, exec i State.reset = .refused .mode

/-- After the boot steps every form whose features the processor has may execute (70_reset_and_hazards.md R231; which bits the steps set on
which processor is in part the model's, log 16). -/
def Obligations.BootMakesEveryFormReady : Prop :=
  ∀ (s : State) (f : Form), f.hasFeatures s.cfg = true → Ready f s.boot = true

/-! ## Invariants and runs -/

/-- The state after reset satisfies the invariant (10_state.md R20, R24; log 1, 3, 11). -/
def Obligations.ResetSatisfiesTheInvariant : Prop := State.reset.Inv

/-- Every step keeps the invariant: memory in canonical form, registers within `MAXVL`, `NVREG` and `KWIDTH` (10_state.md R20 to R24;
log 11). -/
def Obligations.StepKeepsTheInvariant : Prop :=
  ∀ s t : State, s.Inv → step s = .next t → t.Inv

/-- No step writes memory (20_memory.md R61). -/
def Obligations.StepWritesNoMemory : Prop :=
  ∀ s t : State, step s = .next t → t.mem = s.mem ∧ ∀ a : Nat, t.mem.get a = s.mem.get a

/-- A completed step changes one vector register, within `MAXVL`, and adds 5 to 13 to `rip` (10_state.md R34, 30_encoding.md R81,
70_reset_and_hazards.md R235). -/
def Obligations.StepChangesOneRegisterAndAdvances : Prop :=
  ∀ s t : State, step s = .next t →
    ∃ (d : VReg) (v : Zmm) (n : Nat), 5 ≤ n ∧ n ≤ 13 ∧ v.toNat < 2 ^ s.cfg.maxvl ∧
      t = s.withResult d v (s.rip + BitVec.ofNat 64 n)

/-- At the end of a run everything but the vector registers and `rip` is as at its start, memory included (20_memory.md R62,
70_reset_and_hazards.md R235). -/
def Obligations.RunChangesOnlyVectorRegistersAndRip : Prop :=
  ∀ (endAddr : Addr) (n : Nat) (s t : State), runTo endAddr n s = .final t →
    t = { s with zmm := t.zmm, rip := endAddr }

/-- No run is infinite: from every state it reaches its end address, faults or is refused (70_reset_and_hazards.md R235). -/
def Obligations.EveryRunEnds : Prop :=
  ∀ (endAddr : Addr) (s : State), ∃ n : Nat, ∀ t : State, runTo endAddr n s ≠ .running t

/-! ## Fetches that are refused, platforms, and memory -/

/-- A byte that the decoder needs, in whatever place of the instruction, past the top of the address space is refused (10_state.md R27, D21;
log 7), and so is a canonical one for which `Access` answers a refusal (20_memory.md R59, R65, R68; log 23). -/
def Obligations.RefusedFetches : Prop :=
  ∀ (s : State) (n : Nat), NeedsByte s n →
    (2 ^ 64 ≤ s.rip.toNat + n → step s = .refused .codeWrap) ∧
    (s.rip.toNat + n < 2 ^ 64 → IsCanonical s.cfg.vaBits.bits (s.rip.toNat + n) →
      (s.answer .fetch (s.rip.toNat + n) 1 = .refused .sideEffects → step s = .refused .sideEffects) ∧
      (s.answer .fetch (s.rip.toNat + n) 1 = .refused .unallocated → step s = .refused .unallocated))

/-- The decoder reads an instruction whole before it judges it: no proper part of the bytes of an encoding in scope, or of an EVEX prefix
with wrong reserved bits, has a result, whatever #UD causes and prefixes it holds. So a fault on fetching any of these bytes goes before
the length, and the length before #UD (60_exceptions.md R199). What bytes such an encoding has is the model's reading of R80 (log 6). -/
def Obligations.InstructionsAreReadWhole : Prop :=
  ∀ (run : List Byte) (modrm : Byte) (tail : List Byte) (rm : RmOperand) (n : Nat), run.all isLegacyPrefix = true →
    (∀ b1 b2 op : Byte, vexPattern b1 b2 op = true → readRm modrm (!bitAt b1 6) (!bitAt b1 5) tail = some (rm, n) →
      ∀ k < run.length + 5 + n, decode ((run ++ [0xC4, b1, b2, op, modrm] ++ tail).take k) = .truncated) ∧
    (∀ p0 p1 p2 op : Byte, evexPattern p0 p1 op = true ∨ evexFixed p0 p1 = false →
      readRm modrm (!bitAt p0 6) (!bitAt p0 5) tail = some (rm, n) →
      ∀ k < run.length + 6 + n, decode ((run ++ [0x62, p0, p1, p2, op, modrm] ++ tail).take k) = .truncated)

/-- A platform of ranges answers for bytes that no range covers with the bytes of memory, and its answers depend on nothing but the ranges,
memory and the privilege level; with no range it is flat RAM without faults (20_memory.md R65, R68, D8; the form is the model's, log 4). -/
def Obligations.RangesReadMemory : Prop :=
  ∀ (s : State) (map : List Region), s.cfg.platform = .ranges map →
    (∀ (kind : AccessKind) (la n : Nat), (∀ b < n, regionAnswer map kind s.cpl (la + b) = none) →
      s.answer kind la n = .ok (Vector.ofFn fun b => s.mem.get (la + b.val))) ∧
    (∀ t : State, t.cfg.platform = s.cfg.platform → t.mem = s.mem → t.cpl = s.cpl → SameAccess s t) ∧
    (map = [] → ∀ (kind : AccessKind) (la n : Nat), ∃ bytes : Vector Byte n, s.answer kind la n = .ok bytes)

/-- On every platform a load and a fetch return the bytes of the one memory, at their linear addresses, so loads of different widths agree
on the bytes they share, doubleword 3 of a 64-byte operand and a four-byte read 12 bytes on among them (20_memory.md R50, R51, R55, R62,
R65). -/
def Obligations.LoadsAndFetchesReadOneMemory : Prop :=
  ∀ (s : State) (seg : Segment) (la : Addr) (n : Nat) (v : BitVec (8 * n)), memRead seg la n s = .ok v →
    BytesFrom v n la.toNat s ∧
    (∀ (seg' : Segment) (d m : Nat) (w : BitVec (8 * m)), d + m ≤ n → memRead seg' (la + BitVec.ofNat 64 d) m s = .ok w →
      w = v.extractLsb' (8 * d) (8 * m)) ∧
    ∀ b < n, ∀ x : Byte, fetchByte (la.toNat + b) s = .ok x → x = elem 8 v b

/-- In every state of a run from a clean launch memory is the launch's, `Access` answers as at the launch, and the same code stands at the
same addresses (70_reset_and_hazards.md R235, 20_memory.md R62, R65). That the platform does not decide by what a run changes is a premise
of a clean launch in the model (log 4), and so is that its code, as the model takes it, crosses no canonical boundary (log 29). -/
def Obligations.RunReadsTheLaunchMemory : Prop :=
  ∀ (l : Launch) (n : Nat), l.Clean →
    (l.run n).state.mem = l.state0.mem ∧ (l.run n).state.cfg = l.state0.cfg ∧ SameAccess l.state0 (l.run n).state ∧
      ∀ (a : Nat) (bytes : List Byte), CodeAt a bytes (l.run n).state = CodeAt a bytes l.state0
end

