-- ==== Sys2Proof/Laws/Decode.lean ====
section
/-! SUPPORT. Small laws of the encoding: register numbers and displacements read back, prefix runs split off, lengths. -/

namespace Sys2Proof

/-! ## Register numbers -/

theorem reg4_regBit_low3 (r : Fin 16) : reg4 (regBit r 3) (low3 r) = r := by revert r; decide

theorem reg5_regBit_low3 (r : Fin 32) : reg5 (regBit r 4) (regBit r 3) (low3 r) = r := by revert r; decide

theorem regBit_four_of_fin16 (r : Fin 16) : regBit r 4 = false := by revert r; decide

theorem toFin_ofNat4 (r : Fin 16) : (BitVec.ofNat 4 r.val).toFin = r := by revert r; decide

theorem toFin_regBit_ofNat4 (r : Fin 32) : (BitVec.ofBool (regBit r 4) ++ BitVec.ofNat 4 r.val).toFin = r := by
  revert r; decide

theorem toFin_ofNat3 (a : Fin 8) : (BitVec.ofNat 3 a.val).toFin = a := by revert a; decide

/-- The index field reads back, except number 4, which is no index. -/
theorem sibIndex_indexNumber (index : Option Gpr) (h : Gpr.wfIndex index = true) :
    sibIndex (regBit (indexNumber index) 3) (low3 (indexNumber index)) = index := by
  revert h
  cases index with
  | none => decide
  | some r => revert r; decide

/-- A SIB index is never number 4. -/
theorem wfIndex_sibIndex (x : Bool) (idx : BitVec 3) : Gpr.wfIndex (sibIndex x idx) = true := by
  cases x <;> revert idx <;> decide

/-! ## Displacements -/

theorem readDisp32_le32 (v : BitVec 32) (rest : List Byte) : readDisp32 (le32 v ++ rest) = some v := by
  simp only [le32, List.cons_append, List.nil_append, readDisp32, Option.some.injEq]
  apply BitVec.eq_of_getLsbD_eq
  intro i hi
  simp only [BitVec.getLsbD_append, BitVec.getLsbD_extractLsb']
  rcases (by omega : i < 8 ∨ (8 ≤ i ∧ i < 16) ∨ (16 ≤ i ∧ i < 24) ∨ 24 ≤ i) with h | h | h | h
  · simp [h]
  · simp [show ¬i < 8 by omega, show i - 8 < 8 by omega, show 8 + (i - 8) = i by omega]
  · simp [show ¬i < 8 by omega, show ¬i - 8 < 8 by omega, show i - 8 - 8 < 8 by omega,
      show 16 + (i - 8 - 8) = i by omega]
  · simp [show ¬i < 8 by omega, show ¬i - 8 < 8 by omega, show ¬i - 8 - 8 < 8 by omega,
      show i - 8 - 8 - 8 < 8 by omega, show 24 + (i - 8 - 8 - 8) = i by omega]

theorem readDisp_bytes (d : Disp) (rest : List Byte) :
    readDisp d.modBits (d.bytes ++ rest) = some (d, d.bytes.length) := by
  cases d with
  | none => rfl
  | d8 v => rfl
  | d32 v =>
    simp only [readDisp, Disp.modBits, Disp.bytes, readDisp32_le32]
    rfl

theorem Disp.bytes_length (d : Disp) : d.bytes.length = d.length := by
  cases d <;> rfl

theorem MemOp.bits_tail_length (m : MemOp) : m.bits.tail.length = m.length := by
  cases m with
  | based b d => exact d.bytes_length
  | ripRel d => rfl
  | sib b i ss d => simp [MemOp.bits, MemOp.length, d.bytes_length, Nat.add_comm]
  | sibNoBase i ss d => rfl

/-! ## Prefix runs -/

theorem Prefixes.bytes_length (p : Prefixes) : p.bytes.length = p.length := by
  obtain ⟨a, seg⟩ := p
  cases a <;> cases seg <;> rfl

theorem admitPrefixes_bytes (p : Prefixes) : admitPrefixes p.bytes = some p := by
  obtain ⟨a, seg⟩ := p
  cases a <;> cases seg <;> decide

theorem Prefixes.bytes_legacy (p : Prefixes) : p.bytes.all isLegacyPrefix = true := by
  obtain ⟨a, seg⟩ := p
  cases a <;> cases seg <;> decide

/-- A run of legacy prefixes before another byte is split off whole. -/
theorem splitPrefixes_append (run : List Byte) (h : run.all isLegacyPrefix = true) (b : Byte)
    (hb : isLegacyPrefix b = false) (rest : List Byte) :
    splitPrefixes (run ++ b :: rest) = (run, b :: rest) := by
  induction run with
  | nil => simp [splitPrefixes, hb]
  | cons a run ih =>
    simp only [List.all_cons, Bool.and_eq_true] at h
    simp [splitPrefixes, h.1, ih h.2]

/-- The run that is split off holds legacy prefixes only. -/
theorem splitPrefixes_legacy (bs : List Byte) : (splitPrefixes bs).1.all isLegacyPrefix = true := by
  induction bs with
  | nil => rfl
  | cons b bs ih =>
    unfold splitPrefixes
    split
    next h => simp only [List.all_cons, h, ih, Bool.and_self]
    next h => rfl

/-- The run and the bytes after it are the bytes. -/
theorem splitPrefixes_fst_append_snd (bs : List Byte) : (splitPrefixes bs).1 ++ (splitPrefixes bs).2 = bs := by
  induction bs with
  | nil => rfl
  | cons b bs ih =>
    unfold splitPrefixes
    split
    · simp [ih]
    · rfl

/-! ## More bytes -/

theorem readDisp32_append {bs : List Byte} {v : BitVec 32} (h : readDisp32 bs = some v) (rest : List Byte) :
    readDisp32 (bs ++ rest) = some v := by
  match bs, h with
  | _ :: _ :: _ :: _ :: _, h => exact h

theorem readDisp_append {mod : BitVec 2} {bs : List Byte} {x : Disp × Nat} (h : readDisp mod bs = some x)
    (rest : List Byte) : readDisp mod (bs ++ rest) = some x := by
  unfold readDisp at h ⊢
  split at h
  next h0 => rw [if_pos h0]; exact h
  next h0 =>
    rw [if_neg h0]
    split at h
    next h1 =>
      rw [if_pos h1]
      match bs, h with
      | _ :: _, h => exact h
    next h1 =>
      rw [if_neg h1]
      obtain ⟨v, hv, hx⟩ := Option.map_eq_some_iff.mp h
      rw [readDisp32_append hv, Option.map_some, hx]

/-- Operand 3 is read from the same bytes whatever follows them. -/
theorem readRm_append {modrm : Byte} {x b : Bool} {bs : List Byte} {r : RmOperand × Nat}
    (h : readRm modrm x b bs = some r) (rest : List Byte) : readRm modrm x b (bs ++ rest) = some r := by
  unfold readRm at h ⊢
  split at h
  next h0 => rw [if_pos h0]; exact h
  next h0 =>
    rw [if_neg h0]
    split at h
    next h1 =>
      rw [if_pos h1]
      unfold readSib at h ⊢
      match bs, h with
      | sib :: bs, h =>
        simp only [List.cons_append] at h ⊢
        split at h
        next h2 =>
          rw [if_pos h2]
          obtain ⟨v, hv, hx⟩ := Option.map_eq_some_iff.mp h
          rw [readDisp32_append hv, Option.map_some, hx]
        next h2 =>
          rw [if_neg h2]
          obtain ⟨v, hv, hx⟩ := Option.map_eq_some_iff.mp h
          rw [readDisp_append hv, Option.map_some, hx]
    next h1 =>
      rw [if_neg h1]
      split at h
      next h2 =>
        rw [if_pos h2]
        obtain ⟨v, hv, hx⟩ := Option.map_eq_some_iff.mp h
        rw [readDisp32_append hv, Option.map_some, hx]
      next h2 =>
        rw [if_neg h2]
        obtain ⟨v, hv, hx⟩ := Option.map_eq_some_iff.mp h
        rw [readDisp_append hv, Option.map_some, hx]

theorem splitPrefixes_append_of_ne_nil {bs : List Byte} (h : (splitPrefixes bs).2 ≠ []) (rest : List Byte) :
    splitPrefixes (bs ++ rest) = ((splitPrefixes bs).1, (splitPrefixes bs).2 ++ rest) := by
  induction bs with
  | nil => exact absurd rfl h
  | cons b bs ih =>
    unfold splitPrefixes at h ⊢
    simp only [List.cons_append]
    split at h
    next hb => rw [if_pos hb, if_pos hb, ih h]
    next hb => rw [if_neg hb, if_neg hb]; rfl

/-- Reading the rest of an instruction is judged the same whatever bytes follow it. -/
theorem readOperand_append {before : Nat} {x b : Bool} {bs : List Byte} {judge : Byte → RmOperand → Nat → Decoded}
    (h : readOperand before x b bs judge ≠ .truncated) (rest : List Byte) :
    readOperand before x b (bs ++ rest) judge = readOperand before x b bs judge := by
  revert h
  unfold readOperand
  cases bs with
  | nil => intro h; exact absurd rfl h
  | cons modrm bs =>
    simp only [List.cons_append]
    cases hr : readRm modrm x b bs with
    | none => intro h; exact absurd rfl h
    | some r => intro _; rw [readRm_append hr]

/-- An instruction that is read whole is judged by its length first (60_exceptions.md R199). -/
theorem readOperand_of_readRm {before : Nat} {x b : Bool} {modrm : Byte} {tail : List Byte} {rm : RmOperand} {n : Nat}
    (h : readRm modrm x b tail = some (rm, n)) (judge : Byte → RmOperand → Nat → Decoded) :
    readOperand before x b (modrm :: tail) judge =
      if before + 1 + n > 15 then .gpLen else judge modrm rm (before + 1 + n) := by
  unfold readOperand
  simp only [h]
  rfl

theorem decodeVex_append {run : List Byte} {b1 b2 op : Byte} {bs : List Byte} (h : decodeVex run b1 b2 op bs ≠ .truncated)
    (rest : List Byte) : decodeVex run b1 b2 op (bs ++ rest) = decodeVex run b1 b2 op bs := by
  revert h
  unfold decodeVex
  split
  · intro; rfl
  · exact fun h => readOperand_append h rest

theorem decodeEvex_append {run : List Byte} {p0 p1 p2 op : Byte} {bs : List Byte}
    (h : decodeEvex run p0 p1 p2 op bs ≠ .truncated) (rest : List Byte) :
    decodeEvex run p0 p1 p2 op (bs ++ rest) = decodeEvex run p0 p1 p2 op bs := by
  revert h
  unfold decodeEvex
  split
  · intro; rfl
  · exact fun h => readOperand_append h rest

/-- Bytes after those that settle the decode result change nothing (30_encoding.md R97). -/
theorem decode_append {bs : List Byte} (h : decode bs ≠ .truncated) (rest : List Byte) :
    decode (bs ++ rest) = decode bs := by
  unfold decode at h ⊢
  have hne : (splitPrefixes bs).2 ≠ [] := fun e => h (by rw [e]; rfl)
  rw [splitPrefixes_append_of_ne_nil hne]
  generalize (splitPrefixes bs).1 = run at h ⊢
  generalize (splitPrefixes bs).2 = body at h hne ⊢
  revert h
  match body, hne with
  | b0 :: body, _ =>
    simp only [List.cons_append, decodeBody]
    split
    · match body with
      | b1 :: b2 :: op :: body => exact fun h => decodeVex_append h rest
      | [] => exact fun h => absurd rfl h
      | [_] => exact fun h => absurd rfl h
      | [_, _] => exact fun h => absurd rfl h
    · split
      · match body with
        | p0 :: p1 :: p2 :: op :: body => exact fun h => decodeEvex_append h rest
        | [] => exact fun h => absurd rfl h
        | [_] => exact fun h => absurd rfl h
        | [_, _] => exact fun h => absurd rfl h
        | [_, _, _] => exact fun h => absurd rfl h
      · exact fun _ => rfl

/-- The bytes after a prefix run and C4H. -/
theorem decode_vex {run : List Byte} (h : run.all isLegacyPrefix = true) (b1 b2 op : Byte) (rest : List Byte) :
    decode (run ++ 0xC4 :: b1 :: b2 :: op :: rest) = decodeVex run b1 b2 op rest := by
  unfold decode
  rw [splitPrefixes_append run h _ (by decide)]
  rfl

/-- The bytes after a prefix run and 62H. -/
theorem decode_evex {run : List Byte} (h : run.all isLegacyPrefix = true) (p0 p1 p2 op : Byte) (rest : List Byte) :
    decode (run ++ 0x62 :: p0 :: p1 :: p2 :: op :: rest) = decodeEvex run p0 p1 p2 op rest := by
  unfold decode
  rw [splitPrefixes_append run h _ (by decide)]
  rfl

/-! ## No more bytes, and no fewer -/

theorem readDisp32_take {bs : List Byte} {v : BitVec 32} (h : readDisp32 bs = some v) :
    4 ≤ bs.length ∧ readDisp32 (bs.take 4) = some v ∧ ∀ k < 4, readDisp32 (bs.take k) = none := by
  match bs, h with
  | a :: b :: c :: d :: bs, h =>
    refine ⟨by simp, h, fun k hk => ?_⟩
    match k, hk with
    | 0, _ => rfl
    | 1, _ => rfl
    | 2, _ => rfl
    | 3, _ => rfl

theorem readDisp_take {mod : BitVec 2} {bs : List Byte} {d : Disp × Nat} (h : readDisp mod bs = some d) :
    d.2 ≤ bs.length ∧ readDisp mod (bs.take d.2) = some d ∧ ∀ k < d.2, readDisp mod (bs.take k) = none := by
  unfold readDisp at h ⊢
  split at h
  next h0 =>
    cases h
    exact ⟨Nat.zero_le _, by rw [if_pos h0], fun k hk => absurd hk (Nat.not_lt_zero _)⟩
  next h0 =>
    rw [if_neg h0]
    split at h
    next h1 =>
      match bs, h with
      | b :: bs, h =>
        cases h
        refine ⟨by simp, by rw [if_pos h1]; rfl, fun k hk => ?_⟩
        obtain rfl : k = 0 := Nat.lt_one_iff.mp hk
        rw [if_neg h0, if_pos h1]
        rfl
    next h1 =>
      obtain ⟨v, hv, rfl⟩ := Option.map_eq_some_iff.mp h
      obtain ⟨q1, q2, q3⟩ := readDisp32_take hv
      refine ⟨q1, by rw [if_neg h1, q2]; rfl, fun k hk => ?_⟩
      rw [if_neg h0, if_neg h1, q3 k hk]
      rfl

theorem readSib_take {mod : BitVec 2} {x b : Bool} {bs : List Byte} {r : RmOperand × Nat} (h : readSib mod x b bs = some r) :
    r.2 ≤ bs.length ∧ readSib mod x b (bs.take r.2) = some r ∧ ∀ k < r.2, readSib mod x b (bs.take k) = none := by
  match bs, h with
  | sib :: bs, h =>
    unfold readSib at h
    dsimp only at h
    split at h
    next h2 =>
      obtain ⟨v, hv, rfl⟩ := Option.map_eq_some_iff.mp h
      obtain ⟨q1, q2, q3⟩ := readDisp32_take hv
      refine ⟨by simpa using q1, ?_, fun k hk => ?_⟩
      · rw [List.take_succ_cons, readSib, if_pos h2, q2]
        rfl
      · cases k with
        | zero => rfl
        | succ k =>
          rw [List.take_succ_cons, readSib, if_pos h2, q3 k (Nat.lt_of_succ_lt_succ hk)]
          rfl
    next h2 =>
      obtain ⟨d, hd, rfl⟩ := Option.map_eq_some_iff.mp h
      obtain ⟨q1, q2, q3⟩ := readDisp_take hd
      dsimp only
      rw [Nat.add_comm 1 d.2]
      refine ⟨by simpa using q1, ?_, fun k hk => ?_⟩
      · rw [List.take_succ_cons, readSib, if_neg h2, q2]
        simp [Nat.add_comm]
      · cases k with
        | zero => rfl
        | succ k =>
          rw [List.take_succ_cons, readSib, if_neg h2, q3 k (Nat.lt_of_succ_lt_succ hk)]
          rfl

/-- Operand 3 takes the number of bytes it says: these are enough, and fewer are not. -/
theorem readRm_take {modrm : Byte} {x b : Bool} {bs : List Byte} {r : RmOperand × Nat} (h : readRm modrm x b bs = some r) :
    r.2 ≤ bs.length ∧ readRm modrm x b (bs.take r.2) = some r ∧ ∀ k < r.2, readRm modrm x b (bs.take k) = none := by
  unfold readRm at h ⊢
  split at h
  next h0 =>
    cases h
    exact ⟨Nat.zero_le _, by rw [if_pos h0], fun k hk => absurd hk (Nat.not_lt_zero _)⟩
  next h0 =>
    simp only [if_neg h0]
    split at h
    next h1 =>
      simp only [if_pos h1]
      exact readSib_take h
    next h1 =>
      simp only [if_neg h1]
      split at h
      next h2 =>
        obtain ⟨v, hv, rfl⟩ := Option.map_eq_some_iff.mp h
        obtain ⟨q1, q2, q3⟩ := readDisp32_take hv
        simp only [if_pos h2]
        exact ⟨q1, by rw [q2]; rfl, fun k hk => by rw [q3 k hk]; rfl⟩
      next h2 =>
        obtain ⟨d, hd, rfl⟩ := Option.map_eq_some_iff.mp h
        obtain ⟨q1, q2, q3⟩ := readDisp_take hd
        simp only [if_neg h2]
        exact ⟨q1, by rw [q2]; rfl, fun k hk => by rw [q3 k hk]; rfl⟩

/-- SIB and displacement are at most five bytes. -/
theorem readRm_length_le {modrm : Byte} {x b : Bool} {bs : List Byte} {r : RmOperand × Nat}
    (h : readRm modrm x b bs = some r) : r.2 ≤ 5 := by
  have hd : ∀ {mod : BitVec 2} {l : List Byte} {d : Disp × Nat}, readDisp mod l = some d → d.2 ≤ 4 := by
    intro mod l d h
    unfold readDisp at h
    split at h
    next => cases h; exact Nat.zero_le _
    next =>
      split at h <;> obtain ⟨v, _, rfl⟩ := Option.map_eq_some_iff.mp h <;> simp
  unfold readRm at h
  split at h
  next => cases h; exact Nat.zero_le _
  next =>
    split at h
    next =>
      match bs, h with
      | sib :: bs, h =>
        unfold readSib at h
        dsimp only at h
        split at h
        next => obtain ⟨v, _, rfl⟩ := Option.map_eq_some_iff.mp h; simp
        next =>
          obtain ⟨d, hd', rfl⟩ := Option.map_eq_some_iff.mp h
          have := hd hd'
          dsimp only
          omega
    next =>
      split at h
      next => obtain ⟨v, _, rfl⟩ := Option.map_eq_some_iff.mp h; simp
      next =>
        obtain ⟨d, hd', rfl⟩ := Option.map_eq_some_iff.mp h
        have := hd hd'
        dsimp only
        omega

/-! ## Operand 3 read back -/

theorem fields_modrm (a : BitVec 2) (b c : BitVec 3) :
    field (a ++ b ++ c) 6 2 = a ∧ field (a ++ b ++ c) 3 3 = b ∧ field (a ++ b ++ c) 0 3 = c := by
  revert a b c; decide

theorem Disp.modBits_ne_three (d : Disp) : d.modBits ≠ 3 := by
  cases d <;> simp [Disp.modBits]

theorem Disp.modBits_eq_zero {d : Disp} (h : d.modBits = 0) : d = .none := by
  cases d <;> simp_all [Disp.modBits]

theorem low3_eq_five (b : Gpr) : low3 b = 5 ↔ b.low = 5 := by revert b; decide
theorem low3_eq_four (b : Gpr) : low3 b = 4 ↔ b.low = 4 := by revert b; decide

theorem Disp.not_wfBase {d : Disp} {b : Gpr} (h : d.wfBase b = true) : ¬(d.modBits = 0 ∧ low3 b = 5) := by
  rintro ⟨h1, h2⟩
  rw [Disp.modBits_eq_zero h1] at h
  simp [Disp.wfBase, (low3_eq_five b).mp h2] at h

/-- The memory operand that was encoded is read back, whatever follows (30_encoding.md R89, R90, R91). -/
theorem readRm_bits (m : MemOp) (h : m.wf = true) (reg : BitVec 3) (rest : List Byte) :
    readRm (m.bits.modBits ++ reg ++ m.bits.rm) m.bits.x m.bits.b (m.bits.tail ++ rest) = some (.mem m, m.length) := by
  cases m with
  | based b d =>
    simp only [MemOp.wf, Bool.and_eq_true, bne_iff_ne, ne_eq] at h
    show readRm (d.modBits ++ reg ++ low3 b) false (regBit b 3) (d.bytes ++ rest) = _
    unfold readRm
    rw [(fields_modrm _ _ _).1, (fields_modrm _ _ _).2.2, if_neg d.modBits_ne_three,
      if_neg (fun e => h.1 ((low3_eq_four b).mp e)), if_neg (Disp.not_wfBase h.2), readDisp_bytes]
    simp [reg4_regBit_low3, MemOp.length, Disp.bytes_length]
  | ripRel d =>
    show readRm (0#2 ++ reg ++ 5#3) false false (le32 d ++ rest) = _
    unfold readRm
    rw [(fields_modrm _ _ _).1, (fields_modrm _ _ _).2.2, if_neg (by decide), if_neg (by decide), if_pos (by decide),
      readDisp32_le32]
    rfl
  | sib b i ss d =>
    simp only [MemOp.wf, Bool.and_eq_true] at h
    show readRm (d.modBits ++ reg ++ 4#3) (regBit (indexNumber i) 3) (regBit b 3)
      (sibByte ss i (low3 b) :: (d.bytes ++ rest)) = _
    unfold readRm
    rw [(fields_modrm _ _ _).1, (fields_modrm _ _ _).2.2, if_neg d.modBits_ne_three, if_pos (by decide)]
    unfold readSib sibByte
    dsimp only
    rw [(fields_modrm _ _ _).1, (fields_modrm _ _ _).2.1, (fields_modrm _ _ _).2.2,
      if_neg (Disp.not_wfBase h.2), readDisp_bytes]
    simp [reg4_regBit_low3, sibIndex_indexNumber _ h.1, MemOp.length, Disp.bytes_length]
  | sibNoBase i ss d =>
    show readRm (0#2 ++ reg ++ 4#3) (regBit (indexNumber i) 3) false (sibByte ss i 5 :: (le32 d ++ rest)) = _
    unfold readRm
    rw [(fields_modrm _ _ _).1, (fields_modrm _ _ _).2.2, if_neg (by decide), if_pos (by decide)]
    unfold readSib sibByte
    dsimp only
    rw [(fields_modrm _ _ _).1, (fields_modrm _ _ _).2.1, (fields_modrm _ _ _).2.2,
      if_pos (by decide), readDisp32_le32]
    simp [sibIndex_indexNumber _ h, MemOp.length]

/-- A register operand 3 is read back. -/
theorem readRm_regBits {n : Nat} (r : Fin n) (reg : BitVec 3) (x b : Bool) (rest : List Byte) :
    readRm ((regBits r).modBits ++ reg ++ (regBits r).rm) x b ((regBits r).tail ++ rest) = some (.reg (low3 r), 0) := by
  show readRm (3#2 ++ reg ++ low3 r) x b rest = _
  unfold readRm
  rw [(fields_modrm _ _ _).1, (fields_modrm _ _ _).2.2, if_pos (by decide)]

/-! ## Lengths (30_encoding.md R111) -/

theorem VexSrc.bits_tail_length (x : VexSrc) : x.bits.tail.length = x.length := by
  cases x with
  | reg r => rfl
  | mem m => exact m.bits_tail_length

theorem FullSrc.bits_tail_length (x : FullSrc) : x.bits.tail.length = x.length := by
  cases x with
  | reg r => rfl
  | mem m => exact m.bits_tail_length
  | bcst m => exact m.bits_tail_length

theorem FullMemSrc.bits_tail_length (x : FullMemSrc) : x.bits.tail.length = x.length := by
  cases x with
  | reg r => rfl
  | mem m => exact m.bits_tail_length

theorem encodeVex_length (p : Prefixes) (d s1 : VReg16) (m : RmBits) :
    (encodeVex p d s1 m).length = p.length + 5 + m.tail.length := by
  simp [encodeVex, p.bytes_length]
  omega

theorem encodeEvex_length (p : Prefixes) (w : Bool) (ll : BitVec 2) (op : Byte) (d s1 : VReg) (wm : Writemask)
    (b : Bool) (m : RmBits) : (encodeEvex p w ll op d s1 wm b m).length = p.length + 6 + m.tail.length := by
  simp [encodeEvex, p.bytes_length]
  omega

theorem Prefixes.length_le (p : Prefixes) : p.length ≤ 2 := by
  obtain ⟨a, seg⟩ := p
  cases a <;> cases seg <;> decide

theorem MemOp.length_le (m : MemOp) : m.length ≤ 5 := by
  rcases m with ⟨_, _ | _ | _⟩ | _ | ⟨_, _, _, _ | _ | _⟩ | _ <;> simp [MemOp.length, Disp.length]

theorem VexSrc.length_le (x : VexSrc) : x.length ≤ 5 := by
  cases x with
  | reg r => exact Nat.zero_le _
  | mem m => exact m.length_le

theorem FullSrc.length_le (x : FullSrc) : x.length ≤ 5 := by
  cases x with
  | reg r => exact Nat.zero_le _
  | mem m => exact m.length_le
  | bcst m => exact m.length_le

theorem FullMemSrc.length_le (x : FullMemSrc) : x.length ≤ 5 := by
  cases x with
  | reg r => exact Nat.zero_le _
  | mem m => exact m.length_le

end Sys2Proof
end

