-- ==== Sys2Proof/Laws/Elements.lean ====
section
/-! SUPPORT. Vectors by their elements: the elements of a vector built from elements, and equality of vectors element by element. -/

namespace Sys2Proof.Machine

/-- The bits of elements packed over a list of positions. -/
theorem getLsbD_pack {w N : Nat} (hw : 0 < w) (f : Nat → BitVec w) (l : List Nat) (b : Nat) (hb : b < N) :
    (l.foldr (fun j (acc : BitVec N) => (acc <<< w) ||| (f j).setWidth N) 0).getLsbD b =
      ((l[b / w]?).map fun j => (f j).getLsbD (b % w)).getD false := by
  induction l generalizing b with
  | nil => simp
  | cons j l ih =>
    rw [List.foldr_cons, BitVec.getLsbD_or, BitVec.getLsbD_shiftLeft, BitVec.getLsbD_setWidth]
    by_cases hbw : b < w
    · simp [hbw, hb, Nat.div_eq_of_lt hbw, Nat.mod_eq_of_lt hbw]
    · have h1 : b / w = (b - w) / w + 1 := by
        rw [Nat.div_eq_sub_div hw (by omega)]
      have h2 : b % w = (b - w) % w := Nat.mod_eq_sub_mod (by omega)
      rw [ih (b - w) (by omega), h1, h2]
      simp [hbw, hb, BitVec.getLsbD_of_ge (f j) b (by omega)]

/-- Bit `b` of a vector built from elements. -/
theorem getLsbD_ofElems {w kl : Nat} (f : Nat → BitVec w) (b : Nat) :
    (ofElems w kl f).getLsbD b = if b < w * kl then (f (b / w)).getLsbD (b % w) else false := by
  split
  next h =>
    have hw : 0 < w := Nat.pos_of_ne_zero fun e => by simp [e] at h
    have hd : b / w < kl := Nat.div_lt_of_lt_mul h
    unfold ofElems
    rw [getLsbD_pack hw f _ b h]
    simp [hd]
  next h => exact BitVec.getLsbD_of_ge _ _ (by omega)

/-- Bit `b` of element `j`. -/
theorem getLsbD_elem {w n : Nat} (v : BitVec n) (j b : Nat) :
    (elem w v j).getLsbD b = (decide (b < w) && v.getLsbD (w * j + b)) := by
  simp [elem]

/-- Element `j` of a vector built from elements. -/
@[simp] theorem elem_ofElems {w kl : Nat} (f : Nat → BitVec w) {j : Nat} (hj : j < kl) :
    elem w (ofElems w kl f) j = f j := by
  apply BitVec.eq_of_getLsbD_eq
  intro b hb
  have h1 : w * j + b < w * kl := by
    have := Nat.mul_le_mul_left w (show j + 1 ≤ kl from hj)
    rw [Nat.mul_add] at this
    omega
  have hw : 0 < w := by omega
  rw [getLsbD_elem, getLsbD_ofElems, if_pos h1, Nat.mul_add_div hw, Nat.div_eq_of_lt hb, Nat.mul_add_mod,
    Nat.mod_eq_of_lt hb]
  simp [hb]

/-- Elements survive a change of width that keeps them. -/
theorem elem_setWidth {w n m : Nat} (v : BitVec n) {j : Nat} (hj : w * j + w ≤ m) :
    elem w (v.setWidth m) j = elem w v j := by
  apply BitVec.eq_of_getLsbD_eq
  intro b hb
  simp only [getLsbD_elem, BitVec.getLsbD_setWidth]
  simp [show w * j + b < m by omega]

/-- Vectors with the same elements are equal. -/
theorem eq_of_elems {w kl : Nat} {v v' : Vec w kl} (h : ∀ j < kl, elem w v j = elem w v' j) : v = v' := by
  apply BitVec.eq_of_getLsbD_eq
  intro b hb
  have hw : 0 < w := Nat.pos_of_ne_zero fun e => by simp [e] at hb
  have hd : b / w < kl := Nat.div_lt_of_lt_mul hb
  have hm := Nat.mod_lt b hw
  have := congrArg (fun x => BitVec.getLsbD x (b % w)) (h _ hd)
  simpa only [getLsbD_elem, hm, decide_true, Bool.true_and, Nat.div_add_mod] using this

/-- A vector is built from its own elements. -/
theorem ofElems_elem {w kl : Nat} (v : Vec w kl) : ofElems w kl (elem w v) = v :=
  eq_of_elems fun _ hj => elem_ofElems _ hj

/-- Only the elements below `kl` matter. -/
theorem ofElems_congr {w kl : Nat} {f g : Nat → BitVec w} (h : ∀ j < kl, f j = g j) :
    ofElems w kl f = ofElems w kl g :=
  eq_of_elems fun j hj => by rw [elem_ofElems f hj, elem_ofElems g hj, h j hj]

@[simp] theorem elem_replicate {w kl : Nat} (v : BitVec w) {j : Nat} (hj : j < kl) :
    elem w (replicate w kl v) j = v := elem_ofElems _ hj

/-- A selector is below the number of elements when that number is a power of two. -/
theorem sel_lt {w kl : Nat} (hk : 2 ^ Nat.log2 kl = kl) (idx : Vec w kl) (j : Nat) : sel w kl idx j < kl := by
  have := (idx.extractLsb' (w * j) (Nat.log2 kl)).isLt
  unfold sel
  omega

end Sys2Proof.Machine
end

