-- ==== Sys2Proof/Laws/State.lean ====
section
/-! SUPPORT. What each update of the state leaves alone: one lemma per field per update, all by rfl. -/

namespace Sys2Proof.Machine

/-! ## A register write -/

@[simp] theorem State.setVec_k (s : State) (d : VReg) {n : Nat} (v : BitVec n) : (s.setVec d v).k = s.k := rfl
@[simp] theorem State.setVec_gpr (s : State) (d : VReg) {n : Nat} (v : BitVec n) : (s.setVec d v).gpr = s.gpr := rfl
@[simp] theorem State.setVec_rip (s : State) (d : VReg) {n : Nat} (v : BitVec n) : (s.setVec d v).rip = s.rip := rfl
@[simp] theorem State.setVec_rflags (s : State) (d : VReg) {n : Nat} (v : BitVec n) : (s.setVec d v).rflags = s.rflags := rfl
@[simp] theorem State.setVec_mxcsr (s : State) (d : VReg) {n : Nat} (v : BitVec n) : (s.setVec d v).mxcsr = s.mxcsr := rfl
@[simp] theorem State.setVec_fsBase (s : State) (d : VReg) {n : Nat} (v : BitVec n) : (s.setVec d v).fsBase = s.fsBase := rfl
@[simp] theorem State.setVec_gsBase (s : State) (d : VReg) {n : Nat} (v : BitVec n) : (s.setVec d v).gsBase = s.gsBase := rfl
@[simp] theorem State.setVec_csBase (s : State) (d : VReg) {n : Nat} (v : BitVec n) : (s.setVec d v).csBase = s.csBase := rfl
@[simp] theorem State.setVec_cr0 (s : State) (d : VReg) {n : Nat} (v : BitVec n) : (s.setVec d v).cr0 = s.cr0 := rfl
@[simp] theorem State.setVec_cr2 (s : State) (d : VReg) {n : Nat} (v : BitVec n) : (s.setVec d v).cr2 = s.cr2 := rfl
@[simp] theorem State.setVec_cr4 (s : State) (d : VReg) {n : Nat} (v : BitVec n) : (s.setVec d v).cr4 = s.cr4 := rfl
@[simp] theorem State.setVec_xcr0 (s : State) (d : VReg) {n : Nat} (v : BitVec n) : (s.setVec d v).xcr0 = s.xcr0 := rfl
@[simp] theorem State.setVec_lma (s : State) (d : VReg) {n : Nat} (v : BitVec n) : (s.setVec d v).lma = s.lma := rfl
@[simp] theorem State.setVec_csL (s : State) (d : VReg) {n : Nat} (v : BitVec n) : (s.setVec d v).csL = s.csL := rfl
@[simp] theorem State.setVec_cpl (s : State) (d : VReg) {n : Nat} (v : BitVec n) : (s.setVec d v).cpl = s.cpl := rfl
@[simp] theorem State.setVec_mem (s : State) (d : VReg) {n : Nat} (v : BitVec n) : (s.setVec d v).mem = s.mem := rfl
@[simp] theorem State.setVec_cfg (s : State) (d : VReg) {n : Nat} (v : BitVec n) : (s.setVec d v).cfg = s.cfg := rfl

/-! ## Advancing `rip` -/

@[simp] theorem State.advance_zmm (s : State) (len : Nat) : (s.advance len).zmm = s.zmm := rfl
@[simp] theorem State.advance_k (s : State) (len : Nat) : (s.advance len).k = s.k := rfl
@[simp] theorem State.advance_gpr (s : State) (len : Nat) : (s.advance len).gpr = s.gpr := rfl
@[simp] theorem State.advance_rflags (s : State) (len : Nat) : (s.advance len).rflags = s.rflags := rfl
@[simp] theorem State.advance_mxcsr (s : State) (len : Nat) : (s.advance len).mxcsr = s.mxcsr := rfl
@[simp] theorem State.advance_fsBase (s : State) (len : Nat) : (s.advance len).fsBase = s.fsBase := rfl
@[simp] theorem State.advance_gsBase (s : State) (len : Nat) : (s.advance len).gsBase = s.gsBase := rfl
@[simp] theorem State.advance_csBase (s : State) (len : Nat) : (s.advance len).csBase = s.csBase := rfl
@[simp] theorem State.advance_cr0 (s : State) (len : Nat) : (s.advance len).cr0 = s.cr0 := rfl
@[simp] theorem State.advance_cr2 (s : State) (len : Nat) : (s.advance len).cr2 = s.cr2 := rfl
@[simp] theorem State.advance_cr4 (s : State) (len : Nat) : (s.advance len).cr4 = s.cr4 := rfl
@[simp] theorem State.advance_xcr0 (s : State) (len : Nat) : (s.advance len).xcr0 = s.xcr0 := rfl
@[simp] theorem State.advance_lma (s : State) (len : Nat) : (s.advance len).lma = s.lma := rfl
@[simp] theorem State.advance_csL (s : State) (len : Nat) : (s.advance len).csL = s.csL := rfl
@[simp] theorem State.advance_cpl (s : State) (len : Nat) : (s.advance len).cpl = s.cpl := rfl
@[simp] theorem State.advance_mem (s : State) (len : Nat) : (s.advance len).mem = s.mem := rfl
@[simp] theorem State.advance_cfg (s : State) (len : Nat) : (s.advance len).cfg = s.cfg := rfl

/-! ## Completing an instruction -/

@[simp] theorem State.complete_k (s : State) (d : VReg) (len : Nat) {n : Nat} (v : BitVec n) : (s.complete d len v).k = s.k := rfl
@[simp] theorem State.complete_gpr (s : State) (d : VReg) (len : Nat) {n : Nat} (v : BitVec n) : (s.complete d len v).gpr = s.gpr := rfl
@[simp] theorem State.complete_rflags (s : State) (d : VReg) (len : Nat) {n : Nat} (v : BitVec n) : (s.complete d len v).rflags = s.rflags := rfl
@[simp] theorem State.complete_mxcsr (s : State) (d : VReg) (len : Nat) {n : Nat} (v : BitVec n) : (s.complete d len v).mxcsr = s.mxcsr := rfl
@[simp] theorem State.complete_fsBase (s : State) (d : VReg) (len : Nat) {n : Nat} (v : BitVec n) : (s.complete d len v).fsBase = s.fsBase := rfl
@[simp] theorem State.complete_gsBase (s : State) (d : VReg) (len : Nat) {n : Nat} (v : BitVec n) : (s.complete d len v).gsBase = s.gsBase := rfl
@[simp] theorem State.complete_csBase (s : State) (d : VReg) (len : Nat) {n : Nat} (v : BitVec n) : (s.complete d len v).csBase = s.csBase := rfl
@[simp] theorem State.complete_cr0 (s : State) (d : VReg) (len : Nat) {n : Nat} (v : BitVec n) : (s.complete d len v).cr0 = s.cr0 := rfl
@[simp] theorem State.complete_cr2 (s : State) (d : VReg) (len : Nat) {n : Nat} (v : BitVec n) : (s.complete d len v).cr2 = s.cr2 := rfl
@[simp] theorem State.complete_cr4 (s : State) (d : VReg) (len : Nat) {n : Nat} (v : BitVec n) : (s.complete d len v).cr4 = s.cr4 := rfl
@[simp] theorem State.complete_xcr0 (s : State) (d : VReg) (len : Nat) {n : Nat} (v : BitVec n) : (s.complete d len v).xcr0 = s.xcr0 := rfl
@[simp] theorem State.complete_lma (s : State) (d : VReg) (len : Nat) {n : Nat} (v : BitVec n) : (s.complete d len v).lma = s.lma := rfl
@[simp] theorem State.complete_csL (s : State) (d : VReg) (len : Nat) {n : Nat} (v : BitVec n) : (s.complete d len v).csL = s.csL := rfl
@[simp] theorem State.complete_cpl (s : State) (d : VReg) (len : Nat) {n : Nat} (v : BitVec n) : (s.complete d len v).cpl = s.cpl := rfl
@[simp] theorem State.complete_mem (s : State) (d : VReg) (len : Nat) {n : Nat} (v : BitVec n) : (s.complete d len v).mem = s.mem := rfl
@[simp] theorem State.complete_cfg (s : State) (d : VReg) (len : Nat) {n : Nat} (v : BitVec n) : (s.complete d len v).cfg = s.cfg := rfl

/-! ## One new register and `rip` -/

@[simp] theorem State.withResult_k (s : State) (d : VReg) (v : Zmm) (r : Addr) : (s.withResult d v r).k = s.k := rfl
@[simp] theorem State.withResult_gpr (s : State) (d : VReg) (v : Zmm) (r : Addr) : (s.withResult d v r).gpr = s.gpr := rfl
@[simp] theorem State.withResult_rflags (s : State) (d : VReg) (v : Zmm) (r : Addr) : (s.withResult d v r).rflags = s.rflags := rfl
@[simp] theorem State.withResult_mxcsr (s : State) (d : VReg) (v : Zmm) (r : Addr) : (s.withResult d v r).mxcsr = s.mxcsr := rfl
@[simp] theorem State.withResult_fsBase (s : State) (d : VReg) (v : Zmm) (r : Addr) : (s.withResult d v r).fsBase = s.fsBase := rfl
@[simp] theorem State.withResult_gsBase (s : State) (d : VReg) (v : Zmm) (r : Addr) : (s.withResult d v r).gsBase = s.gsBase := rfl
@[simp] theorem State.withResult_csBase (s : State) (d : VReg) (v : Zmm) (r : Addr) : (s.withResult d v r).csBase = s.csBase := rfl
@[simp] theorem State.withResult_cr0 (s : State) (d : VReg) (v : Zmm) (r : Addr) : (s.withResult d v r).cr0 = s.cr0 := rfl
@[simp] theorem State.withResult_cr2 (s : State) (d : VReg) (v : Zmm) (r : Addr) : (s.withResult d v r).cr2 = s.cr2 := rfl
@[simp] theorem State.withResult_cr4 (s : State) (d : VReg) (v : Zmm) (r : Addr) : (s.withResult d v r).cr4 = s.cr4 := rfl
@[simp] theorem State.withResult_xcr0 (s : State) (d : VReg) (v : Zmm) (r : Addr) : (s.withResult d v r).xcr0 = s.xcr0 := rfl
@[simp] theorem State.withResult_lma (s : State) (d : VReg) (v : Zmm) (r : Addr) : (s.withResult d v r).lma = s.lma := rfl
@[simp] theorem State.withResult_csL (s : State) (d : VReg) (v : Zmm) (r : Addr) : (s.withResult d v r).csL = s.csL := rfl
@[simp] theorem State.withResult_cpl (s : State) (d : VReg) (v : Zmm) (r : Addr) : (s.withResult d v r).cpl = s.cpl := rfl
@[simp] theorem State.withResult_mem (s : State) (d : VReg) (v : Zmm) (r : Addr) : (s.withResult d v r).mem = s.mem := rfl
@[simp] theorem State.withResult_cfg (s : State) (d : VReg) (v : Zmm) (r : Addr) : (s.withResult d v r).cfg = s.cfg := rfl

/-! ## The boot steps -/

@[simp] theorem State.boot_zmm (s : State) : s.boot.zmm = s.zmm := rfl
@[simp] theorem State.boot_k (s : State) : s.boot.k = s.k := rfl
@[simp] theorem State.boot_gpr (s : State) : s.boot.gpr = s.gpr := rfl
@[simp] theorem State.boot_rip (s : State) : s.boot.rip = s.rip := rfl
@[simp] theorem State.boot_rflags (s : State) : s.boot.rflags = s.rflags := rfl
@[simp] theorem State.boot_mxcsr (s : State) : s.boot.mxcsr = s.mxcsr := rfl
@[simp] theorem State.boot_fsBase (s : State) : s.boot.fsBase = s.fsBase := rfl
@[simp] theorem State.boot_gsBase (s : State) : s.boot.gsBase = s.gsBase := rfl
@[simp] theorem State.boot_csBase (s : State) : s.boot.csBase = s.csBase := rfl
@[simp] theorem State.boot_cr2 (s : State) : s.boot.cr2 = s.cr2 := rfl
@[simp] theorem State.boot_cpl (s : State) : s.boot.cpl = s.cpl := rfl
@[simp] theorem State.boot_mem (s : State) : s.boot.mem = s.mem := rfl
@[simp] theorem State.boot_cfg (s : State) : s.boot.cfg = s.cfg := rfl

/-! ## Placing bytes -/

@[simp] theorem State.placeBytes_zmm (s : State) (a : Addr) (bs : List Byte) : (s.placeBytes a bs).zmm = s.zmm := rfl
@[simp] theorem State.placeBytes_k (s : State) (a : Addr) (bs : List Byte) : (s.placeBytes a bs).k = s.k := rfl
@[simp] theorem State.placeBytes_gpr (s : State) (a : Addr) (bs : List Byte) : (s.placeBytes a bs).gpr = s.gpr := rfl
@[simp] theorem State.placeBytes_rip (s : State) (a : Addr) (bs : List Byte) : (s.placeBytes a bs).rip = s.rip := rfl
@[simp] theorem State.placeBytes_rflags (s : State) (a : Addr) (bs : List Byte) : (s.placeBytes a bs).rflags = s.rflags := rfl
@[simp] theorem State.placeBytes_mxcsr (s : State) (a : Addr) (bs : List Byte) : (s.placeBytes a bs).mxcsr = s.mxcsr := rfl
@[simp] theorem State.placeBytes_fsBase (s : State) (a : Addr) (bs : List Byte) : (s.placeBytes a bs).fsBase = s.fsBase := rfl
@[simp] theorem State.placeBytes_gsBase (s : State) (a : Addr) (bs : List Byte) : (s.placeBytes a bs).gsBase = s.gsBase := rfl
@[simp] theorem State.placeBytes_csBase (s : State) (a : Addr) (bs : List Byte) : (s.placeBytes a bs).csBase = s.csBase := rfl
@[simp] theorem State.placeBytes_cr0 (s : State) (a : Addr) (bs : List Byte) : (s.placeBytes a bs).cr0 = s.cr0 := rfl
@[simp] theorem State.placeBytes_cr2 (s : State) (a : Addr) (bs : List Byte) : (s.placeBytes a bs).cr2 = s.cr2 := rfl
@[simp] theorem State.placeBytes_cr4 (s : State) (a : Addr) (bs : List Byte) : (s.placeBytes a bs).cr4 = s.cr4 := rfl
@[simp] theorem State.placeBytes_xcr0 (s : State) (a : Addr) (bs : List Byte) : (s.placeBytes a bs).xcr0 = s.xcr0 := rfl
@[simp] theorem State.placeBytes_lma (s : State) (a : Addr) (bs : List Byte) : (s.placeBytes a bs).lma = s.lma := rfl
@[simp] theorem State.placeBytes_csL (s : State) (a : Addr) (bs : List Byte) : (s.placeBytes a bs).csL = s.csL := rfl
@[simp] theorem State.placeBytes_cpl (s : State) (a : Addr) (bs : List Byte) : (s.placeBytes a bs).cpl = s.cpl := rfl
@[simp] theorem State.placeBytes_cfg (s : State) (a : Addr) (bs : List Byte) : (s.placeBytes a bs).cfg = s.cfg := rfl

/-! ## What the updates change -/

@[simp] theorem State.advance_rip (s : State) (len : Nat) : (s.advance len).rip = s.rip + BitVec.ofNat 64 len := rfl
@[simp] theorem State.complete_rip (s : State) (d : VReg) (len : Nat) {n : Nat} (v : BitVec n) :
    (s.complete d len v).rip = s.rip + BitVec.ofNat 64 len := rfl
@[simp] theorem State.withResult_rip (s : State) (d : VReg) (v : Zmm) (r : Addr) : (s.withResult d v r).rip = r := rfl
@[simp] theorem State.placeBytes_mem (s : State) (a : Addr) (bs : List Byte) :
    (s.placeBytes a bs).mem = s.mem.setBytes a.toNat bs := rfl
@[simp] theorem State.boot_lma (s : State) : s.boot.lma = true := rfl
@[simp] theorem State.boot_csL (s : State) : s.boot.csL = true := rfl

/-- Reading one register of a file after writing one. -/
theorem Vector.get_set {α : Type} {n : Nat} (xs : Vector α n) (d i : Fin n) (v : α) :
    (xs.set d.val v d.isLt).get i = if i = d then v else xs.get i := by
  show (xs.set d.val v d.isLt)[i.val] = _
  by_cases h : i = d
  · subst h
    simp
  · have : d.val ≠ i.val := fun e => h (Fin.ext e.symm)
    simp [h, this]
    rfl

/-- The register a write sets, and every other one. -/
theorem State.setVec_get (s : State) (d r : VReg) {n : Nat} (v : BitVec n) :
    (s.setVec d v).zmm.get r =
      if r = d then (v.setWidth s.cfg.maxvl).setWidth 512 else s.zmm.get r :=
  Vector.get_set _ _ _ _

theorem State.complete_get (s : State) (d r : VReg) (len : Nat) {n : Nat} (v : BitVec n) :
    (s.complete d len v).zmm.get r =
      if r = d then (v.setWidth s.cfg.maxvl).setWidth 512 else s.zmm.get r :=
  Vector.get_set _ _ _ _

theorem State.withResult_get (s : State) (d r : VReg) (v : Zmm) (a : Addr) :
    (s.withResult d v a).zmm.get r = if r = d then v else s.zmm.get r :=
  Vector.get_set _ _ _ _

/-- Completing an instruction is one new register and a new `rip`. -/
theorem State.complete_eq_withResult (s : State) (d : VReg) (len : Nat) {n : Nat} (v : BitVec n) :
    s.complete d len v =
      s.withResult d ((v.setWidth s.cfg.maxvl).setWidth 512) (s.rip + BitVec.ofNat 64 len) := rfl

end Sys2Proof.Machine
end

