-- ==== Sys2Proof/Laws/Ops.lean ====
section
/-! SUPPORT. One lemma per shared operation: everything its answer can be. -/

namespace Sys2Proof.Machine

/-! ## Answers -/

@[simp] theorem Answer.bind_ok {α β : Type} (a : α) (f : α → Answer β) : (Answer.ok a).bind f = f a := rfl
@[simp] theorem Answer.bind_fault {α β : Type} (e : Fault) (f : α → Answer β) :
    (Answer.fault e : Answer α).bind f = .fault e := rfl
@[simp] theorem Answer.bind_refused {α β : Type} (r : Refusal) (f : α → Answer β) :
    (Answer.refused r : Answer α).bind f = .refused r := rfl

theorem Answer.bind_eq_ok {α β : Type} {x : Answer α} {f : α → Answer β} {b : β} :
    x.bind f = .ok b ↔ ∃ a, x = .ok a ∧ f a = .ok b := by
  cases x <;> simp

theorem Answer.bind_eq_fault {α β : Type} {x : Answer α} {f : α → Answer β} {e : Fault} :
    x.bind f = .fault e ↔ x = .fault e ∨ ∃ a, x = .ok a ∧ f a = .fault e := by
  cases x <;> simp

@[simp] theorem Answer.toOutcome_ok {α : Type} (a : α) (f : α → State) : (Answer.ok a).toOutcome f = .next (f a) := rfl
@[simp] theorem Answer.toOutcome_fault {α : Type} (e : Fault) (f : α → State) :
    (Answer.fault e : Answer α).toOutcome f = .fault e := rfl
@[simp] theorem Answer.toOutcome_refused {α : Type} (r : Refusal) (f : α → State) :
    (Answer.refused r : Answer α).toOutcome f = .refused r := rfl

theorem Answer.toOutcome_eq_next {α : Type} {x : Answer α} {f : α → State} {t : State} :
    x.toOutcome f = .next t ↔ ∃ a, x = .ok a ∧ f a = t := by
  cases x <;> simp

theorem Answer.toOutcome_eq_fault {α : Type} {x : Answer α} {f : α → State} {e : Fault} :
    x.toOutcome f = .fault e ↔ x = .fault e := by
  cases x <;> simp

@[simp] theorem raise_eq {α : Type} (exc : Addr → Fault) (s : State) : (raise exc s : Answer α) = .fault (exc s.rip) := rfl

/-! ## The checks before an instruction -/

theorem checkEnabled_of_ready {f : Form} {s : State} (h : Ready f s = true) : checkEnabled f s = .ok () := by
  simp only [Ready, Bool.and_eq_true, Bool.not_eq_true'] at h
  obtain ⟨⟨⟨h1, h2⟩, h3⟩, h4⟩ := h
  simp [checkEnabled, h1, h2, h3, h4]

/-- The checks pass exactly when the form may execute. -/
theorem checkEnabled_eq_ok {f : Form} {s : State} : checkEnabled f s = .ok () ↔ Ready f s = true := by
  refine ⟨fun h => ?_, checkEnabled_of_ready⟩
  unfold checkEnabled at h
  split at h
  · cases h
  · split at h
    · cases h
    · split at h
      · cases h
      · simp_all [Ready]

/-- The checks raise #UD or #NM, with the address of the instruction. -/
theorem checkEnabled_eq_fault {f : Form} {s : State} {e : Fault} (h : checkEnabled f s = .fault e) :
    e = .ud s.rip ∨ e = .nm s.rip := by
  unfold checkEnabled at h
  split at h
  · cases h
  · split at h
    · exact .inl (by simpa using h.symm)
    · split at h
      · exact .inr (by simpa using h.symm)
      · cases h

/-! ## The execution sequence -/

/-- If a form answers a next state, it was ready, operand 3 was loaded, and the state is the completed one. -/
theorem execForm_eq_next {f : Form} {len : Nat} {dest : VReg} {n : Nat} {src2 : Answer (BitVec n)}
    {result : BitVec n → BitVec n} {s t : State} :
    execForm f len dest src2 result s = .next t ↔
      Ready f s = true ∧ ∃ data, src2 = .ok data ∧ t = s.complete dest len (result data) := by
  unfold execForm
  rw [Answer.toOutcome_eq_next]
  constructor
  · rintro ⟨a, h, rfl⟩
    obtain ⟨u, h1, h2⟩ := Answer.bind_eq_ok.mp h
    exact ⟨checkEnabled_eq_ok.mp h1, a, h2, rfl⟩
  · rintro ⟨h, data, rfl, rfl⟩
    exact ⟨data, by rw [checkEnabled_of_ready h]; rfl, rfl⟩

/-- A form that is ready answers as its operand does. -/
theorem execForm_of_ready {f : Form} {s : State} (h : Ready f s = true) (len : Nat) (dest : VReg) {n : Nat}
    (src2 : Answer (BitVec n)) (result : BitVec n → BitVec n) :
    execForm f len dest src2 result s = src2.toOutcome fun data => s.complete dest len (result data) := by
  unfold execForm
  rw [checkEnabled_of_ready h, Answer.bind_ok]

/-- A fault of a form is one of the checks' or its operand's. -/
theorem execForm_eq_fault {f : Form} {len : Nat} {dest : VReg} {n : Nat} {src2 : Answer (BitVec n)}
    {result : BitVec n → BitVec n} {s : State} {e : Fault} (h : execForm f len dest src2 result s = .fault e) :
    e = .ud s.rip ∨ e = .nm s.rip ∨ (Ready f s = true ∧ src2 = .fault e) := by
  unfold execForm at h
  rw [Answer.toOutcome_eq_fault, Answer.bind_eq_fault] at h
  rcases h with h | ⟨u, h1, h2⟩
  · rcases checkEnabled_eq_fault h with h | h
    · exact .inl h
    · exact .inr (.inl h)
  · exact .inr (.inr ⟨checkEnabled_eq_ok.mp h1, h2⟩)

/-! ## Memory accesses -/

theorem pickFrom_mem {α : Type} (x : α) (xs : List α) (i : Nat) : pickFrom x xs i ∈ x :: xs := by
  cases xs with
  | nil => exact List.mem_cons_self
  | cons y ys =>
    have h : i % (ys.length + 2) < (x :: y :: ys).length := by
      simpa using Nat.mod_lt i (Nat.succ_pos (ys.length + 1))
    show (x :: y :: ys).getD (i % (ys.length + 2)) x ∈ _
    rw [List.getD_eq_getElem _ _ h]
    exact List.getElem_mem h

theorem pageFault?_eq_some {x : Option RegionAnswer} {c : PageFaultCause} :
    RegionAnswer.pageFault? x = some c ↔ x = some (.pageFault c) := by
  unfold RegionAnswer.pageFault?
  split <;> simp_all

theorem refusal?_eq_some {x : Option RegionAnswer} {r : AccessRefusal} :
    RegionAnswer.refusal? x = some r ↔ x = some (.refused r) := by
  unfold RegionAnswer.refusal?
  split <;> simp_all

/-- The faulting bytes of a range are those for which the ranges answer a page fault. -/
theorem mem_faultingBytes {map : List Region} {kind : AccessKind} {cpl : Fin 4} {la n : Nat}
    {p : Fin n × PageFaultCause} :
    p ∈ faultingBytes map kind cpl la n ↔ regionAnswer map kind cpl (la + p.1.val) = some (.pageFault p.2) := by
  obtain ⟨i, c⟩ := p
  simp only [faultingBytes, List.mem_filterMap, List.mem_finRange, true_and, Option.map_eq_some_iff, Prod.mk.injEq,
    pageFault?_eq_some]
  constructor
  · rintro ⟨i', c', h, rfl, rfl⟩
    exact h
  · intro h
    exact ⟨i, c, h, rfl, rfl⟩

/-- What a platform of ranges decides: a page fault of one of the bytes that fault, with the code R197 describes; else the first refusal;
else the access is allowed. -/
theorem rangesVerdict_cases (map : List Region) (kind : AccessKind) (cpl : Fin 4) (la n : Nat) :
    (∃ (i : Fin n) (c : PageFaultCause), regionAnswer map kind cpl (la + i.val) = some (.pageFault c) ∧
        rangesVerdict map kind cpl la n = .pageFault (pageFaultCode kind cpl c) i) ∨
      ((∀ b < n, ∀ c, regionAnswer map kind cpl (la + b) ≠ some (.pageFault c)) ∧
        rangesVerdict map kind cpl la n = match firstRefusal map kind cpl la n with
          | some r => .refused r
          | none => .allowed) := by
  unfold rangesVerdict
  split
  next p rest heq =>
    have hm := pickFrom_mem p rest (Config.faultByte la n ((p :: rest).map fun x => x.1.val))
    rw [← heq, mem_faultingBytes] at hm
    exact .inl ⟨_, _, hm, by rw [heq]⟩
  next heq =>
    refine .inr ⟨fun b hb c hc => ?_, rfl⟩
    have : ((⟨b, hb⟩ : Fin n), c) ∈ faultingBytes map kind cpl la n := mem_faultingBytes.mpr hc
    rw [heq] at this
    cases this

theorem firstRefusal_eq_none {map : List Region} {kind : AccessKind} {cpl : Fin 4} {la n : Nat}
    (h : ∀ b < n, ∀ r, regionAnswer map kind cpl (la + b) ≠ some (.refused r)) :
    firstRefusal map kind cpl la n = none := by
  unfold firstRefusal
  rw [List.findSome?_eq_none_iff]
  intro b hb
  rw [List.mem_range] at hb
  cases hr : RegionAnswer.refusal? (regionAnswer map kind cpl (la + b)) with
  | none => rfl
  | some r => exact absurd (refusal?_eq_some.mp hr) (h b hb r)

/-- The first byte that is refused gives the reason. -/
theorem firstRefusal_eq_some {map : List Region} {kind : AccessKind} {cpl : Fin 4} {la n b : Nat} {r : AccessRefusal}
    (hb : b < n) (h : regionAnswer map kind cpl (la + b) = some (.refused r))
    (hd : ∀ d < b, ∀ r, regionAnswer map kind cpl (la + d) ≠ some (.refused r)) :
    firstRefusal map kind cpl la n = some r := by
  unfold firstRefusal
  obtain ⟨m, rfl⟩ : ∃ m, n = b + 1 + m := ⟨n - b - 1, by omega⟩
  rw [List.range_add, List.findSome?_append, List.range_succ, List.findSome?_append]
  have h0 := firstRefusal_eq_none (n := b) hd
  unfold firstRefusal at h0
  rw [h0]
  simp [refusal?_eq_some.mpr h]

theorem State.verdict_of_ranges {s : State} {map : List Region} (h : s.cfg.platform = .ranges map) (kind : AccessKind)
    (la n : Nat) : s.verdict kind la n = rangesVerdict map kind s.cpl la n := by
  unfold State.verdict
  rw [h]

theorem State.answer_of_allowed {s : State} {kind : AccessKind} {la n : Nat} (h : s.verdict kind la n = .allowed) :
    s.answer kind la n = .ok (Vector.ofFn fun i => s.mem.get (la + i.val)) := by
  unfold State.answer
  rw [h]

theorem State.answer_eq_pageFault {s : State} {kind : AccessKind} {la n : Nat} {code : BitVec 32} {i : Fin n} :
    s.answer kind la n = .pageFault code i ↔ s.verdict kind la n = .pageFault code i := by
  unfold State.answer
  cases s.verdict kind la n <;> simp

theorem State.answer_eq_refused {s : State} {kind : AccessKind} {la n : Nat} {r : AccessRefusal} :
    s.answer kind la n = .refused r ↔ s.verdict kind la n = .refused r := by
  unfold State.answer
  cases s.verdict kind la n <;> simp

/-- Bytes that `Access` answers with are those of memory, on every platform (20_memory.md R62, R65). -/
theorem State.eq_of_answer_ok {s : State} {kind : AccessKind} {la n : Nat} {v : Vector Byte n}
    (h : s.answer kind la n = .ok v) : v = Vector.ofFn fun i => s.mem.get (la + i.val) := by
  unfold State.answer at h
  split at h
  · simpa using h.symm
  · cases h
  · cases h

/-- Accesses that are decided alike over the same memory are answered alike. -/
theorem State.answer_congr {s t : State} {kind : AccessKind} {la n : Nat} (h : t.verdict kind la n = s.verdict kind la n)
    (hm : t.mem = s.mem) : t.answer kind la n = s.answer kind la n := by
  unfold State.answer
  rw [h, hm]

/-- A platform of ranges answers for bytes that no range covers with the bytes of memory. -/
theorem State.answer_of_plain {s : State} {map : List Region} (h : s.cfg.platform = .ranges map) {kind : AccessKind}
    {la n : Nat} (hr : ∀ b < n, regionAnswer map kind s.cpl (la + b) = none) :
    s.answer kind la n = .ok (Vector.ofFn fun i => s.mem.get (la + i.val)) := by
  apply State.answer_of_allowed
  rw [State.verdict_of_ranges h]
  rcases rangesVerdict_cases map kind s.cpl la n with ⟨i, c, hc, _⟩ | ⟨_, h⟩
  · rw [hr i.val i.isLt] at hc
    cases hc
  · rw [h, firstRefusal_eq_none fun b hb r => by simp [hr b hb]]

/-- What a platform of ranges answers depends on the ranges, memory and the privilege level only. -/
theorem sameAccess_of_ranges {s t : State} {map : List Region} (h : s.cfg.platform = .ranges map)
    (hp : t.cfg.platform = s.cfg.platform) (hm : t.mem = s.mem) (hc : t.cpl = s.cpl) : SameAccess s t := by
  intro kind la n
  refine State.answer_congr ?_ hm
  rw [State.verdict_of_ranges h, State.verdict_of_ranges (hp.trans h), hc]

theorem clearUser_pageFaultCode (kind : AccessKind) (c d : Fin 4) (x : PageFaultCause) :
    clearUser (pageFaultCode kind c x) = clearUser (pageFaultCode kind d x) := by
  rcases x with ⟨_ | _, _ | _, _ | _, _ | _⟩ <;> cases kind <;> revert c d <;> decide

/-- Ranges that answer alike at two privilege levels give answers that differ in the U/S bit of a code at most. -/
theorem clearUser_answer_of_ranges {map : List Region} {s t : State} (hs : s.cfg.platform = .ranges map)
    (ht : t.cfg.platform = .ranges map) (hm : t.mem = s.mem)
    (h : ∀ kind a, regionAnswer map kind t.cpl a = regionAnswer map kind s.cpl a) (kind : AccessKind) (la n : Nat) :
    AccessAnswer.clearUser (t.answer kind la n) = AccessAnswer.clearUser (s.answer kind la n) := by
  have hf : faultingBytes map kind t.cpl la n = faultingBytes map kind s.cpl la n := by simp [faultingBytes, h]
  have hr : firstRefusal map kind t.cpl la n = firstRefusal map kind s.cpl la n := by simp [firstRefusal, h]
  unfold State.answer
  rw [State.verdict_of_ranges hs, State.verdict_of_ranges ht]
  unfold rangesVerdict
  rw [hf, hr, hm]
  cases faultingBytes map kind s.cpl la n with
  | cons p rest =>
    simp only [AccessAnswer.clearUser]
    rw [clearUser_pageFaultCode kind t.cpl s.cpl]
  | nil => rfl

theorem access_of_ok {kind : AccessKind} {la n : Nat} {s : State} {v : Vector Byte n}
    (h : s.answer kind la n = .ok v) : access kind la n s = .ok v := by
  unfold access
  rw [h]

theorem access_of_pageFault {kind : AccessKind} {la n : Nat} {s : State} {code : BitVec 32} {i : Fin n}
    (h : s.answer kind la n = .pageFault code i) :
    access kind la n s = .fault (.pf code (BitVec.ofNat 64 (la + i.val)) s.rip) := by
  unfold access
  rw [h]
  rfl

theorem access_of_refused {kind : AccessKind} {la n : Nat} {s : State} {r : AccessRefusal}
    (h : s.answer kind la n = .refused r) : access kind la n s = .refused (AccessRefusal.refusal r) := by
  unfold access
  rw [h]

/-- A fault of an access is a page fault that `Access` answered. -/
theorem access_eq_fault {kind : AccessKind} {la n : Nat} {s : State} {e : Fault} (h : access kind la n s = .fault e) :
    ∃ code i, s.answer kind la n = .pageFault code i ∧ e = .pf code (BitVec.ofNat 64 (la + i.val)) s.rip := by
  unfold access at h
  split at h
  next => cases h
  next code i ha => exact ⟨code, i, ha, by simpa using h.symm⟩
  next => cases h

/-- Accesses that are answered alike from the same `rip` are alike. -/
theorem access_congr {s t : State} (h : SameAccess s t) (hr : t.rip = s.rip) (kind : AccessKind) (la n : Nat) :
    access kind la n t = access kind la n s := by
  unfold access
  rw [h]
  simp [hr]

/-- The canonical check is that bits 63 to `va - 1` are all equal (20_memory.md R54). -/
theorem canonical_iff (va : VaBits) {a : Nat} (ha : a < 2 ^ 64) : canonical va.bits a = true ↔ IsCanonical va.bits a := by
  unfold canonical IsCanonical
  rw [← BitVec.toNat_inj, BitVec.toNat_signExtend, BitVec.msb_eq_decide]
  cases va <;>
  · simp only [VaBits.bits, Bool.or_eq_true, beq_iff_eq, BitVec.toNat_setWidth, BitVec.toNat_ofNat]
    split
    next h =>
      simp at h
      simp
      omega
    next h =>
      simp at h
      simp
      omega

theorem isOk_eq {n : Nat} {x : AccessAnswer n} (h : AccessAnswer.isOk x = true) : ∃ v, x = .ok v := by
  cases x with
  | ok v => exact ⟨v, rfl⟩
  | pageFault code i => cases h
  | refused r => cases h

/-- Faults of `MemRead`: the segment's exception for a non-canonical byte, or a page fault that `Access` answered. -/
theorem memRead_eq_fault {seg : Segment} {la : Addr} {n : Nat} {s : State} {e : Fault}
    (h : memRead seg la n s = .fault e) :
    (canonicalRange s.cfg.vaBits.bits la.toNat n = false ∧ e = seg.nonCanonical s.rip) ∨
      ∃ code i, s.answer .read la.toNat n = .pageFault code i ∧
        e = .pf code (BitVec.ofNat 64 (la.toNat + i.val)) s.rip := by
  unfold memRead at h
  split at h
  · cases h
  · split at h
    next hc => exact .inl ⟨by simpa using hc, by simpa using h.symm⟩
    next hc =>
      rw [Answer.bind_eq_fault] at h
      rcases h with h | ⟨a, _, h⟩
      · exact .inr (access_eq_fault h)
      · cases h

/-- The bits of bytes with the first in the lowest place. -/
theorem leNumber_lt (bs : List Byte) : leNumber bs < 2 ^ (8 * bs.length) := by
  induction bs with
  | nil => simp [leNumber]
  | cons b bs ih =>
    have hb := b.isLt
    simp only [leNumber, List.length_cons, Nat.mul_add, Nat.pow_add]
    omega

/-- Byte `i` of a little-endian value. -/
theorem elem_leNumber (bs : List Byte) (n i : Nat) (hn : bs.length = n) (hi : i < n) :
    elem 8 (BitVec.ofNat (8 * n) (leNumber bs)) i = bs.getD i 0 := by
  subst hn
  induction bs generalizing i with
  | nil => simp at hi
  | cons b bs ih =>
    apply BitVec.eq_of_getLsbD_eq
    intro k hk
    have hb := b.isLt
    have hsplit : leNumber (b :: bs) = 2 ^ 8 * leNumber bs + b.toNat := by
      simp only [leNumber]
      omega
    rw [getLsbD_elem, BitVec.getLsbD_ofNat, hsplit, Nat.testBit_two_pow_mul_add _ hb]
    simp only [List.length_cons] at hi ⊢
    cases i with
    | zero =>
      simp [hk, BitVec.getLsbD, show k < 8 * (bs.length + 1) by omega]
    | succ i =>
      have hlt : i < bs.length := by omega
      have h2 := congrArg (fun x => BitVec.getLsbD x k) (ih i hlt)
      simp only [getLsbD_elem, BitVec.getLsbD_ofNat, hk, decide_true, Bool.true_and,
        show 8 * i + k < 8 * bs.length by omega] at h2
      simp only [hk, decide_true, Bool.true_and, show 8 * (i + 1) + k < 8 * (bs.length + 1) by omega,
        show ¬8 * (i + 1) + k < 8 by omega, if_false, List.getD_cons_succ,
        show 8 * (i + 1) + k - 8 = 8 * i + k by omega]
      exact h2

/-- What `MemRead` returns is memory's bytes from that address up, all below 2^64 (20_memory.md R55, R62). -/
theorem memRead_eq_ok {seg : Segment} {la : Addr} {n : Nat} {s : State} {v : BitVec (8 * n)}
    (h : memRead seg la n s = .ok v) : la.toNat + n ≤ 2 ^ 64 ∧ BytesFrom v n la.toNat s := by
  unfold memRead at h
  split at h
  · cases h
  next hw =>
    split at h
    · cases h
    · obtain ⟨bytes, ha, hv⟩ := Answer.bind_eq_ok.mp h
      have hb : bytes = Vector.ofFn fun i => s.mem.get (la.toNat + i.val) := by
        unfold access at ha
        split at ha
        next x hx =>
          cases ha
          exact State.eq_of_answer_ok hx
        · cases ha
        · cases ha
      refine ⟨by omega, fun b hlt => ?_⟩
      have hv' : v = BitVec.ofNat (8 * n) (leNumber bytes.toList) := by simpa using hv.symm
      rw [hv', elem_leNumber _ _ _ (by simp) hlt, hb]
      simp [hlt, List.getD_eq_getElem?_getD]

/-- `MemRead` of a range that can be read returns. -/
theorem memRead_of_readable {seg : Segment} {la : Addr} {n : Nat} {s : State} (h : readable la.toNat n s = true) :
    ∃ v, memRead seg la n s = .ok v := by
  simp only [readable, Bool.and_eq_true, decide_eq_true_eq] at h
  obtain ⟨⟨h1, h2⟩, h3⟩ := h
  obtain ⟨v, hv⟩ := isOk_eq h3
  refine ⟨BitVec.ofNat (8 * n) (leNumber v.toList), ?_⟩
  unfold memRead
  rw [if_neg (by omega), h2, access_of_ok hv]
  rfl

end Sys2Proof.Machine
end

