-- ==== Sys2Proof/Laws/Exec.lean ====
section
/-! SUPPORT. What an execution can answer, said once for all six forms, and the elements of what a form stores. -/

namespace Sys2Proof.Machine

/-! ## What an execution answers -/

/-- A form that is ready and has its operand completes: one new register and a new `rip`. -/
theorem execForm_ok {f : Form} {s : State} (h : Ready f s = true) (len : Nat) (dest : VReg) {n : Nat} (data : BitVec n)
    (result : BitVec n → BitVec n) :
    execForm f len dest (.ok data) result s =
      .next (s.withResult dest (((result data).setWidth s.cfg.maxvl).setWidth 512) (s.rip + BitVec.ofNat 64 len)) := by
  rw [execForm_of_ready h]
  rfl

/-- Two executions with the same checks and operand have the same outcome, up to a change of state that completing respects. -/
theorem execForm_map {f : Form} {len : Nat} {dest : VReg} {n : Nat} {src2 src2' : Answer (BitVec n)}
    {result result' : BitVec n → BitVec n} {s s' : State} {g : State → State}
    (hc : checkEnabled f s' = checkEnabled f s) (hs : src2' = src2)
    (hg : ∀ data, s'.complete dest len (result' data) = g (s.complete dest len (result data))) :
    execForm f len dest src2' result' s' = mapNext g (execForm f len dest src2 result s) := by
  unfold execForm
  rw [hc, hs]
  generalize (checkEnabled f s).bind (fun _ => src2) = x
  cases x with
  | ok a => exact congrArg _ (hg a)
  | fault e => rfl
  | refused r => rfl

/-- An operand with a non-canonical byte raises its segment's exception (60_exceptions.md R196). -/
theorem memRead_of_nonCanonical {seg : Segment} {la : Addr} {n : Nat} {s : State} (hw : la.toNat + n ≤ 2 ^ 64)
    (h : ∃ b < n, ¬IsCanonical s.cfg.vaBits.bits (la.toNat + b)) :
    memRead seg la n s = .fault (seg.nonCanonical s.rip) := by
  obtain ⟨b, hb, h⟩ := h
  have : canonicalRange s.cfg.vaBits.bits la.toNat n = false := by
    unfold canonicalRange
    rw [List.all_eq_false]
    refine ⟨b, by simpa using hb, ?_⟩
    rw [canonical_iff _ (by omega)]
    exact h
  unfold memRead
  rw [if_neg (by omega), this]
  rfl

/-- A canonical operand is read as `Access` answers (20_memory.md R55). -/
theorem memRead_of_canonical {seg : Segment} {la : Addr} {n : Nat} {s : State} (hw : la.toNat + n ≤ 2 ^ 64)
    (h : ∀ b < n, IsCanonical s.cfg.vaBits.bits (la.toNat + b)) :
    memRead seg la n s = (access .read la.toNat n s).bind fun bytes => .ok (BitVec.ofNat (8 * n) (leNumber bytes.toList)) := by
  have : canonicalRange s.cfg.vaBits.bits la.toNat n = true := by
    unfold canonicalRange
    rw [List.all_eq_true]
    intro b hb
    simp at hb
    rw [canonical_iff _ (by omega)]
    exact h b hb
  unfold memRead
  rw [if_neg (by omega), this]
  rfl

/-- What an instruction is made of: the shared execution sequence on its form, length and destination, with operand 3 a register's value or
what `MemRead` answers at its operand's address. -/
theorem exec_shape (i : Instr) (s : State) :
    ∃ result : Vec i.form.width i.form.count → Vec i.form.width i.form.count,
      match i.memAccess with
      | none => ∃ data, exec i s = execForm i.form i.length i.dest (.ok data) result s
      | some a => ∃ g : BitVec (8 * a.n) → Vec i.form.width i.form.count,
          exec i s = execForm i.form i.length i.dest
            ((memRead (segmentOf i.prefixes a.m) (operandAddress i a s) a.n s).bind fun v => .ok (g v)) result s := by
  cases i with
  | vpermdVex256 p d s1 src2 =>
    cases src2 with
    | reg r => exact ⟨_, _, rfl⟩
    | mem m => exact ⟨_, fun v => v.setWidth (32 * 8), rfl⟩
  | vpermdEvex256 p d s1 wm src2 =>
    cases src2 with
    | reg r => exact ⟨_, _, rfl⟩
    | mem m => exact ⟨_, fun v => v.setWidth (32 * 8), rfl⟩
    | bcst m => exact ⟨_, fun v => replicate 32 8 v, rfl⟩
  | vpermdEvex512 p d s1 wm src2 =>
    cases src2 with
    | reg r => exact ⟨_, _, rfl⟩
    | mem m => exact ⟨_, fun v => v.setWidth (32 * 16), rfl⟩
    | bcst m => exact ⟨_, fun v => replicate 32 16 v, rfl⟩
  | vpermwEvex128 p d s1 wm src2 =>
    cases src2 with
    | reg r => exact ⟨_, _, rfl⟩
    | mem m => exact ⟨_, fun v => v.setWidth (16 * 8), rfl⟩
  | vpermwEvex256 p d s1 wm src2 =>
    cases src2 with
    | reg r => exact ⟨_, _, rfl⟩
    | mem m => exact ⟨_, fun v => v.setWidth (16 * 16), rfl⟩
  | vpermwEvex512 p d s1 wm src2 =>
    cases src2 with
    | reg r => exact ⟨_, _, rfl⟩
    | mem m => exact ⟨_, fun v => v.setWidth (16 * 32), rfl⟩

/-- A completed instruction was ready, and its next state is the old one with the destination written and `rip` advanced. -/
theorem exec_eq_next {i : Instr} {s t : State} (h : exec i s = .next t) :
    Ready i.form s = true ∧ ∃ v : Vec i.form.width i.form.count, t = s.complete i.dest i.length v := by
  obtain ⟨result, hs⟩ := exec_shape i s
  split at hs
  · obtain ⟨data, hs⟩ := hs
    rw [hs, execForm_eq_next] at h
    obtain ⟨hr, data, _, rfl⟩ := h
    exact ⟨hr, _, rfl⟩
  · obtain ⟨g, hs⟩ := hs
    rw [hs, execForm_eq_next] at h
    obtain ⟨hr, data, _, rfl⟩ := h
    exact ⟨hr, _, rfl⟩

/-- A fault of an instruction is #UD or #NM of the checks, or one of its operand's read. -/
theorem exec_eq_fault {i : Instr} {s : State} {e : Fault} (h : exec i s = .fault e) :
    e = .ud s.rip ∨ e = .nm s.rip ∨
      Ready i.form s = true ∧ ∃ a, i.memAccess = some a ∧
        memRead (segmentOf i.prefixes a.m) (operandAddress i a s) a.n s = .fault e := by
  obtain ⟨result, hs⟩ := exec_shape i s
  split at hs
  · obtain ⟨data, hs⟩ := hs
    rw [hs] at h
    rcases execForm_eq_fault h with h | h | ⟨_, h⟩
    · exact .inl h
    · exact .inr (.inl h)
    · cases h
  next a ha =>
    obtain ⟨g, hs⟩ := hs
    rw [hs] at h
    rcases execForm_eq_fault h with h | h | ⟨hr, h⟩
    · exact .inl h
    · exact .inr (.inl h)
    · rw [Answer.bind_eq_fault] at h
      rcases h with h | ⟨_, _, h⟩
      · exact .inr (.inr ⟨hr, a, ha, h⟩)
      · cases h

/-- A ready instruction faults as its operand's read does. -/
theorem exec_of_memRead_fault {i : Instr} {s : State} {a : MemAccess} {e : Fault} (hr : Ready i.form s = true)
    (ha : i.memAccess = some a) (h : memRead (segmentOf i.prefixes a.m) (operandAddress i a s) a.n s = .fault e) :
    exec i s = .fault e := by
  obtain ⟨result, hs⟩ := exec_shape i s
  rw [ha] at hs
  obtain ⟨g, hs⟩ := hs
  rw [hs, execForm_of_ready hr, h]
  rfl

/-- A ready instruction is refused as its operand's read is. -/
theorem exec_of_memRead_refused {i : Instr} {s : State} {a : MemAccess} {r : Refusal} (hr : Ready i.form s = true)
    (ha : i.memAccess = some a) (h : memRead (segmentOf i.prefixes a.m) (operandAddress i a s) a.n s = .refused r) :
    exec i s = .refused r := by
  obtain ⟨result, hs⟩ := exec_shape i s
  rw [ha] at hs
  obtain ⟨g, hs⟩ := hs
  rw [hs, execForm_of_ready hr, h]
  rfl

/-- An instruction whose checks do not pass answers as they do. -/
theorem exec_of_checkEnabled {i : Instr} {s : State} :
    (∀ e, checkEnabled i.form s = .fault e → exec i s = .fault e) ∧
      ∀ r, checkEnabled i.form s = .refused r → exec i s = .refused r := by
  obtain ⟨result, hs⟩ := exec_shape i s
  split at hs
  · obtain ⟨data, hs⟩ := hs
    rw [hs]
    exact ⟨fun e h => by unfold execForm; rw [h]; rfl, fun e h => by unfold execForm; rw [h]; rfl⟩
  · obtain ⟨g, hs⟩ := hs
    rw [hs]
    exact ⟨fun e h => by unfold execForm; rw [h]; rfl, fun e h => by unfold execForm; rw [h]; rfl⟩


/-! ## The width of a register -/

theorem Config.maxvl_ge (c : Config) : 256 ≤ c.maxvl := by
  unfold Config.maxvl
  split
  next m _ => cases m <;> decide
  next => decide

theorem Config.maxvl_le (c : Config) : c.maxvl ≤ 512 := by
  unfold Config.maxvl
  split
  next m _ => cases m <;> decide
  next => decide

theorem Config.maxvl_of_avx512F {c : Config} (h : c.hasAvx512F = true) : c.maxvl = 512 := by
  unfold Config.hasAvx512F at h
  unfold Config.maxvl
  split at h
  · cases h
  · rfl

theorem Config.hasAvx512F_of_BW {c : Config} (h : c.hasAvx512BW = true) : c.hasAvx512F = true := by
  unfold Config.hasAvx512BW at h
  unfold Config.hasAvx512F
  split at h
  · cases h
  · rfl

theorem Ready.features {f : Form} {s : State} (h : Ready f s = true) : f.hasFeatures s.cfg = true := by
  simp only [Ready, Bool.and_eq_true] at h
  exact h.1.2

/-- The vector length of a form that is ready fits in a register (00_scope.md R7). -/
theorem Ready.maxvl {f : Form} {s : State} (h : Ready f s = true) : f.width * f.count ≤ s.cfg.maxvl := by
  have hf := Ready.features h
  cases f
  case vexD256 => exact Config.maxvl_ge _
  all_goals
    simp only [Form.hasFeatures, Bool.and_eq_true] at hf
    first
      | rw [Config.maxvl_of_avx512F hf]; decide
      | rw [Config.maxvl_of_avx512F hf.1]; decide
      | rw [Config.maxvl_of_avx512F (Config.hasAvx512F_of_BW hf)]; decide
      | rw [Config.maxvl_of_avx512F (Config.hasAvx512F_of_BW hf.1)]; decide

/-! ## The elements of a result -/

/-- Element `j` of a permutation (40_vpermd.md R141). -/
theorem elem_permute {w kl : Nat} (idx data : Vec w kl) {j : Nat} (hj : j < kl) :
    elem w (permute w kl idx data) j = elem w data (sel w kl idx j) := elem_ofElems _ hj

theorem elem_applyMask {w kl : Nat} (tmp old : Vec w kl) (wm : Writemask) (k : Vector (BitVec 64) 8) {j : Nat}
    (hj : j < kl) :
    elem w (applyMask w kl tmp old wm k) j =
      if wm.aaa = 0 ∨ (k.get wm.aaa).getLsbD j = true then elem w tmp j else if wm.z then 0 else elem w old j :=
  elem_ofElems _ hj

/-- The selector read from the low bits of a register is that of the register. -/
theorem sel_vec {w kl nb : Nat} (hn : Nat.log2 kl = nb) (hw : nb ≤ w) (s : State) (r : VReg) {j : Nat} (hj : j < kl) :
    sel w kl (s.vec w kl r) j = ((s.zmm.get r).extractLsb' (w * j) nb).toNat := by
  subst hn
  unfold sel State.vec
  congr 1
  apply BitVec.eq_of_getLsbD_eq
  intro i hi
  have h := Nat.mul_le_mul_left w (show j + 1 ≤ kl from hj)
  rw [Nat.mul_add] at h
  simp [hi, show w * j + i < w * kl by omega]

theorem elem_vec {w kl : Nat} (s : State) (r : VReg) {j : Nat} (hj : j < kl) :
    elem w (s.vec w kl r) j = elem w (s.zmm.get r) j := by
  have h := Nat.mul_le_mul_left w (show j + 1 ≤ kl from hj)
  rw [Nat.mul_add] at h
  exact elem_setWidth _ (by omega)

/-- The elements of what forms 2 to 6 compute are those that `maskedElem` names. -/
theorem elem_maskedPermute {w kl nb : Nat} (hn : Nat.log2 kl = nb) (hw : nb ≤ w) (dest src1 : VReg)
    (wm : Writemask) (s : State) (data : Vec w kl) {j : Nat} (hj : j < kl) :
    elem w (maskedPermute w kl dest src1 wm s data) j = maskedElem w nb s dest src1 wm data j := by
  unfold maskedPermute maskedElem
  rw [elem_applyMask _ _ _ _ hj, elem_permute _ _ hj, sel_vec hn hw _ _ hj, elem_vec _ _ hj]

/-- The elements of the value a register write stores. -/
theorem elem_stored {w kl : Nat} (s : State) (v : Vec w kl) (hm : w * kl ≤ s.cfg.maxvl) {j : Nat} (hj : j < kl) :
    elem w ((v.setWidth s.cfg.maxvl).setWidth 512) j = elem w v j := by
  have h5 := Config.maxvl_le s.cfg
  have h := Nat.mul_le_mul_left w (show j + 1 ≤ kl from hj)
  rw [Nat.mul_add] at h
  rw [elem_setWidth _ (by omega), elem_setWidth _ (by omega)]

/-- The value a register write stores has no bit at or above the width written. -/
theorem stored_lt (s : State) {n : Nat} (v : BitVec n) :
    ((v.setWidth s.cfg.maxvl).setWidth 512).toNat < 2 ^ n := by
  simp only [BitVec.toNat_setWidth]
  exact lt_of_le_of_lt ((Nat.mod_le _ _).trans (Nat.mod_le _ _)) v.isLt

/-! ## Operands that can be read -/

theorem loadBytes_of_readable {p : Prefixes} {N len n : Nat} {m : MemOp} {s : State}
    (h : readable (linearAddress p N len m s).toNat n s = true) :
    ∃ v, loadBytes p N len n m s = .ok v ∧ BytesFrom v n (linearAddress p N len m s).toNat s := by
  obtain ⟨v, hv⟩ := memRead_of_readable (seg := segmentOf p m) h
  exact ⟨v, hv, (memRead_eq_ok hv).2⟩

theorem loadFullMem_of_readable {p : Prefixes} {N len w kl n : Nat} {m : MemOp} {s : State}
    (hn : w * kl / 8 = n) (h8 : 8 * n = w * kl)
    (h : readable (linearAddress p N len m s).toNat n s = true) :
    ∃ data, loadFullMem p N len w kl m s = .ok data ∧ BytesFrom data n (linearAddress p N len m s).toNat s := by
  subst hn
  obtain ⟨v, hv, hb⟩ := loadBytes_of_readable h
  unfold loadFullMem
  rw [hv]
  exact ⟨_, rfl, fun b hlt => by rw [elem_setWidth _ (by omega)]; exact hb b hlt⟩

theorem loadBroadcast_of_readable {p : Prefixes} {len kl : Nat} {m : MemOp} {s : State}
    (h : readable (linearAddress p 4 len m s).toNat 4 s = true) :
    ∃ data, loadBroadcast p len kl m s = .ok data ∧
      ∀ j < kl, BytesFrom (elem 32 data j) 4 (linearAddress p 4 len m s).toNat s := by
  obtain ⟨v, hv, hb⟩ := loadBytes_of_readable h
  unfold loadBroadcast
  rw [hv]
  exact ⟨_, rfl, fun j hj => by rw [elem_replicate _ hj]; exact hb⟩

end Sys2Proof.Machine
end

