-- ==== Sys2Proof/Laws/Fetch.lean ====
section
/-! SUPPORT. Fetching: bytes that can be fetched, and what a step does with each result of decoding. -/

namespace Sys2Proof.Machine

/-! ## One byte -/

/-- A canonical byte below 2^64 is fetched as `Access` answers. -/
theorem fetchByte_of_canonical {a : Nat} {s : State} (h : a < 2 ^ 64) (hc : canonical s.cfg.vaBits.bits a = true) :
    fetchByte a s = (access .fetch a 1 s).bind fun bytes => .ok bytes[0] := by
  unfold fetchByte
  rw [if_neg (by omega), hc]
  rfl

theorem fetchByte_of_nonCanonical {a : Nat} {s : State} (h : a < 2 ^ 64)
    (hc : canonical s.cfg.vaBits.bits a = false) : fetchByte a s = .fault (.gp0 s.rip) := by
  unfold fetchByte
  rw [if_neg (by omega), hc]
  rfl

theorem fetchByte_of_wrap {a : Nat} {s : State} (h : 2 ^ 64 ≤ a) : fetchByte a s = .refused .codeWrap := by
  unfold fetchByte
  rw [if_pos h]

/-- A fault of a fetch is #GP(0) or a page fault that `Access` answered. -/
theorem fetchByte_eq_fault {a : Nat} {s : State} {e : Fault} (h : fetchByte a s = .fault e) :
    e = .gp0 s.rip ∨
      ∃ code i, s.answer .fetch a 1 = .pageFault code i ∧ e = .pf code (BitVec.ofNat 64 (a + i.val)) s.rip := by
  unfold fetchByte at h
  split at h
  · cases h
  · split at h
    · exact .inl (by simpa using h.symm)
    · rw [Answer.bind_eq_fault] at h
      rcases h with h | ⟨v, _, h⟩
      · exact .inr (access_eq_fault h)
      · cases h

/-! ## Bytes that can be fetched -/

/-- The first bytes of fetchable bytes are fetchable. -/
theorem CodeAt.take {a : Nat} {bs : List Byte} {s : State} (h : CodeAt a bs s = true) (k : Nat) :
    CodeAt a (bs.take k) s = true := by
  induction bs generalizing a k with
  | nil => simp [CodeAt]
  | cons b bs ih =>
    cases k with
    | zero => simp [CodeAt]
    | succ k =>
      simp only [CodeAt, Bool.and_eq_true] at h
      simp only [List.take_succ_cons, CodeAt, Bool.and_eq_true]
      exact ⟨h.1, ih h.2 k⟩

/-- Fetchable bytes lie below 2^64. -/
theorem CodeAt.le {a : Nat} {bs : List Byte} {s : State} (h : CodeAt a bs s = true) (ha : a ≤ 2 ^ 64) :
    a + bs.length ≤ 2 ^ 64 := by
  induction bs generalizing a with
  | nil => simpa using ha
  | cons b bs ih =>
    simp only [CodeAt, Bool.and_eq_true, decide_eq_true_eq] at h
    have := ih h.2 (by omega)
    simp only [List.length_cons]
    omega

/-- Fetchable bytes are the same in a state whose accesses are answered alike. -/
theorem CodeAt.congr {s t : State} (h : SameAccess s t) (hc : t.cfg = s.cfg) (a : Nat) (bs : List Byte) :
    CodeAt a bs t = CodeAt a bs s := by
  induction bs generalizing a with
  | nil => rfl
  | cons b bs ih => simp only [CodeAt, ih, hc, h .fetch a 1]

/-! ## An instruction -/

/-- After bytes that leave the decoder asking, more bytes that can be fetched are fetched as long as it asks, and the first result it has
decides; bytes that leave it asking still are passed over. -/
theorem fetchInstr_of_codeAt {left : Nat} {pre bs : List Byte} {s : State}
    (h : CodeAt (s.rip.toNat + pre.length) bs s = true) (hp : decode pre = .truncated) :
    fetchInstr (bs.length + left) pre s = match decode (pre ++ bs) with
      | .instr i _ => .ok i
      | .ud _ => .fault (.ud s.rip)
      | .gpLen => .fault (.gp0 s.rip)
      | .prefixRun => .refused .prefixRun
      | .notInScope => .refused .notInScope
      | .truncated => fetchInstr left (pre ++ bs) s := by
  induction bs generalizing pre with
  | nil => simp [hp]
  | cons b bs ih =>
    simp only [CodeAt, Bool.and_eq_true, decide_eq_true_eq, beq_iff_eq] at h
    obtain ⟨⟨⟨h1, h2⟩, h3⟩, h4⟩ := h
    rw [show (b :: bs).length + left = (bs.length + left) + 1 by simp only [List.length_cons]; omega, fetchInstr,
      fetchByte_of_canonical h1 h2, access_of_ok h3, show pre ++ b :: bs = (pre ++ [b]) ++ bs by simp]
    show (match decode (pre ++ [b]) with
      | .instr i _ => Answer.ok i
      | .ud _ => raise .ud s
      | .gpLen => raise .gp0 s
      | .prefixRun => .refused .prefixRun
      | .notInScope => .refused .notInScope
      | .truncated => fetchInstr (bs.length + left) (pre ++ [b]) s) = _
    by_cases ht : decode (pre ++ [b]) = .truncated
    · simpa only [ht] using ih (pre := pre ++ [b]) (by simpa [Nat.add_assoc] using h4) ht
    · rw [decode_append ht]
      cases hd : decode (pre ++ [b]) with
      | truncated => exact absurd hd ht
      | _ => rfl

/-- A fault of the fetch is #UD, #GP(0), or a page fault that `Access` answered. -/
theorem fetchInstr_eq_fault {left : Nat} {bytes : List Byte} {s : State} {e : Fault}
    (h : fetchInstr left bytes s = .fault e) :
    e = .ud s.rip ∨ e = .gp0 s.rip ∨
      ∃ a code i, s.answer .fetch a 1 = .pageFault code i ∧ e = .pf code (BitVec.ofNat 64 (a + i.val)) s.rip := by
  induction left generalizing bytes with
  | zero => cases h
  | succ left ih =>
    rw [fetchInstr, Answer.bind_eq_fault] at h
    rcases h with h | ⟨b, _, h⟩
    · rcases fetchByte_eq_fault h with h | ⟨code, i, h⟩
      · exact .inr (.inl h)
      · exact .inr (.inr ⟨_, code, i, h⟩)
    · split at h
      · cases h
      · exact .inl (by simpa using h.symm)
      · exact .inr (.inl (by simpa using h.symm))
      · cases h
      · cases h
      · exact ih h

/-- States with the same `rip` and configuration whose accesses are answered alike fetch alike. -/
theorem fetchInstr_congr {s t : State} (h : SameAccess s t) (hr : t.rip = s.rip) (hc : t.cfg = s.cfg) (left : Nat)
    (bytes : List Byte) : fetchInstr left bytes t = fetchInstr left bytes s := by
  induction left generalizing bytes with
  | zero => rfl
  | succ left ih =>
    have hb : fetchByte (s.rip.toNat + bytes.length) t = fetchByte (s.rip.toNat + bytes.length) s := by
      unfold fetchByte
      rw [access_congr h hr, hc]
      simp [hr]
    rw [fetchInstr, fetchInstr, hr, hb]
    simp only [ih, raise_eq, hr]

/-! ## A step -/

/-- A fault of the fetch is the step's. -/
theorem step_of_fault {s : State} {e : Fault} (h : nextInstr s = .fault e) : step s = .fault e := by
  simp only [step, h]

/-- A refusal of the fetch is the step's. -/
theorem step_of_refused {s : State} {r : Refusal} (h : nextInstr s = .refused r) : step s = .refused r := by
  simp only [step, h]

/-- Bytes at `rip` that can be fetched and that settle the decode result decide the step; said once for every result. -/
theorem step_of_codeAt {s : State} {bs : List Byte} (hm : s.mode64 = true) (h : CodeAt s.rip.toNat bs s = true)
    (ht : decode bs ≠ .truncated) :
    step s = match decode bs with
      | .instr i _ => exec i s
      | .ud _ => .fault (.ud s.rip)
      | .gpLen => .fault (.gp0 s.rip)
      | .prefixRun => .refused .prefixRun
      | .notInScope => .refused .notInScope
      | .truncated => step s := by
  have hl := CodeAt.le h s.rip.isLt.le
  have hf := fetchInstr_of_codeAt (left := 2 ^ 64 - s.rip.toNat - bs.length) (pre := []) (bs := bs) (s := s)
    (by simpa using h) rfl
  rw [show bs.length + (2 ^ 64 - s.rip.toNat - bs.length) = 2 ^ 64 - s.rip.toNat by omega, List.nil_append] at hf
  unfold step nextInstr
  rw [if_pos hm, hf]
  cases hd : decode bs with
  | truncated => exact absurd hd ht
  | _ => rfl

/-- A byte that the decoder needs and cannot get ends the step. -/
theorem step_of_needsByte {s : State} {n : Nat} (h : NeedsByte s n) :
    (∀ e, fetchByte (s.rip.toNat + n) s = .fault e → step s = .fault e) ∧
      ∀ r, fetchByte (s.rip.toNat + n) s = .refused r → step s = .refused r := by
  obtain ⟨hm, bs, rfl, hc, hd⟩ := h
  have hl := CodeAt.le hc s.rip.isLt.le
  have hf := fetchInstr_of_codeAt (left := 2 ^ 64 - s.rip.toNat - bs.length) (pre := []) (bs := bs) (s := s)
    (by simpa using hc) rfl
  rw [show bs.length + (2 ^ 64 - s.rip.toNat - bs.length) = 2 ^ 64 - s.rip.toNat by omega, List.nil_append, hd] at hf
  have hn : nextInstr s = fetchInstr (2 ^ 64 - s.rip.toNat - bs.length) bs s := by
    unfold nextInstr
    rw [if_pos hm]
    exact hf
  rcases Nat.lt_or_ge (s.rip.toNat + bs.length) (2 ^ 64) with hw | hw
  · obtain ⟨left, hleft⟩ : ∃ left, 2 ^ 64 - s.rip.toNat - bs.length = left + 1 :=
      ⟨2 ^ 64 - s.rip.toNat - bs.length - 1, by omega⟩
    rw [hleft, fetchInstr] at hn
    exact ⟨fun e he => step_of_fault (by simp only [hn, he, Answer.bind_fault]),
      fun r hr => step_of_refused (by simp only [hn, hr, Answer.bind_refused])⟩
  · rw [show 2 ^ 64 - s.rip.toNat - bs.length = 0 by omega] at hn
    rw [fetchByte_of_wrap hw]
    constructor <;> intro _ hx <;> cases hx
    exact step_of_refused hn

end Sys2Proof.Machine
end

