-- ==== Sys2Proof/Laws/Memory.lean ====
section
/-! SUPPORT. The laws of memory: a read after a write, the canonical form, and equal memories being equal data. -/

namespace Sys2Proof.Machine

@[simp] theorem Memory.get_nil (a : Nat) : Memory.get [] a = Memory.blank := rfl

theorem Memory.get_cons (a : Nat) (b : Byte) (m : Memory) (x : Nat) :
    Memory.get ((a, b) :: m) x = if a = x then b else m.get x := rfl

theorem Memory.get_cell_append (a : Nat) (v : Byte) (m : Memory) (x : Nat) :
    Memory.get (Memory.cell a v ++ m) x =
      if a = x ∧ v ≠ Memory.blank then v else m.get x := by
  unfold Memory.cell
  by_cases hv : v = Memory.blank <;> by_cases ha : a = x <;> simp [hv, ha, Memory.get_cons]

/-- Below the first address a canonical memory may list, every byte is blank. -/
theorem Memory.get_of_lt {lo : Nat} {m : Memory} (h : Memory.wfFrom lo m = true) {x : Nat} (hx : x < lo) :
    m.get x = Memory.blank := by
  induction m generalizing lo with
  | nil => rfl
  | cons c m ih =>
    obtain ⟨a, b⟩ := c
    simp only [Memory.wfFrom, Bool.and_eq_true, decide_eq_true_eq] at h
    obtain ⟨⟨⟨h1, _⟩, _⟩, h4⟩ := h
    rw [Memory.get_cons, if_neg (by omega)]
    exact ih h4 (by omega)

theorem Memory.wfFrom_weaken {lo lo' : Nat} {m : Memory} (h : Memory.wfFrom lo m = true) (hl : lo' ≤ lo) :
    Memory.wfFrom lo' m = true := by
  cases m with
  | nil => rfl
  | cons c m =>
    simp only [Memory.wfFrom, Bool.and_eq_true, decide_eq_true_eq] at h ⊢
    exact ⟨⟨⟨by omega, h.1.1.2⟩, h.1.2⟩, h.2⟩

/-- A read after a write. -/
theorem Memory.get_set {lo : Nat} {m : Memory} (h : Memory.wfFrom lo m = true) (a : Nat) (v : Byte) (x : Nat) :
    (m.set a v).get x = if a = x then v else m.get x := by
  induction m generalizing lo with
  | nil =>
    simp only [Memory.set]
    rw [← List.append_nil (Memory.cell a v), Memory.get_cell_append]
    by_cases ha : a = x <;> by_cases hv : v = Memory.blank <;> simp [ha, hv]
  | cons c m ih =>
    obtain ⟨a', b⟩ := c
    have h' := h
    simp only [Memory.wfFrom, Bool.and_eq_true, decide_eq_true_eq] at h
    obtain ⟨⟨⟨_, _⟩, _⟩, h4⟩ := h
    simp only [Memory.set]
    split
    next hlt =>
      have hb : Memory.get ((a', b) :: m) a = Memory.blank := by
        rw [Memory.get_cons, if_neg (by omega)]
        exact Memory.get_of_lt h4 (by omega)
      rw [Memory.get_cell_append]
      by_cases ha : a = x
      · subst ha
        by_cases hv : v = Memory.blank
        · simp [hv, hb]
        · simp [hv]
      · simp [ha]
    next hlt =>
      split
      next heq =>
        subst heq
        rw [Memory.get_cell_append, Memory.get_cons]
        by_cases ha : a = x
        · subst ha
          by_cases hv : v = Memory.blank
          · simp [hv, Memory.get_of_lt h4 (show a < a + 1 by omega)]
          · simp [hv]
        · simp [ha]
      next hne =>
        rw [Memory.get_cons, ih h4, Memory.get_cons]
        by_cases ha : a' = x
        · subst ha
          simp [hne]
        · simp [ha]

theorem Memory.wfFrom_cell_append {lo a : Nat} {v : Byte} {m : Memory} (ha : lo ≤ a) (hb : a < 2 ^ 64)
    (hm : Memory.wfFrom (a + 1) m = true) : Memory.wfFrom lo (Memory.cell a v ++ m) = true := by
  unfold Memory.cell
  split
  · exact Memory.wfFrom_weaken hm (by omega)
  next hv =>
    simp only [List.cons_append, List.nil_append, Memory.wfFrom, Bool.and_eq_true, decide_eq_true_eq]
    exact ⟨⟨⟨ha, hb⟩, hv⟩, hm⟩

theorem Memory.wfFrom_set {lo : Nat} {m : Memory} (h : Memory.wfFrom lo m = true) {a : Nat} (ha : a < 2 ^ 64)
    (hlo : lo ≤ a) (v : Byte) : Memory.wfFrom lo (m.set a v) = true := by
  induction m generalizing lo with
  | nil =>
    simp only [Memory.set]
    rw [← List.append_nil (Memory.cell a v)]
    exact Memory.wfFrom_cell_append hlo ha rfl
  | cons c m ih =>
    obtain ⟨a', b⟩ := c
    have h' := h
    simp only [Memory.wfFrom, Bool.and_eq_true, decide_eq_true_eq] at h
    obtain ⟨⟨⟨h1, h2⟩, h3⟩, h4⟩ := h
    simp only [Memory.set]
    split
    next hlt =>
      refine Memory.wfFrom_cell_append hlo ha ?_
      simp only [Memory.wfFrom, Bool.and_eq_true, decide_eq_true_eq]
      exact ⟨⟨⟨by omega, h2⟩, h3⟩, h4⟩
    next hlt =>
      split
      next heq =>
        subst heq
        exact Memory.wfFrom_cell_append hlo ha h4
      next hne =>
        simp only [Memory.wfFrom, Bool.and_eq_true, decide_eq_true_eq]
        exact ⟨⟨⟨h1, h2⟩, h3⟩, ih h4 (by omega)⟩

/-- A write keeps the canonical form. -/
theorem Memory.wf_set {m : Memory} (h : m.wf = true) {a : Nat} (ha : a < 2 ^ 64) (v : Byte) : (m.set a v).wf = true :=
  Memory.wfFrom_set h ha (Nat.zero_le _) v

/-- Writing bytes within the address space keeps the canonical form. -/
theorem Memory.wf_setBytes {m : Memory} (h : m.wf = true) {a : Nat} (bs : List Byte) (ha : a + bs.length ≤ 2 ^ 64) :
    (m.setBytes a bs).wf = true := by
  induction bs generalizing m a with
  | nil => exact h
  | cons b bs ih =>
    simp only [List.length_cons] at ha
    exact ih (Memory.wf_set h (by omega) b) (by omega)

/-- Reading back bytes that were written. -/
theorem Memory.get_setBytes {m : Memory} (h : m.wf = true) {a : Nat} (bs : List Byte) (ha : a + bs.length ≤ 2 ^ 64)
    (x : Nat) : (m.setBytes a bs).get x = if a ≤ x then (bs[x - a]?).getD (m.get x) else m.get x := by
  induction bs generalizing m a with
  | nil => simp [Memory.setBytes]
  | cons b bs ih =>
    simp only [List.length_cons] at ha
    rw [Memory.setBytes, ih (Memory.wf_set h (by omega) b) (by omega), Memory.get_set h]
    rcases Nat.lt_trichotomy x a with hx | hx | hx
    · simp [show ¬a + 1 ≤ x by omega, show ¬a ≤ x by omega, show a ≠ x by omega]
    · simp [hx]
    · obtain ⟨n, hn⟩ : ∃ n, x - a = n + 1 := ⟨x - a - 1, by omega⟩
      have hn' : x - (a + 1) = n := by omega
      simp [show a + 1 ≤ x by omega, show a ≤ x by omega, show a ≠ x by omega, hn, hn']

/-- Canonical memories that read the same are the same data. -/
theorem Memory.ext_get {lo : Nat} {m m' : Memory} (h : Memory.wfFrom lo m = true) (h' : Memory.wfFrom lo m' = true)
    (e : ∀ x, m.get x = m'.get x) : m = m' := by
  induction m generalizing lo m' with
  | nil =>
    cases m' with
    | nil => rfl
    | cons c m' =>
      obtain ⟨a, b⟩ := c
      simp only [Memory.wfFrom, Bool.and_eq_true, decide_eq_true_eq] at h'
      have := e a
      simp [Memory.get_cons] at this
      exact absurd this.symm h'.1.2
  | cons c m ih =>
    obtain ⟨a, b⟩ := c
    have hw := h
    simp only [Memory.wfFrom, Bool.and_eq_true, decide_eq_true_eq] at h
    cases m' with
    | nil =>
      have := e a
      simp [Memory.get_cons] at this
      exact absurd this h.1.2
    | cons c' m' =>
      obtain ⟨a', b'⟩ := c'
      have hw' := h'
      simp only [Memory.wfFrom, Bool.and_eq_true, decide_eq_true_eq] at h'
      have haa : a = a' := by
        rcases Nat.lt_trichotomy a a' with hx | hx | hx
        · have h1 := e a
          rw [Memory.get_cons, if_pos rfl, Memory.get_cons, if_neg (by omega),
            Memory.get_of_lt h'.2 (by omega)] at h1
          exact absurd h1 h.1.2
        · exact hx
        · have h1 := e a'
          rw [Memory.get_cons, if_neg (by omega), Memory.get_of_lt h.2 (by omega), Memory.get_cons,
            if_pos rfl] at h1
          exact absurd h1.symm h'.1.2
      subst haa
      have hbb : b = b' := by simpa [Memory.get_cons] using e a
      subst hbb
      congr 1
      refine ih h.2 h'.2 fun x => ?_
      by_cases hx : x < a + 1
      · rw [Memory.get_of_lt h.2 hx, Memory.get_of_lt h'.2 hx]
      · have := e x
        rwa [Memory.get_cons, if_neg (by omega), Memory.get_cons, if_neg (by omega)] at this

end Sys2Proof.Machine
end

