-- ==== Sys2Proof/Laws/PerInstr.lean ====
section
/-! SUPPORT. Statements for all instructions, one lemma per constructor: the encoder writes as many bytes as R111 counts, and their
number is from 5 to 13 (30_encoding.md R81, R111). -/

namespace Sys2Proof.Laws.EncodedLength

/-- The encoding has the length of R111, which lies from 5 to 13. -/
def Statement (i : Instr) : Prop := (encode i).length = i.length ∧ 5 ≤ i.length ∧ i.length ≤ 13

theorem vpermdVex256 (p : Prefixes) (dest src1 : VReg16) (src2 : VexSrc) : Statement (.vpermdVex256 p dest src1 src2) := by
  have h1 := p.length_le
  have h2 := src2.length_le
  refine ⟨?_, ?_, ?_⟩ <;> simp only [encode, encodeVex_length, src2.bits_tail_length, Instr.length] <;> omega

theorem vpermdEvex256 (p : Prefixes) (dest src1 : VReg) (wm : Writemask) (src2 : FullSrc) :
    Statement (.vpermdEvex256 p dest src1 wm src2) := by
  have h1 := p.length_le
  have h2 := src2.length_le
  refine ⟨?_, ?_, ?_⟩ <;> simp only [encode, encodeEvex_length, src2.bits_tail_length, Instr.length] <;> omega

theorem vpermdEvex512 (p : Prefixes) (dest src1 : VReg) (wm : Writemask) (src2 : FullSrc) :
    Statement (.vpermdEvex512 p dest src1 wm src2) := by
  have h1 := p.length_le
  have h2 := src2.length_le
  refine ⟨?_, ?_, ?_⟩ <;> simp only [encode, encodeEvex_length, src2.bits_tail_length, Instr.length] <;> omega

theorem vpermwEvex128 (p : Prefixes) (dest src1 : VReg) (wm : Writemask) (src2 : FullMemSrc) :
    Statement (.vpermwEvex128 p dest src1 wm src2) := by
  have h1 := p.length_le
  have h2 := src2.length_le
  refine ⟨?_, ?_, ?_⟩ <;> simp only [encode, encodeEvex_length, src2.bits_tail_length, Instr.length] <;> omega

theorem vpermwEvex256 (p : Prefixes) (dest src1 : VReg) (wm : Writemask) (src2 : FullMemSrc) :
    Statement (.vpermwEvex256 p dest src1 wm src2) := by
  have h1 := p.length_le
  have h2 := src2.length_le
  refine ⟨?_, ?_, ?_⟩ <;> simp only [encode, encodeEvex_length, src2.bits_tail_length, Instr.length] <;> omega

theorem vpermwEvex512 (p : Prefixes) (dest src1 : VReg) (wm : Writemask) (src2 : FullMemSrc) :
    Statement (.vpermwEvex512 p dest src1 wm src2) := by
  have h1 := p.length_le
  have h2 := src2.length_le
  refine ⟨?_, ?_, ?_⟩ <;> simp only [encode, encodeEvex_length, src2.bits_tail_length, Instr.length] <;> omega

end Sys2Proof.Laws.EncodedLength
end

