-- ==== Sys2Proof/Tests/Slice0.lean ====
section
/-! SUPPORT. The model's own tests. Expected results are the vectors of 95_test_vectors.md or follow by hand from the rules named; the last
part shows, for every statement with hypotheses, states and operands that meet them. -/

namespace Sys2Proof.Tests

open Sys2Proof.Machine

/-! ## Helpers -/

/-- Elements written element 0 first, as one register of 512 bits. -/
def packed (w : Nat) (xs : List Nat) : Zmm := BitVec.ofNat 512 (xs.foldr (fun x acc => x % 2 ^ w + 2 ^ w * acc) 0)

def noPrefix : Prefixes := ⟨false, .none⟩

def unmasked : Writemask := ⟨0, false⟩

/-- A launch at an address with these bytes there. -/
def codeAt (a : Addr) (bytes : List Byte) : State := { State.launch with rip := a }.placeBytes a bytes

/-- A launch at 1000H. -/
def code (bytes : List Byte) : State := codeAt 0x1000 bytes

def withZmm (r : VReg) (v : Zmm) (s : State) : State := { s with zmm := s.zmm.set r.val v r.isLt }

def withK (a : Fin 8) (v : BitVec 64) (s : State) : State := { s with k := s.k.set a.val v a.isLt }

def withGpr (r : Gpr) (v : Addr) (s : State) : State := { s with gpr := s.gpr.set r.val v r.isLt }

/-- The state on another platform. -/
def withPlatform (p : Platform) (s : State) : State := { s with cfg := { s.cfg with platform := p } }

def withMap (m : List Region) (s : State) : State := withPlatform (.ranges m) s

def withFeatures (avx2 : Bool) (f : Avx512) (s : State) : State :=
  { s with cfg := { s.cfg with hasAvx2 := avx2, avx512 := f } }

/-- Pages that fault for every access, with P = 0 and I/D reported. -/
def faulting (base size : Nat) : Region := ⟨base, size, true, true, true, true, .pageFault ⟨false, false, false, true⟩⟩

/-- A page fault of operand loads below CPL 3 only. -/
def supervisorOnly (base size : Nat) : Region :=
  ⟨base, size, false, true, true, false, .pageFault ⟨true, false, false, false⟩⟩

/-- Memory whose reads and fetches have side effects. -/
def device (base size : Nat) : Region := ⟨base, size, true, true, true, true, .refused .sideEffects⟩

/-- Linear addresses that are mapped to no memory. -/
def hole (base size : Nat) : Region := ⟨base, size, true, true, true, true, .refused .unallocated⟩

def nextOf : Host.Outcome State Fault Refusal → Option State
  | .next s => some s
  | _ => none

def faultOf : Host.Outcome State Fault Refusal → Option Fault
  | .fault f => some f
  | _ => none

def refusalOf : Host.Outcome State Fault Refusal → Option Refusal
  | .refused r => some r
  | _ => none

/-- A register and `rip` of the next state. -/
def resultOf (r : VReg) (s : State) : Option (Zmm × Addr) := (nextOf (step s)).map fun t => (t.zmm.get r, t.rip)

/-! ## Well-formedness: one ill-formed term for each check -/

theorem test_wf_accepts : (Instr.vpermdVex256 noPrefix 0 1 (.mem (.sib 4 (some 12) 0 .none))).wf = true := by decide

/-- Base RSP or r12 needs a SIB byte. -/
theorem test_wf_base_low_four : (Instr.vpermdVex256 noPrefix 0 1 (.mem (.based 12 .none))).wf = false := by decide

/-- Base RBP or r13 needs a displacement. -/
theorem test_wf_base_low_five : (Instr.vpermdEvex256 noPrefix 0 1 unmasked (.mem (.based 13 .none))).wf = false := by decide

theorem test_wf_sib_base_low_five : (Instr.vpermdEvex512 noPrefix 0 1 unmasked (.bcst (.sib 5 none 0 .none))).wf = false := by
  decide

/-- RSP is no index. -/
theorem test_wf_sib_index_four :
    (Instr.vpermwEvex128 noPrefix 0 1 unmasked (.mem (.sib 0 (some 4) 0 .none))).wf = false := by decide

theorem test_wf_no_base_index_four :
    (Instr.vpermwEvex256 noPrefix 0 1 unmasked (.mem (.sibNoBase (some 4) 0 0))).wf = false := by decide

/-- Zeroing needs a mask register. -/
theorem test_wf_zeroing_no_mask : (Instr.vpermwEvex512 noPrefix 0 1 ⟨0, true⟩ (.reg 2)).wf = false := by decide

/-! ## Decoding: words written out from 30_encoding.md, as 95_test_vectors.md section 1 lists them -/

/-- VE1, VE2, VE3, VE4, VE6: form 1. -/
theorem test_decode_vpermdVex256 :
    decode [0xC4, 0xE2, 0x75, 0x36, 0xC2] = .instr (.vpermdVex256 noPrefix 0 1 (.reg 2)) 5 ∧
      decode [0xC4, 0x42, 0x35, 0x36, 0xC2] = .instr (.vpermdVex256 noPrefix 8 9 (.reg 10)) 5 ∧
      decode [0xC4, 0xE2, 0x75, 0x36, 0x00] = .instr (.vpermdVex256 noPrefix 0 1 (.mem (.based 0 .none))) 5 ∧
      decode [0xC4, 0xE2, 0x75, 0x36, 0x05, 0x00, 0x01, 0x00, 0x00] =
        .instr (.vpermdVex256 noPrefix 0 1 (.mem (.ripRel 256))) 9 ∧
      decode [0xC4, 0xE2, 0x75, 0x36, 0x04, 0x25, 0x00, 0x10, 0x00, 0x00] =
        .instr (.vpermdVex256 noPrefix 0 1 (.mem (.sibNoBase none 0 4096))) 10 := by decide

/-- VE8, VE9, VE10: form 2. -/
theorem test_decode_vpermdEvex256 :
    decode [0x62, 0xF2, 0x75, 0x28, 0x36, 0xC2] = .instr (.vpermdEvex256 noPrefix 0 1 unmasked (.reg 2)) 6 ∧
      decode [0x62, 0xF2, 0x75, 0xA9, 0x36, 0xC2] = .instr (.vpermdEvex256 noPrefix 0 1 ⟨1, true⟩ (.reg 2)) 6 ∧
      decode [0x62, 0xF2, 0x75, 0x29, 0x36, 0xC2] = .instr (.vpermdEvex256 noPrefix 0 1 ⟨1, false⟩ (.reg 2)) 6 := by
  decide

/-- VE13, VE14, VE16, VE17: form 3. -/
theorem test_decode_vpermdEvex512 :
    decode [0x62, 0xF2, 0x75, 0xC9, 0x36, 0x40, 0x01] =
        .instr (.vpermdEvex512 noPrefix 0 1 ⟨1, true⟩ (.mem (.based 0 (.d8 1)))) 7 ∧
      decode [0x62, 0xF2, 0x75, 0xD9, 0x36, 0x40, 0x10] =
        .instr (.vpermdEvex512 noPrefix 0 1 ⟨1, true⟩ (.bcst (.based 0 (.d8 0x10)))) 7 ∧
      decode [0x62, 0xF2, 0x75, 0x48, 0x36, 0x80, 0x41, 0x00, 0x00, 0x00] =
        .instr (.vpermdEvex512 noPrefix 0 1 unmasked (.mem (.based 0 (.d32 65)))) 10 ∧
      decode [0x62, 0xB2, 0x75, 0x48, 0x36, 0x04, 0x20] =
        .instr (.vpermdEvex512 noPrefix 0 1 unmasked (.mem (.sib 0 (some 12) 0 .none))) 7 := by decide

/-- VE19, VE20: form 4. -/
theorem test_decode_vpermwEvex128 :
    decode [0x62, 0xF2, 0xF5, 0x08, 0x8D, 0xC2] = .instr (.vpermwEvex128 noPrefix 0 1 unmasked (.reg 2)) 6 ∧
      decode [0x62, 0xF2, 0xF5, 0x89, 0x8D, 0xC2] = .instr (.vpermwEvex128 noPrefix 0 1 ⟨1, true⟩ (.reg 2)) 6 := by decide

/-- VE22: form 5. -/
theorem test_decode_vpermwEvex256 :
    decode [0x62, 0xF2, 0xF5, 0x28, 0x8D, 0xC2] = .instr (.vpermwEvex256 noPrefix 0 1 unmasked (.reg 2)) 6 := by decide

/-- VE24, VE26: form 6. -/
theorem test_decode_vpermwEvex512 :
    decode [0x62, 0x02, 0x95, 0x40, 0x8D, 0xF4] = .instr (.vpermwEvex512 noPrefix 30 29 unmasked (.reg 28)) 6 ∧
      decode [0x62, 0xF2, 0xED, 0x48, 0x8D, 0x0D, 0x40, 0x00, 0x00, 0x00] =
        .instr (.vpermwEvex512 noPrefix 1 2 unmasked (.mem (.ripRel 64))) 10 := by decide

/-- VE27, VE28, VE29: the admitted prefixes. -/
theorem test_decode_prefixes :
    decode [0x64, 0xC4, 0xE2, 0x75, 0x36, 0x00] =
        .instr (.vpermdVex256 ⟨false, .fs⟩ 0 1 (.mem (.based 0 .none))) 6 ∧
      decode [0x67, 0xC4, 0xE2, 0x75, 0x36, 0x00] =
        .instr (.vpermdVex256 ⟨true, .none⟩ 0 1 (.mem (.based 0 .none))) 6 ∧
      decode [0x64, 0x67, 0xC4, 0xE2, 0x75, 0x36, 0x00] =
        .instr (.vpermdVex256 ⟨true, .fs⟩ 0 1 (.mem (.based 0 .none))) 7 := by decide

/-- VE40 to VE50 and VE66: illegal variants. -/
theorem test_decode_ud :
    decode [0xC4, 0xE2, 0x71, 0x36, 0xC2] = .ud .vexL0 ∧ decode [0x62, 0xF2, 0x75, 0x08, 0x36, 0xC2] = .ud .vpermdLL0 ∧
      decode [0xC4, 0xE2, 0xF5, 0x36, 0xC2] = .ud .vexW1 ∧ decode [0x62, 0xF2, 0x75, 0x68, 0x36, 0xC2] = .ud .evexLL3 ∧
      decode [0x62, 0xF2, 0xF5, 0x68, 0x8D, 0xC2] = .ud .evexLL3 ∧
      decode [0x62, 0xF2, 0x75, 0x58, 0x36, 0xC2] = .ud .broadcastRegister ∧
      decode [0x62, 0xF2, 0xF5, 0x18, 0x8D, 0xC2] = .ud .broadcastRegister ∧
      decode [0x62, 0xF2, 0xF5, 0x18, 0x8D, 0x00] = .ud .broadcastWord ∧
      decode [0x62, 0xF2, 0x75, 0xC8, 0x36, 0xC2] = .ud .zeroingNoMask ∧
      decode [0x62, 0xF6, 0x75, 0x48, 0x36, 0xC2] = .ud .evexReserved ∧
      decode [0x62, 0xF2, 0x71, 0x48, 0x36, 0xC2] = .ud .evexReserved ∧
      decode [0x62, 0xF2, 0x75, 0x88, 0x36, 0xC2] = .ud .vpermdLL0 := by decide

/-- VE51 to VE54: forbidden prefixes. -/
theorem test_decode_forbidden_prefix :
    decode [0x66, 0xC4, 0xE2, 0x75, 0x36, 0xC2] = .ud .forbiddenPrefix ∧
      decode [0xF0, 0xC4, 0xE2, 0x75, 0x36, 0x00] = .ud .forbiddenPrefix ∧
      decode [0x48, 0xC4, 0xE2, 0x75, 0x36, 0xC2] = .ud .forbiddenPrefix ∧
      decode [0xF3, 0x62, 0xF2, 0x75, 0x48, 0x36, 0xC2] = .ud .forbiddenPrefix := by decide

/-- VE55 to VE57: refused prefix runs. VE58 to VE65: not in scope, the two-byte VEX prefix (R85) among them. -/
theorem test_decode_refused :
    decode [0x2E, 0xC4, 0xE2, 0x75, 0x36, 0x00] = .prefixRun ∧ decode [0x64, 0x65, 0xC4, 0xE2, 0x75, 0x36, 0x00] = .prefixRun ∧
      decode [0x67, 0x67, 0xC4, 0xE2, 0x75, 0x36, 0x00] = .prefixRun ∧
      decode [0x62, 0xF2, 0xF5, 0x48, 0x36, 0xC2] = .notInScope ∧
      decode [0x62, 0xF2, 0x75, 0x48, 0x8D, 0xC2] = .notInScope ∧ decode [0xC4, 0xE2, 0x75, 0x8D, 0xC2] = .notInScope ∧
      decode [0xC4, 0xE1, 0x75, 0x36, 0xC2] = .notInScope ∧ decode [0xC5, 0xF5, 0x36, 0xC2] = .notInScope ∧
      decode [0x62, 0xF1, 0x75, 0x48, 0x36, 0xC2] = .notInScope ∧
      decode [0x62, 0xF2, 0x74, 0x48, 0x36, 0xC2] = .notInScope ∧ decode [0x90] = .notInScope := by decide

/-- Encoding gives the assembler's bytes (VE12, VE25). -/
theorem test_encode :
    encode (.vpermdEvex512 noPrefix 17 18 ⟨3, false⟩ (.reg 19)) = [0x62, 0xA2, 0x6D, 0x43, 0x36, 0xCB] ∧
      encode (.vpermwEvex512 noPrefix 0 31 ⟨7, true⟩ (.mem (.sib 8 (some 9) 3 (.d8 0xFF)))) =
        [0x62, 0x92, 0x85, 0xC7, 0x8D, 0x44, 0xC8, 0xFF] := by decide

/-- The table's match values (R86, R88) read as their rows, with zeros for ModRM: a memory operand at the base RAX. -/
theorem test_table_words :
    ((decodeTableWord 32 0xC4020536).map Instr.form, (decodeTableWord 40 0x6202052036).map Instr.form,
        (decodeTableWord 40 0x6202054036).map Instr.form, (decodeTableWord 40 0x620285008D).map Instr.form,
        (decodeTableWord 40 0x620285208D).map Instr.form, (decodeTableWord 40 0x620285408D).map Instr.form) =
      (some .vexD256, some .evexD256, some .evexD512, some .evexW128, some .evexW256, some .evexW512) := by decide

/-- A word placed in the machine after reset is run by the next step: 5 bytes from FFF0H. -/
theorem test_withFetchWord :
    (nextOf (step (State.reset.withFetchWord 32 0xC4020536))).map (·.rip) = some 0xFFF5 := by decide

/-! ## One step of each instruction (95_test_vectors.md sections 3 and 4) -/

def data8 : Zmm :=
  packed 32 [0x11111111, 0x22222222, 0x33333333, 0x44444444, 0x55555555, 0x66666666, 0x77777777, 0x88888888]

def ones : Zmm := BitVec.allOnes 512

def wideIndices : Zmm := packed 32 [0xFFFFFFF8, 0x80000009, 0x12345672, 3, 0xFFFFFFFF, 8, 0xF, 0x7FFFFFF5]

/-- VD2: only index bits 2:0 are used, and bits 511:256 become 0. -/
theorem test_step_vpermdVex256_index_bits :
    resultOf 0 (code [0xC4, 0xE2, 0x75, 0x36, 0xC2] |> withZmm 1 wideIndices |> withZmm 2 data8 |> withZmm 0 ones) =
      some (packed 32 [0x11111111, 0x22222222, 0x33333333, 0x44444444, 0x88888888, 0x11111111, 0x88888888, 0x66666666],
        0x1005) := by decide +kernel

/-- VD10: the destination is the data register. -/
theorem test_step_vpermdVex256_overlap :
    resultOf 2 (code [0xC4, 0xE2, 0x75, 0x36, 0xD2] |> withZmm 1 (packed 32 [7, 0, 1, 2, 3, 4, 5, 6]) |> withZmm 2 data8) =
      some (packed 32 [0x88888888, 0x11111111, 0x22222222, 0x33333333, 0x44444444, 0x55555555, 0x66666666, 0x77777777],
        0x1005) := by decide +kernel

/-- VD6: zeroing, and bits 511:256 become 0. -/
theorem test_step_vpermdEvex256_zeroing :
    resultOf 0 (code [0x62, 0xF2, 0x75, 0xA9, 0x36, 0xC2] |> withZmm 1 wideIndices |> withZmm 2 data8 |> withZmm 0 ones |>
        withK 1 0xA5) =
      some (packed 32 [0x11111111, 0, 0x33333333, 0, 0, 0x11111111, 0, 0x66666666], 0x1006) := by decide +kernel

/-- VD7: broadcast, disp8 times 4, merging, mask bits 15:8 ignored. -/
theorem test_step_vpermdEvex256_broadcast :
    resultOf 0 ((code [0x62, 0xF2, 0x75, 0x39, 0x36, 0x40, 0x01]).placeBytes 0x2000
          [0x00, 0x11, 0x22, 0x33, 0xEF, 0xBE, 0xAD, 0xDE, 0x44, 0x55, 0x66, 0x77] |>
        withGpr 0 0x2000 |> withZmm 1 (packed 32 [3, 1, 4, 1, 5, 9, 2, 6]) |>
        withZmm 0 (packed 32 ((List.range 16).map (0xAAAA0000 + ·))) |> withK 1 0xFF0F) =
      some (packed 32 [0xDEADBEEF, 0xDEADBEEF, 0xDEADBEEF, 0xDEADBEEF, 0xAAAA0004, 0xAAAA0005, 0xAAAA0006, 0xAAAA0007],
        0x1007) := by decide +kernel

/-- VD5m: merging under a mask, four index bits. -/
theorem test_step_vpermdEvex512_merging :
    resultOf 0 (code [0x62, 0xF2, 0x75, 0x49, 0x36, 0xC2] |>
        withZmm 1 (packed 32 [0x10, 0x1F, 0xFFFFFFF0, 0x23, 4, 4, 4, 4, 0, 1, 2, 3, 8, 9, 0xA, 0xB]) |>
        withZmm 2 (packed 32 ((List.range 16).map (0x1000 + ·))) |>
        withZmm 0 (packed 32 ((List.range 16).map (0xDEAD0000 + ·))) |> withK 1 0xF3) =
      some (packed 32 [0x1000, 0x100F, 0xDEAD0002, 0xDEAD0003, 0x1004, 0x1004, 0x1004, 0x1004, 0xDEAD0008, 0xDEAD0009,
        0xDEAD000A, 0xDEAD000B, 0xDEAD000C, 0xDEAD000D, 0xDEAD000E, 0xDEAD000F], 0x1006) := by decide +kernel

/-- VD14: registers 16 to 31 and k3. -/
theorem test_step_vpermdEvex512_high_registers :
    resultOf 17 (code [0x62, 0xA2, 0x6D, 0x43, 0x36, 0xCB] |> withZmm 18 (packed 32 ((List.range 16).map (3 * · + 1))) |>
        withZmm 19 (packed 32 ((List.range 16).map (0xC0DE0000 + ·))) |>
        withZmm 17 (packed 32 ((List.range 16).map (0x0BAD0000 + ·))) |> withK 3 0x5A5A) =
      some (packed 32 [0x0BAD0000, 0xC0DE0004, 0x0BAD0002, 0xC0DE000A, 0xC0DE000D, 0x0BAD0005, 0xC0DE0003, 0x0BAD0007,
        0x0BAD0008, 0xC0DE000C, 0x0BAD000A, 0xC0DE0002, 0xC0DE0005, 0x0BAD000D, 0xC0DE000B, 0x0BAD000F], 0x1006) := by
  decide +kernel

/-- VW1: three index bits, and bits 511:128 become 0. -/
theorem test_step_vpermwEvex128_index_bits :
    resultOf 0 (code [0x62, 0xF2, 0xF5, 0x08, 0x8D, 0xC2] |> withZmm 1 (packed 16 [7, 7, 0, 0, 3, 2, 0xFFF9, 8]) |>
        withZmm 2 (packed 16 ((List.range 8).map (0xA0A0 + ·))) |> withZmm 0 ones) =
      some (packed 16 [0xA0A7, 0xA0A7, 0xA0A0, 0xA0A0, 0xA0A3, 0xA0A2, 0xA0A1, 0xA0A0], 0x1006) := by decide +kernel

/-- VW7: mask bits at and above 8 are ignored. -/
theorem test_step_vpermwEvex128_high_mask_bits :
    resultOf 0 (code [0x62, 0xF2, 0xF5, 0x89, 0x8D, 0xC2] |> withZmm 1 (packed 16 [7, 7, 0, 0, 3, 2, 0xFFF9, 8]) |>
        withZmm 2 (packed 16 ((List.range 8).map (0xA0A0 + ·))) |> withZmm 0 ones |> withK 1 0xFFFFFFFFFFFFFF00) =
      some (0, 0x1006) := by decide +kernel

/-- VW3: four index bits. -/
theorem test_step_vpermwEvex256_index_bits :
    resultOf 0 (code [0x62, 0xF2, 0xF5, 0x28, 0x8D, 0xC2] |>
        withZmm 1 (packed 16 [0x10, 0x1F, 0xFFF0, 0x2A, 0, 1, 2, 3, 4, 5, 6, 7, 8, 9, 0xA, 0xB]) |>
        withZmm 2 (packed 16 ((List.range 16).map (0xB000 + ·)))) =
      some (packed 16 [0xB000, 0xB00F, 0xB000, 0xB00A, 0xB000, 0xB001, 0xB002, 0xB003, 0xB004, 0xB005, 0xB006, 0xB007,
        0xB008, 0xB009, 0xB00A, 0xB00B], 0x1006) := by decide +kernel

/-- VW8: a misaligned memory operand, disp8 times 32, merging. -/
theorem test_step_vpermwEvex256_memory :
    resultOf 0 ((code [0x62, 0xF2, 0xF5, 0x2A, 0x8D, 0x40, 0x01]).placeBytes 0x3021
          ((List.range 16).flatMap fun j => [BitVec.ofNat 8 (0x10 + j), 0xD0]) |> withGpr 0 0x3001 |>
        withZmm 1 (packed 16 ((List.range 16).map (15 - ·))) |>
        withZmm 0 (packed 16 ((List.range 32).map (0x7700 + ·))) |> withK 2 0xFF) =
      some (packed 16 [0xD01F, 0xD01E, 0xD01D, 0xD01C, 0xD01B, 0xD01A, 0xD019, 0xD018, 0x7708, 0x7709, 0x770A, 0x770B,
        0x770C, 0x770D, 0x770E, 0x770F], 0x1007) := by decide +kernel

/-- VW5m: five index bits, 32 mask bits. -/
theorem test_step_vpermwEvex512_merging :
    resultOf 30 (code [0x62, 0x02, 0x95, 0x41, 0x8D, 0xF4] |> withZmm 29 (packed 16 ((List.range 32).map (5 * · + 3))) |>
        withZmm 28 (packed 16 ((List.range 32).map (0xC000 + ·))) |>
        withZmm 30 (packed 16 ((List.range 32).map (0xEE00 + ·))) |> withK 1 0xAAAA5555) =
      some (packed 16 [0xC003, 0xEE01, 0xC00D, 0xEE03, 0xC017, 0xEE05, 0xC001, 0xEE07, 0xC00B, 0xEE09, 0xC015, 0xEE0B,
        0xC01F, 0xEE0D, 0xC009, 0xEE0F, 0xEE10, 0xC018, 0xEE12, 0xC002, 0xEE14, 0xC00C, 0xEE16, 0xC016, 0xEE18, 0xC000,
        0xEE1A, 0xC00A, 0xEE1C, 0xC014, 0xEE1E, 0xC01E], 0x1006) := by decide +kernel

/-- P4, instruction 2: the destination is the index register, zeroing. -/
theorem test_step_vpermwEvex512_table :
    resultOf 0 (code [0x62, 0xF2, 0xFD, 0xC9, 0x8D, 0xC1] |>
        withZmm 0 (packed 16 ((List.range 32).map fun j => 0x100 + (7 * j + 1) % 32)) |>
        withZmm 1 (packed 16 ((List.range 32).map fun j => 0x100 + (7 * j + 1) % 32)) |> withK 1 0x0F0F0F0F) =
      some (packed 16 [0x108, 0x119, 0x10A, 0x11B, 0, 0, 0, 0, 0x110, 0x101, 0x112, 0x103, 0, 0, 0, 0, 0x118, 0x109, 0x11A,
        0x10B, 0, 0, 0, 0, 0x100, 0x111, 0x102, 0x113, 0, 0, 0, 0], 0x1006) := by decide +kernel

/-! ## Addresses (95_test_vectors.md section 5) -/

/-- VM1: relative to the next instruction. -/
theorem test_address_ripRel :
    linearAddress noPrefix 1 9 (.ripRel 0x100) (codeAt 0x400000 []) = 0x400109 := by decide

/-- VM2: base, scaled index and disp8 of form 1; the SS segment. -/
theorem test_address_sib :
    linearAddress noPrefix 1 7 (.sib 4 (some 3) 2 (.d8 0x20)) (code [] |> withGpr 4 0x7000 |> withGpr 3 0x10) = 0x7060 ∧
      segmentOf noPrefix (.sib 4 (some 3) 2 (.d8 0x20)) = .ss := by decide

/-- VM3: a compressed disp8 of -1 with N = 64. -/
theorem test_address_compressed :
    linearAddress noPrefix 64 8 (.sib 8 (some 9) 3 (.d8 0xFF)) (code [] |> withGpr 8 0x10000 |> withGpr 9 8) = 0x10000 := by
  decide

/-- VM5, VM6: 32-bit address size; the FS base. -/
theorem test_address_prefixes :
    linearAddress ⟨true, .none⟩ 1 6 (.based 0 .none) (code [] |> withGpr 0 0x123456780) = 0x23456780 ∧
      linearAddress ⟨false, .fs⟩ 1 6 (.based 0 .none) { (code [] |> withGpr 0 0x100) with fsBase := 0x7F0000000000 } =
        0x7F0000000100 := by decide

/-! ## Exceptions (95_test_vectors.md sections 5 and 6) -/

/-- VX1, VX2, VX4, VX5: missing features and enables. -/
theorem test_fault_ud :
    faultOf (step (code [0xC4, 0xE2, 0x75, 0x36, 0xC2] |> withFeatures false (.present true true))) = some (.ud 0x1000) ∧
      faultOf (step (code [0x62, 0xF2, 0x75, 0x28, 0x36, 0xC2] |> withFeatures true (.present false true))) =
        some (.ud 0x1000) ∧
      faultOf (step (code [0x62, 0xF2, 0xF5, 0x48, 0x8D, 0xC2] |> withFeatures true (.present true false))) =
        some (.ud 0x1000) ∧
      faultOf (step { code [0x62, 0xF2, 0x75, 0x48, 0x36, 0xC2] with xcr0 := 7 }) = some (.ud 0x1000) := by decide

/-- VX3, VX6: what a form needs and no more. -/
theorem test_features_suffice :
    (nextOf (step (code [0x62, 0xF2, 0x75, 0x48, 0x36, 0xC2] |> withFeatures true (.present false true)))).map (·.rip) =
        some 0x1006 ∧
      (nextOf (step { code [0xC4, 0xE2, 0x75, 0x36, 0xC2] with xcr0 := 7 })).map (·.rip) = some 0x1005 := by
  decide

/-- VX7, VX8, VX9: #NM comes after #UD and before the operand. -/
theorem test_fault_nm :
    faultOf (step { code [0xC4, 0xE2, 0x75, 0x36, 0xC2] with cr0 := 8 }) = some (.nm 0x1000) ∧
      faultOf (step { code [0xC4, 0xE2, 0x71, 0x36, 0xC2] with cr0 := 8 }) = some (.ud 0x1000) ∧
      faultOf (step { (code [0xC4, 0xE2, 0x75, 0x36, 0x00] |> withGpr 0 0x8000000000000000) with cr0 := 8 }) =
        some (.nm 0x1000) := by decide

/-- VX10, VX11, VM8, VM7: the operand's address. -/
theorem test_fault_operand_address :
    faultOf (step (code [0xC4, 0xE2, 0x75, 0x36, 0x45, 0x00] |> withGpr 5 0x00007FFFFFFFFFF0)) = some (.ss0 0x1000) ∧
      faultOf (step (code [0x62, 0xF2, 0x75, 0xC9, 0x36, 0x00] |> withGpr 0 0x8000000000000000)) = some (.gp0 0x1000) ∧
      faultOf (step (code [0xC4, 0xE2, 0x75, 0x36, 0x00] |> withGpr 0 0x00007FFFFFFFFFF0)) = some (.gp0 0x1000) ∧
      refusalOf (step (code [0xC4, 0xE2, 0x75, 0x36, 0x00] |> withGpr 0 0xFFFFFFFFFFFFFFF0)) = some .wrap := by
  decide

/-- VX12 and VX13: one faulting byte of 64, whatever the mask; a broadcast reads four bytes only. -/
theorem test_fault_page :
    faultOf (step (code [0x62, 0xF2, 0x75, 0xC9, 0x36, 0x00] |> withGpr 0 0x2FFF |> withMap [faulting 0x303E 1])) =
        some (.pf 0 0x303E 0x1000) ∧
      (nextOf (step (code [0x62, 0xF2, 0x75, 0x58, 0x36, 0x00] |> withGpr 0 0x3000 |> withMap [faulting 0x3004 1]))).map
          (·.rip) = some 0x1006 := by decide

/-- VX14: a fetch fault, and none where the byte after the instruction would fault. -/
theorem test_fault_fetch :
    faultOf (step (code [0xC4, 0xE2, 0x75, 0x36, 0xC2] |> withMap [faulting 0x1004 1])) = some (.pf 0x10 0x1004 0x1000) ∧
      (nextOf (step (code [0xC4, 0xE2, 0x75, 0x36, 0xC2] |> withMap [faulting 0x1005 0x1000]))).map (·.rip) =
        some 0x1005 := by decide

/-- A fault that only accesses below CPL 3 meet (R68: `Access` may depend on all of the state). -/
theorem test_fault_supervisor :
    faultOf (step (code [0xC4, 0xE2, 0x75, 0x36, 0x00] |> withGpr 0 0x3000 |> withMap [supervisorOnly 0x3010 1])) =
        some (.pf 1 0x3010 0x1000) ∧
      (nextOf (step { (code [0xC4, 0xE2, 0x75, 0x36, 0x00] |> withGpr 0 0x3000 |> withMap [supervisorOnly 0x3010 1]) with
        cpl := 3 })).map (·.rip) = some 0x1005 := by decide

/-- More than 15 bytes go before a forbidden prefix (R199, D11) and, by the model's reading (log 8), before a refused run; at 15 bytes the
other two are reported. -/
theorem test_fault_length :
    decode (List.replicate 11 0x66 ++ [0xC4, 0xE2, 0x75, 0x36, 0xC2]) = .gpLen ∧
      decode (List.replicate 10 0x66 ++ [0xC4, 0xE2, 0x75, 0x36, 0xC2]) = .ud .forbiddenPrefix ∧
      decode (List.replicate 10 0x67 ++ [0xC4, 0xE2, 0x75, 0x36, 0xC2]) = .prefixRun ∧
      faultOf (step (code (List.replicate 11 0x66 ++ [0xC4, 0xE2, 0x75, 0x36, 0xC2]))) = some (.gp0 0x1000) ∧
      faultOf (step (code (List.replicate 11 0x67 ++ [0xC4, 0xE2, 0x75, 0x36, 0xC2]))) = some (.gp0 0x1000) := by decide

/-- R199: an instruction of sixteen bytes whose sixteenth cannot be fetched faults on it, whatever its prefixes; #GP(0) for its length
comes after. -/
theorem test_fault_fetch_before_length :
    ∀ b ∈ [(0x66 : Byte), 0x67],
      faultOf (step (code (List.replicate 11 b ++ [0xC4, 0xE2, 0x75, 0x36, 0xC2]) |> withMap [faulting 0x100F 1])) =
        some (.pf 0x10 0x100F 0x1000) := by decide

/-- R199: a fault on fetching the ModRM byte goes before the #UD of VEX.L = 0. -/
theorem test_fault_fetch_before_ud :
    faultOf (step (code [0xC4, 0xE2, 0x71, 0x36, 0xC2] |> withMap [faulting 0x1004 1])) = some (.pf 0x10 0x1004 0x1000) := by
  decide

/-- A page fault leaves its address in CR2 and everything else as before (R197, R200). -/
theorem test_afterFault : (State.launch.afterFault (.pf 4 0x303E 0x1000)) = { State.launch with cr2 := 0x303E } := by
  decide +kernel

/-! ## Launches and runs -/

/-- The boot steps enable the AVX-512 state only where the processor has it (R231 step 4). -/
theorem test_boot_xcr0 :
    State.reset.boot.xcr0 = 0xE7 ∧ (State.reset |> withFeatures true (.absent .v256)).boot.xcr0 = 7 := by decide

/-- A launch of one instruction of five bytes that ends at the top of the canonical lower half. -/
def edgeLaunch : Launch := ⟨codeAt 0x7FFFFFFFFFFB [0xC4, 0xE2, 0x75, 0x36, 0xC2], 0x800000000000⟩

theorem test_launch_clean : edgeLaunch.Clean :=
  ⟨by decide, by decide +kernel, by decide, by decide, by decide, fun _ _ => sameAccess_of_ranges rfl rfl rfl rfl⟩

theorem test_launch_succeeds : edgeLaunch.succeeds 1 = true := by decide

/-- P3, instruction 2: a faulted run is not successful. -/
theorem test_launch_faulted :
    (Launch.mk (code [0xC4, 0xE2, 0x75, 0x36, 0x45, 0x00] |> withGpr 5 0x00007FFFFFFFFFF0) 0x1006).succeeds 1 = false := by
  decide

/-! ## Witnesses: the hypotheses of each statement can be met -/

/-- The first fifteen bytes of an instruction of sixteen: eleven prefixes and form 1 without its ModRM byte. -/
def fifteenOfSixteen : List Byte := List.replicate 11 0x66 ++ [0xC4, 0xE2, 0x75, 0x36]

/-- The hypotheses of `StepOnBytes` hold in this state. -/
def fetchable (s : State) (bytes : List Byte) : Bool := s.mode64 && CodeAt s.rip.toNat bytes s

theorem exists_next {o : Host.Outcome State Fault Refusal} (h : (nextOf o).isSome = true) : ∃ t, o = .next t := by
  cases o with
  | next t => exact ⟨t, rfl⟩
  | fault f => cases h
  | refused r => cases h

theorem exists_fault {o : Host.Outcome State Fault Refusal} (h : (faultOf o).isSome = true) : ∃ f, o = .fault f := by
  cases o with
  | next t => cases h
  | fault f => exact ⟨f, rfl⟩
  | refused r => cases h

/-- One instruction of each form, with register, memory and broadcast operands. -/
def sampleInstrs : List Instr :=
  [.vpermdVex256 noPrefix 15 0 (.reg 15), .vpermdVex256 ⟨true, .gs⟩ 0 1 (.mem (.sibNoBase none 3 0x80000000)),
    .vpermdEvex256 noPrefix 31 16 ⟨7, true⟩ (.reg 31), .vpermdEvex256 noPrefix 0 1 unmasked (.mem (.based 0 (.d8 0x80))),
    .vpermdEvex512 noPrefix 31 16 ⟨1, false⟩ (.bcst (.sib 4 (some 12) 3 (.d32 0))),
    .vpermwEvex128 noPrefix 0 31 unmasked (.reg 0), .vpermwEvex256 ⟨false, .fs⟩ 0 1 unmasked (.mem (.ripRel 0)),
    .vpermwEvex512 noPrefix 0 1 unmasked (.mem (.based 0 .none))]

theorem witness_DecodeOfEncodeIsTheInstruction : ∀ i ∈ sampleInstrs, i.wf = true := by decide

/-- The longest instruction, with a byte after it, and the shortest. For the four statements on decoded bytes. -/
theorem witness_decoded :
    decode [0x64, 0x67, 0x62, 0xF2, 0x75, 0x48, 0x36, 0x84, 0x25, 0x01, 0x00, 0x00, 0x00, 0x90] =
        .instr (.vpermdEvex512 ⟨true, .fs⟩ 0 1 unmasked (.mem (.sib 5 none 0 (.d32 1)))) 13 ∧
      decode [0xC4, 0xE2, 0x75, 0x36, 0xC2] = .instr (.vpermdVex256 noPrefix 0 1 (.reg 2)) 5 := by decide

theorem witness_NoBytesMatchTwoRows :
    Form.matchesBytes .vexD256 [0xC4, 0xE2, 0x75, 0x36] = true ∧
      Form.matchesBytes .evexW512 [0x62, 0x02, 0x95, 0x40, 0x8D] = true := by decide

theorem witness_UnsupportedVectorLengthRaisesUd :
    admitPrefixes [0x64, 0x67] = some ⟨true, .fs⟩ ∧ vexPattern 0xE2 0x71 0x36 = true ∧ bitAt 0x71 2 = false ∧
      readRm 0xC2 (!bitAt 0xE2 6) (!bitAt 0xE2 5) [] = some (.reg 2, 0) ∧
      fetchable (code [0x64, 0x67, 0xC4, 0xE2, 0x71, 0x36, 0xC2]) [0x64, 0x67, 0xC4, 0xE2, 0x71, 0x36, 0xC2] = true ∧
      evexPattern 0xF2 0x75 0x36 = true ∧ field 0x08 5 2 = 0 ∧
      fetchable (code [0x64, 0x67, 0x62, 0xF2, 0x75, 0x08, 0x36, 0xC2]) [0x64, 0x67, 0x62, 0xF2, 0x75, 0x08, 0x36, 0xC2] = true ∧
      evexPattern 0xF2 0xF5 0x8D = true ∧ bitAt 0x08 4 = false ∧ bitAt 0x08 7 = false ∧
      readRm 0xC2 (!bitAt 0xF2 6) (!bitAt 0xF2 5) [] = some (.reg 2, 0) := by decide

/-- VE43, VE44 and VE42. -/
theorem witness_ReservedLengthOrVexWRaisesUd :
    admitPrefixes [] = some noPrefix ∧ evexPattern 0xF2 0x75 0x36 = true ∧ evexPattern 0xF2 0xF5 0x8D = true ∧
      field 0x68 5 2 = 3 ∧ readRm 0xC2 (!bitAt 0xF2 6) (!bitAt 0xF2 5) [] = some (.reg 2, 0) ∧
      fetchable (code [0x62, 0xF2, 0x75, 0x68, 0x36, 0xC2]) [0x62, 0xF2, 0x75, 0x68, 0x36, 0xC2] = true ∧
      fetchable (code [0x62, 0xF2, 0xF5, 0x68, 0x8D, 0xC2]) [0x62, 0xF2, 0xF5, 0x68, 0x8D, 0xC2] = true ∧
      vexPattern 0xE2 0xF5 0x36 = true ∧ bitAt 0xF5 7 = true ∧
      readRm 0xC2 (!bitAt 0xE2 6) (!bitAt 0xE2 5) [] = some (.reg 2, 0) ∧
      fetchable (code [0xC4, 0xE2, 0xF5, 0x36, 0xC2]) [0xC4, 0xE2, 0xF5, 0x36, 0xC2] = true := by decide

/-- VE49 after nine prefixes, 15 bytes in all, and VE50 after none. -/
theorem witness_EvexReservedBitsRaiseUd :
    (List.replicate 9 (0x66 : Byte)).all isLegacyPrefix = true ∧ (List.replicate 9 (0x66 : Byte)).length + 6 + 0 ≤ 15 ∧
      field 0xF6 2 2 ≠ 0 ∧ readRm 0xC2 (!bitAt 0xF6 6) (!bitAt 0xF6 5) [] = some (.reg 2, 0) ∧ bitAt 0x71 2 = false ∧
      readRm 0xC2 (!bitAt 0xF2 6) (!bitAt 0xF2 5) [] = some (.reg 2, 0) ∧
      fetchable (code (List.replicate 9 0x66 ++ [0x62, 0xF6, 0x75, 0x48, 0x36, 0xC2]))
        (List.replicate 9 0x66 ++ [0x62, 0xF6, 0x75, 0x48, 0x36, 0xC2]) = true ∧
      fetchable (code [0x62, 0xF2, 0x71, 0x48, 0x36, 0xC2]) [0x62, 0xF2, 0x71, 0x48, 0x36, 0xC2] = true := by decide

/-- VE45, VE47, and both lengths of the broadcast. -/
theorem witness_BroadcastBitSelectsBroadcastOrRaisesUd :
    admitPrefixes [0x65] = some ⟨false, .gs⟩ ∧ evexPattern 0xF2 0x75 0x36 = true ∧ bitAt 0x58 4 = true ∧
      field 0xC2 6 2 = 3 ∧ readRm 0xC2 false false [] = some (.reg 2, 0) ∧
      fetchable (code [0x65, 0x62, 0xF2, 0x75, 0x58, 0x36, 0xC2]) [0x65, 0x62, 0xF2, 0x75, 0x58, 0x36, 0xC2] = true ∧
      evexPattern 0xF2 0xF5 0x8D = true ∧ bitAt 0x18 4 = true ∧
      readRm 0x00 false false [] = some (.mem (.based 0 .none), 0) ∧
      fetchable (code [0x65, 0x62, 0xF2, 0xF5, 0x18, 0x8D, 0x00]) [0x65, 0x62, 0xF2, 0xF5, 0x18, 0x8D, 0x00] = true ∧
      bitAt 0x38 4 = true ∧ field 0x38 5 2 = 1 ∧ field 0x58 5 2 = 2 ∧ bitAt 0x38 7 = false ∧ bitAt 0x58 7 = false := by
  decide

/-- VE48. -/
theorem witness_ZeroingWithoutWritemaskRaisesUd :
    admitPrefixes [] = some noPrefix ∧ evexPattern 0xF2 0x75 0x36 = true ∧ bitAt 0xC8 7 = true ∧ field 0xC8 0 3 = 0 ∧
      readRm 0xC2 (!bitAt 0xF2 6) (!bitAt 0xF2 5) [] = some (.reg 2, 0) ∧
      fetchable (code [0x62, 0xF2, 0x75, 0xC8, 0x36, 0xC2]) [0x62, 0xF2, 0x75, 0xC8, 0x36, 0xC2] = true := by
  decide

/-- The first and the last REX byte, and LOCK; runs of the greatest length, 15 bytes in all. -/
theorem witness_ForbiddenLegacyPrefixRaisesUd :
    (0x40 :: List.replicate 9 (0x67 : Byte)).all isLegacyPrefix = true ∧
      (0x40 :: List.replicate 9 (0x67 : Byte)).length + 5 + 0 ≤ 15 ∧ 0x40 ≤ (0x40 : Byte).toNat ∧
      (0x4F : Byte).toNat ≤ 0x4F ∧ vexPattern 0xE2 0x75 0x36 = true ∧
      readRm 0xC2 (!bitAt 0xE2 6) (!bitAt 0xE2 5) [] = some (.reg 2, 0) ∧
      fetchable (code ((0x40 :: List.replicate 9 0x67) ++ [0xC4, 0xE2, 0x75, 0x36, 0xC2]))
        ((0x40 :: List.replicate 9 0x67) ++ [0xC4, 0xE2, 0x75, 0x36, 0xC2]) = true ∧
      ([0xF0, 0x4F] ++ List.replicate 7 (0x67 : Byte)).all isLegacyPrefix = true ∧
      ([0xF0, 0x4F] ++ List.replicate 7 (0x67 : Byte)).length + 6 + 0 ≤ 15 ∧ evexPattern 0xF2 0x75 0x36 = true ∧
      readRm 0xC2 (!bitAt 0xF2 6) (!bitAt 0xF2 5) [] = some (.reg 2, 0) ∧
      fetchable (code (([0xF0, 0x4F] ++ List.replicate 7 0x67) ++ [0x62, 0xF2, 0x75, 0x48, 0x36, 0xC2]))
        (([0xF0, 0x4F] ++ List.replicate 7 0x67) ++ [0x62, 0xF2, 0x75, 0x48, 0x36, 0xC2]) = true := by decide

/-- The runs of VE28 and VE29, in both orders where there are two. -/
theorem witness_AdmittedPrefixRunsAreEight :
    ∀ x ∈ ([([0x67], ⟨true, .none⟩), ([0x64, 0x67], ⟨true, .fs⟩), ([0x67, 0x64], ⟨true, .fs⟩), ([0x67, 0x65], ⟨true, .gs⟩)] :
        List (List Byte × Prefixes)),
      (Instr.vpermdVex256 x.2 0 1 (.mem (.based 0 .none))).wf = true ∧
        admitPrefixes x.1 = some (Instr.vpermdVex256 x.2 0 1 (.mem (.based 0 .none))).prefixes := by decide

/-- VE55, VE56, VE57, each other override, and runs of the greatest length. -/
theorem witness_OtherPrefixRunsAreRefused :
    (∀ run ∈ [[0x26], [0x2E], [0x36], [0x3E], [0x64, 0x65], [0x67, 0x67], (List.replicate 9 0x64 : List Byte)],
      run.all isLegacyPrefix = true ∧ run.any isForbiddenPrefix = false ∧
        (0x26 ∈ run ∨ 0x2E ∈ run ∨ 0x36 ∈ run ∨ 0x3E ∈ run ∨ (0x64 ∈ run ∧ 0x65 ∈ run) ∨ ¬run.Nodup) ∧
        run.length + 6 + 0 ≤ 15 ∧
        fetchable (code (run ++ [0xC4, 0xE2, 0x75, 0x36, 0x00])) (run ++ [0xC4, 0xE2, 0x75, 0x36, 0x00]) = true ∧
        fetchable (code (run ++ [0x62, 0xF2, 0x75, 0x48, 0x36, 0x00])) (run ++ [0x62, 0xF2, 0x75, 0x48, 0x36, 0x00]) = true) ∧
      (List.replicate 10 (0x64 : Byte)).length + 5 + 0 ≤ 15 ∧
      readRm 0x00 (!bitAt 0xE2 6) (!bitAt 0xE2 5) [] = some (.mem (.based 0 .none), 0) ∧
      readRm 0x00 (!bitAt 0xF2 6) (!bitAt 0xF2 5) [] = some (.mem (.based 0 .none), 0) ∧
      vexPattern 0xE2 0x75 0x36 = true ∧ evexPattern 0xF2 0x75 0x36 = true := by decide

/-- VE65, VE61, VE58, after no prefix, after ten, and after twenty, where the refused bytes end past the fifteenth. -/
theorem witness_NeighbouringEncodingsAreNotInScope :
    isLegacyPrefix 0x90 = false ∧ vexPattern 0xE1 0x75 0x36 = false ∧ evexFixed 0xF2 0xF5 = true ∧
      evexPattern 0xF2 0xF5 0x36 = false ∧
      ∀ n ∈ [0, 10, 20], (List.replicate n (0x66 : Byte)).all isLegacyPrefix = true ∧
        fetchable (code (List.replicate n 0x66 ++ [0x90])) (List.replicate n 0x66 ++ [0x90]) = true ∧
        fetchable (code (List.replicate n 0x66 ++ [0xC4, 0xE1, 0x75, 0x36]))
          (List.replicate n 0x66 ++ [0xC4, 0xE1, 0x75, 0x36]) = true ∧
        fetchable (code (List.replicate n 0x66 ++ [0x62, 0xF2, 0xF5, 0x48, 0x36]))
          (List.replicate n 0x66 ++ [0x62, 0xF2, 0xF5, 0x48, 0x36]) = true := by decide

/-- Sixteen bytes with a forbidden prefix, with a refused run, with L'L = 11b, with wrong reserved bits; all can be fetched. -/
theorem witness_LongerThanFifteenBytesRaisesGp :
    (∀ b ∈ [(0x66 : Byte), 0x67], (List.replicate 11 b).all isLegacyPrefix = true ∧
        decode (List.replicate 11 b ++ [0xC4, 0xE2, 0x75, 0x36, 0xC2]) = .gpLen ∧
        fetchable (code (List.replicate 11 b ++ [0xC4, 0xE2, 0x75, 0x36, 0xC2] ++ []))
          (List.replicate 11 b ++ [0xC4, 0xE2, 0x75, 0x36, 0xC2] ++ []) = true) ∧
      vexPattern 0xE2 0x75 0x36 = true ∧ readRm 0xC2 (!bitAt 0xE2 6) (!bitAt 0xE2 5) [] = some (.reg 2, 0) ∧
      (List.replicate 11 (0x66 : Byte)).length + 5 + 0 > 15 ∧ (List.replicate 10 (0x66 : Byte)).length + 6 + 0 > 15 ∧
      evexPattern 0xF2 0x75 0x36 = true ∧ evexFixed 0xF6 0x75 = false ∧
      readRm 0xC2 (!bitAt 0xF2 6) (!bitAt 0xF2 5) [] = some (.reg 2, 0) ∧
      readRm 0xC2 (!bitAt 0xF6 6) (!bitAt 0xF6 5) [] = some (.reg 2, 0) ∧
      (∀ p0 ∈ [(0xF2 : Byte), 0xF6],
        fetchable (code (List.replicate 10 0x66 ++ [0x62, p0, 0x75, 0x68, 0x36, 0xC2] ++ []))
          (List.replicate 10 0x66 ++ [0x62, p0, 0x75, 0x68, 0x36, 0xC2] ++ []) = true) ∧
      decode [0xC4, 0xE2, 0x75, 0x36, 0xC2] = .instr (.vpermdVex256 noPrefix 0 1 (.reg 2)) 5 := by decide

theorem witness_StepRunsTheDecodedInstruction :
    decode [0xC4, 0xE2, 0x75, 0x36, 0xC2] = .instr (.vpermdVex256 noPrefix 0 1 (.reg 2)) 5 ∧
      fetchable (code [0xC4, 0xE2, 0x75, 0x36, 0xC2]) [0xC4, 0xE2, 0x75, 0x36, 0xC2] = true := by decide

/-- At 1000H, at 0, at the end of the lower half, and at the end of the address space. -/
theorem witness_StepRunsTheInstructionInMemory :
    (∀ i ∈ sampleInstrs, fetchable (code (encode i)) (encode i) = true ∧
        fetchable (codeAt 0 (encode i)) (encode i) = true) ∧
      fetchable (codeAt 0x7FFFFFFFFFFB [0xC4, 0xE2, 0x75, 0x36, 0xC2]) [0xC4, 0xE2, 0x75, 0x36, 0xC2] = true ∧
      fetchable (codeAt 0xFFFFFFFFFFFFFFFB [0xC4, 0xE2, 0x75, 0x36, 0xC2]) [0xC4, 0xE2, 0x75, 0x36, 0xC2] = true ∧
      encode (.vpermdVex256 noPrefix 0 1 (.reg 2)) = [0xC4, 0xE2, 0x75, 0x36, 0xC2] := by decide

theorem witness_OtherModesAreRefused : State.reset.mode64 = false := by decide

/-- The decoder needs the first byte, and a byte after some of an instruction. -/
theorem needsByte {s : State} {bytes : List Byte} (h : fetchable s bytes = true) (hd : decode bytes = .truncated) :
    NeedsByte s bytes.length := by
  simp only [fetchable, Bool.and_eq_true] at h
  exact ⟨h.1, bytes, rfl, h.2, hd⟩

/-- The first and the last non-canonical address, and the fifth byte of an instruction whose first four bytes end at the last canonical
address, and the sixteenth of one whose first fifteen do. -/
theorem witness_NonCanonicalFetchRaisesGp :
    (NeedsByte (codeAt 0x800000000000 []) 0 ∧ NeedsByte (codeAt 0xFFFF7FFFFFFFFFFF []) 0 ∧
        NeedsByte (codeAt 0x7FFFFFFFFFFC [0xC4, 0xE2, 0x75, 0x36]) 4 ∧ NeedsByte (codeAt 0x7FFFFFFFFFF1 fifteenOfSixteen) 15) ∧
      ¬IsCanonical 48 0x800000000000 ∧ ¬IsCanonical 48 0xFFFF7FFFFFFFFFFF ∧ ¬IsCanonical 48 (0x7FFFFFFFFFFC + 4) ∧
      ¬IsCanonical 48 (0x7FFFFFFFFFF1 + 15) ∧
      IsCanonical 48 0x7FFFFFFFFFFF ∧ IsCanonical 48 0xFFFF800000000000 ∧
      (codeAt 0x800000000000 []).cfg.vaBits.bits = 48 :=
  ⟨⟨needsByte (bytes := []) (by decide) (by decide), needsByte (bytes := []) (by decide) (by decide),
    needsByte (bytes := [0xC4, 0xE2, 0x75, 0x36]) (by decide) (by decide),
    needsByte (bytes := fifteenOfSixteen) (by decide) (by decide)⟩, by decide⟩

/-- A fault on the first byte, on a ModRM byte, on the fifteenth byte after fourteen prefixes, and on the sixteenth byte. -/
theorem witness_PageFaultOnFetchIsRaised :
    ∀ bytes ∈ [[], [0xC4, 0xE2, 0x71, 0x36], List.replicate 14 (0x67 : Byte), fifteenOfSixteen],
      NeedsByte (code bytes |> withMap [faulting (0x1000 + bytes.length) 1]) bytes.length ∧
        IsCanonical 48 (0x1000 + bytes.length) ∧
        (code bytes |> withMap [faulting (0x1000 + bytes.length) 1]).answer .fetch (0x1000 + bytes.length) 1 =
          .pageFault 0x10 0 := by
  have h : ∀ bytes ∈ [[], [0xC4, 0xE2, 0x71, 0x36], List.replicate 14 (0x67 : Byte), fifteenOfSixteen],
      (fetchable (code bytes |> withMap [faulting (0x1000 + bytes.length) 1]) bytes = true ∧
        decode bytes = .truncated) ∧ IsCanonical 48 (0x1000 + bytes.length) ∧
        (code bytes |> withMap [faulting (0x1000 + bytes.length) 1]).answer .fetch (0x1000 + bytes.length) 1 =
          .pageFault 0x10 0 := by decide
  exact fun bytes hb => ⟨needsByte (h bytes hb).1.1 (h bytes hb).1.2, (h bytes hb).2⟩

/-- The byte after the top of the address space; a device, and no memory, at the first byte, at the fourth, and at the
sixteenth. -/
theorem witness_RefusedFetches :
    (NeedsByte (codeAt 0xFFFFFFFFFFFFFFFD [0xC4, 0xE2, 0x75]) 3 ∧
        2 ^ 64 ≤ (codeAt 0xFFFFFFFFFFFFFFFD [0xC4, 0xE2, 0x75]).rip.toNat + 3) ∧
      ∀ bytes ∈ [[], [0xC4, 0xE2, (0x75 : Byte)], fifteenOfSixteen],
        (NeedsByte (code bytes |> withMap [device (0x1000 + bytes.length) 1]) bytes.length ∧
          NeedsByte (code bytes |> withMap [hole (0x1000 + bytes.length) 1]) bytes.length) ∧
          IsCanonical 48 (0x1000 + bytes.length) ∧
          (code bytes |> withMap [device (0x1000 + bytes.length) 1]).answer .fetch (0x1000 + bytes.length) 1 =
            .refused .sideEffects ∧
          (code bytes |> withMap [hole (0x1000 + bytes.length) 1]).answer .fetch (0x1000 + bytes.length) 1 =
            .refused .unallocated := by
  have h : ∀ bytes ∈ [[], [0xC4, 0xE2, (0x75 : Byte)], fifteenOfSixteen],
      (fetchable (code bytes |> withMap [device (0x1000 + bytes.length) 1]) bytes = true ∧
        fetchable (code bytes |> withMap [hole (0x1000 + bytes.length) 1]) bytes = true ∧
        decode bytes = .truncated) ∧ IsCanonical 48 (0x1000 + bytes.length) ∧
        (code bytes |> withMap [device (0x1000 + bytes.length) 1]).answer .fetch (0x1000 + bytes.length) 1 =
          .refused .sideEffects ∧
        (code bytes |> withMap [hole (0x1000 + bytes.length) 1]).answer .fetch (0x1000 + bytes.length) 1 =
          .refused .unallocated := by decide
  exact ⟨⟨needsByte (bytes := [0xC4, 0xE2, 0x75]) (by decide) (by decide), by decide⟩, fun bytes hb =>
    ⟨⟨needsByte (h bytes hb).1.1 (h bytes hb).1.2.2, needsByte (h bytes hb).1.2.1 (h bytes hb).1.2.2⟩, (h bytes hb).2⟩⟩

/-- Encodings with a forbidden prefix, with L = 0, and with wrong reserved bits; a SIB byte and disp32 follow the ModRM byte. -/
theorem witness_InstructionsAreReadWhole :
    [0x66].all isLegacyPrefix = true ∧ vexPattern 0xE2 0x71 0x36 = true ∧
      readRm 0x84 (!bitAt 0xE2 6) (!bitAt 0xE2 5) [0x25, 1, 0, 0, 0] = some (.mem (.sib 5 none 0 (.d32 1)), 5) ∧
      evexPattern 0xF2 0x75 0x36 = true ∧
      readRm 0x84 (!bitAt 0xF2 6) (!bitAt 0xF2 5) [0x25, 1, 0, 0, 0] = some (.mem (.sib 5 none 0 (.d32 1)), 5) ∧
      evexFixed 0xF6 0x75 = false ∧
      readRm 0x84 (!bitAt 0xF6 6) (!bitAt 0xF6 5) [0x25, 1, 0, 0, 0] = some (.mem (.sib 5 none 0 (.d32 1)), 5) := by
  decide

/-- A platform with a range, on either side of it; a state that differs in other fields; the platform without ranges. -/
theorem witness_RangesReadMemory :
    (State.launch |> withMap [device 0x2000 16]).cfg.platform = .ranges [device 0x2000 16] ∧
      (∀ la ∈ [0x2000 - 32, 0x2010], ∀ b < 32,
        regionAnswer [device 0x2000 16] .read (State.launch |> withMap [device 0x2000 16]).cpl (la + b) = none) ∧
      (withZmm 1 ones (withMap [device 0x2000 16] State.launch)).cfg.platform =
        (State.launch |> withMap [device 0x2000 16]).cfg.platform ∧
      (withZmm 1 ones (withMap [device 0x2000 16] State.launch)).mem = (State.launch |> withMap [device 0x2000 16]).mem ∧
      (withZmm 1 ones (withMap [device 0x2000 16] State.launch)).cpl = (State.launch |> withMap [device 0x2000 16]).cpl ∧
      State.launch.cfg.platform = .ranges [] := by decide

/-- Every form is ready in the state after the boot steps, and each of these instructions has a readable operand there: registers,
memory at the bottom and at the top of the address space. For the six result statements. -/
theorem witness_results :
    (∀ f ∈ [Form.vexD256, .evexD256, .evexD512, .evexW128, .evexW256, .evexW512], Ready f State.launch = true) ∧
      (∀ i ∈ sampleInstrs, operandReadable i (State.launch |> withGpr 0 0xFFFFFFFFFFFFFFC0 |> withGpr 4 0x2001) = true) ∧
      operandReadable (.vpermdEvex512 noPrefix 0 1 unmasked (.mem (.based 0 .none)))
        (State.launch |> withGpr 0 0xFFFFFFFFFFFFFFC0) = true ∧
      operandReadable (.vpermwEvex128 noPrefix 0 1 ⟨7, true⟩ (.mem (.based 0 .none))) State.launch = true := by
  decide

/-- Addressing forms in which the encoding does not enter the address. -/
theorem witness_UnmaskedEvexEqualsVex :
    Ready .vexD256 State.launch = true ∧ Ready .evexD256 State.launch = true ∧
      ∀ m ∈ [MemOp.based 0 .none, .based 5 (.d32 0xFFFFFFFF), .sib 4 (some 12) 3 .none, .sibNoBase none 0 0],
        MemOp.encodingFree m = true := by decide

/-- Identity indices of each element size and count. -/
theorem witness_IdentityIndicesChangeOnlyRip :
    (∀ f ∈ [Form.vexD256, .evexD256, .evexD512],
        Ready f (State.launch |> withZmm 1 (packed 32 (List.range 16)) |> withZmm 2 (packed 32 (List.range 8))) = true) ∧
      IdentityIndices 32 8 3 (packed 32 (List.range 16)) ∧ IdentityIndices 32 16 4 (packed 32 (List.range 16)) ∧
      (State.launch |> withZmm 1 (packed 32 (List.range 16))).zmm.get 1 = packed 32 (List.range 16) ∧
      (packed 32 (List.range 8)).toNat < 2 ^ 256 ∧
      (∀ f ∈ [Form.evexW128, .evexW256, .evexW512],
        Ready f (State.launch |> withZmm 1 (packed 16 (List.range 32)) |> withZmm 2 (packed 16 (List.range 8))) = true) ∧
      IdentityIndices 16 8 3 (packed 16 (List.range 32)) ∧ IdentityIndices 16 16 4 (packed 16 (List.range 32)) ∧
      IdentityIndices 16 32 5 (packed 16 (List.range 32)) ∧
      (State.launch |> withZmm 1 (packed 16 (List.range 32))).zmm.get 1 = packed 16 (List.range 32) ∧
      (packed 16 (List.range 8)).toNat < 2 ^ 128 := by decide +kernel

/-- For the statements about a completed instruction: the frame, the zeros above the vector length, the flags. -/
theorem witness_exec_next : ∀ i ∈ sampleInstrs, ∃ t, exec i State.launch = .next t := by
  have h : ∀ i ∈ sampleInstrs, (nextOf (exec i State.launch)).isSome = true := by decide
  exact fun i hi => exists_next (h i hi)

/-- Accesses are answered alike after a change of the flags, on a platform with a range. -/
theorem witness_FlagsAreNeitherReadNorWritten :
    SameAccess (State.launch |> withMap [device 0x2000 1])
        { (State.launch |> withMap [device 0x2000 1]) with rflags := 0x8D7, mxcsr := 0 } ∧
      ∃ t, exec (.vpermdVex256 noPrefix 15 0 (.reg 15)) State.launch = .next t :=
  ⟨sameAccess_of_ranges rfl rfl rfl rfl, exists_next (by decide)⟩

/-- k0 and the bits of k1 from 8 up differ. -/
theorem witness_UnusedMaskBitsAreIgnored :
    (∀ a : Fin 8, a ≠ 0 → ∀ j < Form.count .evexD256,
      ((State.launch |> withK 0 5 |> withK 1 0xFF0F).k.get a).getLsbD j =
        ((State.launch |> withK 1 0x0F).k.get a).getLsbD j) ∧
      SameAccess (State.launch |> withK 1 0x0F)
        { (State.launch |> withK 1 0x0F) with k := (State.launch |> withK 0 5 |> withK 1 0xFF0F).k } :=
  ⟨by decide, sameAccess_of_ranges rfl rfl rfl rfl⟩

/-- A non-canonical operand, and one with two bytes that page-fault. -/
theorem witness_FaultsDoNotDependOnMaskOrVectors :
    ∀ s ∈ [(State.launch |> withGpr 0 0x8000000000000000),
        (State.launch |> withGpr 0 0x2000 |> withMap [faulting 0x2001 2])],
      SameAccess s { s with zmm := (State.launch |> withZmm 1 ones).zmm, k := (State.launch |> withK 1 1).k } ∧
        ∃ f, exec (.vpermdEvex512 noPrefix 0 1 ⟨1, true⟩ (.mem (.based 0 .none))) s = .fault f := by
  have h : ∀ s ∈ [(State.launch |> withGpr 0 0x8000000000000000),
        (State.launch |> withGpr 0 0x2000 |> withMap [faulting 0x2001 2])],
      (faultOf (exec (.vpermdEvex512 noPrefix 0 1 ⟨1, true⟩ (.mem (.based 0 .none))) s)).isSome = true := by decide
  intro s hs
  refine ⟨?_, exists_fault (h s hs)⟩
  simp only [List.mem_cons, List.not_mem_nil, or_false] at hs
  rcases hs with rfl | rfl <;> exact sameAccess_of_ranges rfl rfl rfl rfl

/-- Without ranges the answers at CPL 0 and 3 are the same; with a page that faults at both levels they differ in U/S only. -/
theorem witness_PrivilegeActsOnlyThroughAccess :
    SameAccess State.launch { State.launch with cpl := 3 } ∧
      (∀ (kind : AccessKind) (a : Nat), regionAnswer [faulting 0x2000 1] kind 3 a =
        regionAnswer [faulting 0x2000 1] kind (State.launch |> withMap [faulting 0x2000 1]).cpl a) ∧
      (State.launch |> withMap [faulting 0x2000 1]).answer .read 0x2000 1 = .pageFault 0 0 ∧
      ({ (State.launch |> withMap [faulting 0x2000 1]) with cpl := 3 } : State).answer .read 0x2000 1 = .pageFault 4 0 ∧
      ∀ (kind : AccessKind) (la n : Nat),
        AccessAnswer.clearUser (({ (State.launch |> withMap [faulting 0x2000 1]) with cpl := 3 } : State).answer kind la n) =
          AccessAnswer.clearUser ((State.launch |> withMap [faulting 0x2000 1]).answer kind la n) := by
  have h : ∀ (kind : AccessKind) (a : Nat), regionAnswer [faulting 0x2000 1] kind 3 a =
      regionAnswer [faulting 0x2000 1] kind (State.launch |> withMap [faulting 0x2000 1]).cpl a := fun kind a => rfl
  refine ⟨?_, h, by decide, by decide, fun kind la n =>
    clearUser_answer_of_ranges (s := withMap [faulting 0x2000 1] State.launch)
      (t := { withMap [faulting 0x2000 1] State.launch with cpl := 3 }) rfl rfl rfl h kind la n⟩
  intro kind la n
  have h0 := State.answer_of_plain (s := State.launch) (map := []) rfl (kind := kind) (la := la) (n := n) fun _ _ => rfl
  have h3 := State.answer_of_plain (s := { State.launch with cpl := 3 }) (map := []) rfl (kind := kind) (la := la) (n := n)
    fun _ _ => rfl
  exact h3.trans h0.symm

/-- A missing feature of each form, OSXSAVE clear, AVX state off, AVX-512 state off. -/
theorem witness_DisabledFormRaisesUd :
    State.launch.mode64 = true ∧
      (State.launch |> withFeatures false (.absent .v256)).cfg.hasAvx2 = false ∧
      (State.launch |> withFeatures true (.absent .v512)).cfg.hasAvx512F = false ∧
      (State.launch |> withFeatures true (.present false true)).cfg.hasAvx512VL = false ∧
      (State.launch |> withFeatures true (.present true false)).cfg.hasAvx512BW = false ∧
      ({ State.launch with cr4 := 0x20 } : State).cr4.getLsbD 18 = false ∧
      ({ State.launch with xcr0 := 3 } : State).xcr0.extractLsb' 1 2 ≠ 3 ∧
      ({ State.launch with xcr0 := 0x67 } : State).xcr0.extractLsb' 5 3 ≠ 7 ∧
      (Instr.vpermwEvex512 noPrefix 0 1 unmasked (.reg 2)).form ≠ .vexD256 := by decide

theorem witness_TaskSwitchedRaisesNm :
    ∀ i ∈ sampleInstrs, ({ State.launch with cr0 := 8 } : State).mode64 = true ∧
      Form.osEnabled i.form { State.launch with cr0 := 8 } = true ∧
      i.form.hasFeatures ({ State.launch with cr0 := 8 } : State).cfg = true ∧
      ({ State.launch with cr0 := 8 } : State).cr0.getLsbD 3 = true := by decide

/-- Only the last byte is non-canonical: base RAX (DS) and base RBP (SS). -/
theorem witness_NonCanonicalOperandRaisesSsOrGp :
    ∀ b ∈ [(0 : Gpr), 5],
      (Instr.vpermdVex256 noPrefix 0 1 (.mem (.based b (.d8 0)))).memAccess = some ⟨.based b (.d8 0), 1, 32⟩ ∧
        Ready .vexD256 (State.launch |> withGpr b 0x00007FFFFFFFFFE1) = true ∧
        (operandAddress (.vpermdVex256 noPrefix 0 1 (.mem (.based b (.d8 0)))) ⟨.based b (.d8 0), 1, 32⟩
          (State.launch |> withGpr b 0x00007FFFFFFFFFE1)).toNat = 0x00007FFFFFFFFFE1 ∧
        IsCanonical 48 (0x00007FFFFFFFFFE1 + 30) ∧ ¬IsCanonical 48 (0x00007FFFFFFFFFE1 + 31) := by decide

/-- VX12: a page fault on the last byte; a device byte before it changes nothing. -/
theorem witness_PageFaultOnOperandIsRaised :
    ∀ map ∈ [[faulting 0x303E 1], [device 0x2FFF 1, faulting 0x303E 1]],
      (Instr.vpermdEvex512 noPrefix 0 1 ⟨1, true⟩ (.mem (.based 0 .none))).memAccess = some ⟨.based 0 .none, 64, 64⟩ ∧
        Ready .evexD512 (State.launch |> withGpr 0 0x2FFF |> withMap map) = true ∧
        (operandAddress (.vpermdEvex512 noPrefix 0 1 ⟨1, true⟩ (.mem (.based 0 .none))) ⟨.based 0 .none, 64, 64⟩
          (State.launch |> withGpr 0 0x2FFF |> withMap map)).toNat = 0x2FFF ∧
        (∀ b < 64, IsCanonical 48 (0x2FFF + b)) ∧
        (State.launch |> withGpr 0 0x2FFF |> withMap map).answer .read 0x2FFF 64 = .pageFault 0 63 ∧
        regionAnswer map .read 0 (0x2FFF + 63) = some (.pageFault ⟨false, false, false, true⟩) := by
  decide

/-- One byte past the top; a device, and no memory, at the last byte. -/
theorem witness_WrappingAndDeviceOperandsAreRefused :
    (Ready .vexD256 (State.launch |> withGpr 0 0xFFFFFFFFFFFFFFE1) = true ∧
        (operandAddress (.vpermdVex256 noPrefix 0 1 (.mem (.based 0 .none))) ⟨.based 0 .none, 1, 32⟩
          (State.launch |> withGpr 0 0xFFFFFFFFFFFFFFE1)).toNat + 32 > 2 ^ 64) ∧
      (∀ b < 32, IsCanonical 48 (0x2000 + b)) ∧
      ∀ x ∈ [(device 0x201F 1, AccessRefusal.sideEffects), (hole 0x201F 1, .unallocated)],
        Ready .vexD256 (State.launch |> withGpr 0 0x2000 |> withMap [x.1]) = true ∧
          (operandAddress (.vpermdVex256 noPrefix 0 1 (.mem (.based 0 .none))) ⟨.based 0 .none, 1, 32⟩
            (State.launch |> withGpr 0 0x2000 |> withMap [x.1])).toNat = 0x2000 ∧
          (State.launch |> withGpr 0 0x2000 |> withMap [x.1]).answer .read 0x2000 32 = .refused x.2 ∧
          (∀ b < 31, regionAnswer [x.1] .read 0 (0x2000 + b) = none) ∧
          regionAnswer [x.1] .read 0 (0x2000 + 31) = some (.refused x.2) := by
  decide

theorem witness_FaultsArePrecise : ∃ f, step (code [0xC4, 0xE2, 0x71, 0x36, 0xC2]) = .fault f :=
  exists_fault (by decide)

theorem witness_BootMakesEveryFormReady :
    ∀ f ∈ [Form.vexD256, .evexD256, .evexD512, .evexW128, .evexW256, .evexW512],
      f.hasFeatures State.reset.cfg = true := by decide

/-- For the four statements about a completed step. -/
theorem witness_step_next :
    (code [0xC4, 0xE2, 0x75, 0x36, 0xC2]).Inv ∧ ∃ t, step (code [0xC4, 0xE2, 0x75, 0x36, 0xC2]) = .next t :=
  ⟨by decide +kernel, exists_next (by decide +kernel)⟩

theorem witness_RunChangesOnlyVectorRegistersAndRip :
    ∃ t, runTo 0x1005 1 (code [0xC4, 0xE2, 0x75, 0x36, 0xC2]) = .final t := by
  have h : (Launch.mk (code [0xC4, 0xE2, 0x75, 0x36, 0xC2]) 0x1005).succeeds 1 = true := by decide
  unfold Launch.succeeds at h
  split at h
  next s hs => exact ⟨s, hs⟩
  next => cases h

/-- A load of 64 bytes, one of four bytes inside it, and a fetch of one of its bytes, each answered, the four with bytes that are not 0. -/
theorem witness_LoadsAndFetchesReadOneMemory :
    (∃ v, memRead .ds 0x1000 64 (code [0xC4, 0xE2, 0x75, 0x36, 0xC2]) = .ok v) ∧
      memRead .ss (0x1000 + BitVec.ofNat 64 1) 4 (code [0xC4, 0xE2, 0x75, 0x36, 0xC2]) = .ok 0xC23675E2#32 ∧
      fetchByte ((0x1000 : Addr).toNat + 1) (code [0xC4, 0xE2, 0x75, 0x36, 0xC2]) = .ok 0xE2 :=
  ⟨memRead_of_readable (by decide), by decide, by decide⟩

/-- A run that has made its one step, and a clean launch on the edge of the address space. -/
theorem witness_RunReadsTheLaunchMemory :
    edgeLaunch.Clean ∧ (edgeLaunch.run 1).state.rip = 0x800000000000 := ⟨test_launch_clean, by decide⟩

end Sys2Proof.Tests
end

section
/-! PROOF. The statements on the state (10_state.md): the frame of an instruction and of a step, the invariant, what no form reads, fetches
that end a step, and reset. -/

namespace Sys2Proof.Machine

/-! ## What a completed step is -/

/-- A step that completes executed the instruction at `rip`. -/
theorem step_eq_next {s t : State} (h : step s = .next t) : ∃ i, nextInstr s = .ok i ∧ exec i s = .next t := by
  unfold step at h
  split at h
  next i hi => exact ⟨i, hi, h⟩
  next => cases h
  next => cases h

/-- The length of an instruction (30_encoding.md R81, R111). -/
theorem Instr.length_bounds (i : Instr) : 5 ≤ i.length ∧ i.length ≤ 13 := by
  cases i with
  | vpermdVex256 p d s1 src2 => exact (Laws.EncodedLength.vpermdVex256 p d s1 src2).2
  | vpermdEvex256 p d s1 wm src2 => exact (Laws.EncodedLength.vpermdEvex256 p d s1 wm src2).2
  | vpermdEvex512 p d s1 wm src2 => exact (Laws.EncodedLength.vpermdEvex512 p d s1 wm src2).2
  | vpermwEvex128 p d s1 wm src2 => exact (Laws.EncodedLength.vpermwEvex128 p d s1 wm src2).2
  | vpermwEvex256 p d s1 wm src2 => exact (Laws.EncodedLength.vpermwEvex256 p d s1 wm src2).2
  | vpermwEvex512 p d s1 wm src2 => exact (Laws.EncodedLength.vpermwEvex512 p d s1 wm src2).2

/-- Every EVEX form needs AVX512F, by its flag or by one that implies it (00_scope.md R7, 30_encoding.md R106). -/
theorem Ready.hasAvx512F {f : Form} {s : State} (h : Ready f s = true) (he : f.isEvex = true) :
    s.cfg.hasAvx512F = true := by
  have hf := Ready.features h
  cases f with
  | vexD256 => cases he
  | evexD256 => exact (Bool.and_eq_true_iff.mp hf).1
  | evexD512 => exact hf
  | evexW128 => exact Config.hasAvx512F_of_BW (Bool.and_eq_true_iff.mp hf).1
  | evexW256 => exact Config.hasAvx512F_of_BW (Bool.and_eq_true_iff.mp hf).1
  | evexW512 => exact Config.hasAvx512F_of_BW hf

/-- The destination of an instruction that is ready exists: form 1 names registers below 16, and the others need AVX512F, with which
there are 32. -/
theorem Ready.dest_lt_nvreg {i : Instr} {s : State} (h : Ready i.form s = true) : i.dest.val < s.cfg.nvreg := by
  unfold Config.nvreg
  by_cases hf : s.cfg.hasAvx512F = true
  · rw [if_pos hf]
    exact i.dest.isLt
  · rw [if_neg hf]
    cases i with
    | vpermdVex256 p d s1 src2 => exact d.isLt
    | _ => exact absurd (Ready.hasAvx512F h rfl) hf

/-- The value a register write stores is cut to `MAXVL` (10_state.md R22). -/
theorem stored_lt_maxvl (s : State) {n : Nat} (v : BitVec n) :
    ((v.setWidth s.cfg.maxvl).setWidth 512).toNat < 2 ^ s.cfg.maxvl := by
  rw [BitVec.toNat_setWidth]
  exact lt_of_le_of_lt (Nat.mod_le _ _) (v.setWidth s.cfg.maxvl).isLt

/-- Everything a completed step can be: one register that exists is set to a value within `MAXVL`, and `rip` advances by 5 to 13. -/
theorem step_eq_withResult {s t : State} (h : step s = .next t) :
    ∃ (d : VReg) (v : Zmm) (n : Nat), d.val < s.cfg.nvreg ∧ v.toNat < 2 ^ s.cfg.maxvl ∧ 5 ≤ n ∧ n ≤ 13 ∧
      t = s.withResult d v (s.rip + BitVec.ofNat 64 n) := by
  obtain ⟨i, -, hi⟩ := step_eq_next h
  obtain ⟨hr, v, rfl⟩ := exec_eq_next hi
  obtain ⟨h5, h13⟩ := Instr.length_bounds i
  exact ⟨i.dest, _, i.length, Ready.dest_lt_nvreg hr, stored_lt_maxvl s v, h5, h13,
    State.complete_eq_withResult s i.dest i.length v⟩

/-- A write to a register that exists of a value within `MAXVL` keeps the invariant. -/
theorem State.Inv.withResult {s : State} (h : s.Inv) {d : VReg} {v : Zmm} (hd : d.val < s.cfg.nvreg)
    (hv : v.toNat < 2 ^ s.cfg.maxvl) (rip : Addr) : (s.withResult d v rip).Inv := by
  obtain ⟨hmem, hzmm, hk⟩ := h
  refine ⟨hmem, fun r => ?_, hk⟩
  rw [State.withResult_get, State.withResult_cfg]
  by_cases hr : r = d
  · subst hr
    rw [if_pos rfl]
    exact ⟨hv, fun hge => absurd hd (Nat.not_lt.mpr hge)⟩
  · rw [if_neg hr]
    exact hzmm r

/-- Settles O51: a completed step writes one register that exists, within `MAXVL`, and leaves memory and masks. -/
theorem stepKeepsTheInvariant : Obligations.StepKeepsTheInvariant := by
  unfold Obligations.StepKeepsTheInvariant
  intro s t hs h
  obtain ⟨d, v, n, hd, hv, -, -, rfl⟩ := step_eq_withResult h
  exact hs.withResult hd hv _

/-- Settles O53. -/
theorem stepChangesOneRegisterAndAdvances : Obligations.StepChangesOneRegisterAndAdvances := by
  unfold Obligations.StepChangesOneRegisterAndAdvances
  intro s t h
  obtain ⟨d, v, n, -, hv, h5, h13, ht⟩ := step_eq_withResult h
  exact ⟨d, v, n, h5, h13, hv, ht⟩

/-! ## What a completed instruction is -/

/-- Settles O33: the next state is the old one with the destination written and `rip` advanced. -/
theorem completedInstructionChangesDestinationAndRip : Obligations.CompletedInstructionChangesDestinationAndRip := by
  unfold Obligations.CompletedInstructionChangesDestinationAndRip
  intro i s t h
  obtain ⟨-, v, rfl⟩ := exec_eq_next h
  refine ⟨fun r hr => ?_, ?_⟩
  · rw [State.complete_get, if_neg hr]
  · simp

/-- Settles O34: the value written has as many bits as the form's vectors. -/
theorem destinationIsZeroAboveTheVectorLength : Obligations.DestinationIsZeroAboveTheVectorLength := by
  unfold Obligations.DestinationIsZeroAboveTheVectorLength
  intro i s t h
  obtain ⟨-, v, rfl⟩ := exec_eq_next h
  rw [State.complete_get, if_pos rfl]
  exact stored_lt s v

/-! ## What an execution reads -/

/-- Two states agree on all that the execution of a form with `kl` elements reads: vector and general registers, `rip`, segment bases,
control bits, the configuration, the answers of `Access`, and of the masks k1 to k7 the low `kl` bits. RFLAGS, MXCSR, the CS base, CR2 and
CPL do not stand here. -/
structure ReadsAlike (kl : Nat) (s t : State) : Prop where
  zmm : t.zmm = s.zmm
  gpr : t.gpr = s.gpr
  rip : t.rip = s.rip
  fsBase : t.fsBase = s.fsBase
  gsBase : t.gsBase = s.gsBase
  cr0 : t.cr0 = s.cr0
  cr4 : t.cr4 = s.cr4
  xcr0 : t.xcr0 = s.xcr0
  lma : t.lma = s.lma
  csL : t.csL = s.csL
  cfg : t.cfg = s.cfg
  mask : ∀ a : Fin 8, a ≠ 0 → ∀ j < kl, (t.k.get a).getLsbD j = (s.k.get a).getLsbD j
  access : SameAccess s t

section
variable {kl : Nat} {s t : State} (h : ReadsAlike kl s t)
include h

theorem ReadsAlike.checkEnabled (f : Form) : checkEnabled f t = checkEnabled f s := by
  have hmode : t.mode64 = s.mode64 := by
    unfold State.mode64
    rw [h.lma, h.csL]
  have hos : Form.osEnabled f t = Form.osEnabled f s := by
    unfold Form.osEnabled State.osAvx512Enabled State.osAvxEnabled State.osxsave
    rw [h.cr4, h.xcr0]
  have hts : t.cr0TS = s.cr0TS := by
    unfold State.cr0TS
    rw [h.cr0]
  unfold Machine.checkEnabled
  rw [hmode, hos, hts, h.cfg, raise_eq, raise_eq, h.rip, raise_eq, raise_eq]

theorem ReadsAlike.vec (w n : Nat) (r : VReg) : t.vec w n r = s.vec w n r := by
  unfold State.vec
  rw [h.zmm]

theorem ReadsAlike.linearAddress (p : Prefixes) (N len : Nat) (m : MemOp) :
    linearAddress p N len m t = linearAddress p N len m s := by
  have hreg : t.reg = s.reg := by
    funext r
    rw [State.reg, State.reg, h.gpr]
  have hseg : t.segBase = s.segBase := by
    funext seg
    cases seg with
    | ds => rfl
    | ss => rfl
    | fs => exact h.fsBase
    | gs => exact h.gsBase
  have hterms : MemOp.terms N len t m = MemOp.terms N len s m := by
    cases m <;> simp only [MemOp.terms, hreg, h.rip]
  unfold Machine.linearAddress effectiveAddress
  rw [hseg, hterms]

theorem ReadsAlike.loadBytes (p : Prefixes) (N len n : Nat) (m : MemOp) :
    loadBytes p N len n m t = loadBytes p N len n m s := by
  unfold Machine.loadBytes memRead
  rw [h.linearAddress, h.cfg, access_congr h.access h.rip]
  simp only [raise_eq, h.rip]

theorem ReadsAlike.loadFullMem (p : Prefixes) (N len w n : Nat) (m : MemOp) :
    loadFullMem p N len w n m t = loadFullMem p N len w n m s := by
  unfold Machine.loadFullMem
  rw [h.loadBytes]

theorem ReadsAlike.vexSrc (p : Prefixes) (len w n : Nat) (src2 : VexSrc) :
    VexSrc.load p len w n t src2 = VexSrc.load p len w n s src2 := by
  cases src2 with
  | reg r => exact congrArg _ (h.vec w n _)
  | mem m => exact h.loadFullMem _ _ _ _ _ m

theorem ReadsAlike.fullSrc (p : Prefixes) (len n : Nat) (src2 : FullSrc) :
    FullSrc.load p len n t src2 = FullSrc.load p len n s src2 := by
  cases src2 with
  | reg r => exact congrArg _ (h.vec 32 n r)
  | mem m => exact h.loadFullMem _ _ _ _ _ m
  | bcst m =>
    simp only [FullSrc.load, loadBroadcast]
    rw [h.loadBytes]

theorem ReadsAlike.fullMemSrc (p : Prefixes) (len w n : Nat) (src2 : FullMemSrc) :
    FullMemSrc.load p len w n t src2 = FullMemSrc.load p len w n s src2 := by
  cases src2 with
  | reg r => exact congrArg _ (h.vec w n r)
  | mem m => exact h.loadFullMem _ _ _ _ _ m

/-- A mask acts by the low `kl` bits of one of k1 to k7 (10_state.md R24, R25). -/
theorem ReadsAlike.maskedPermute (w : Nat) (dest src1 : VReg) (wm : Writemask) (data : Vec w kl) :
    maskedPermute w kl dest src1 wm t data = maskedPermute w kl dest src1 wm s data := by
  unfold Machine.maskedPermute applyMask
  rw [h.vec, h.vec]
  refine ofElems_congr fun j hj => ?_
  by_cases ha : wm.aaa = 0
  · simp only [ha, true_or, if_true]
  · rw [h.mask wm.aaa ha j hj]

end

/-- The shared part of forms 2 to 6 in states that agree on what it reads. -/
theorem ReadsAlike.execForm_maskedPermute {w kl : Nat} {s t : State} (h : ReadsAlike kl s t) {g : State → State}
    (hg : ∀ (d : VReg) (len n : Nat) (v : BitVec n), t.complete d len v = g (s.complete d len v)) (f : Form) (len : Nat)
    (dest src1 : VReg) (wm : Writemask) {src2 src2' : Answer (Vec w kl)} (hsrc : src2' = src2) :
    execForm f len dest src2' (Machine.maskedPermute w kl dest src1 wm t) t =
      mapNext g (execForm f len dest src2 (Machine.maskedPermute w kl dest src1 wm s) s) := by
  refine execForm_map (h.checkEnabled f) hsrc fun data => ?_
  rw [h.maskedPermute]
  exact hg _ _ _ _

/-- States that agree on what a form reads have the same outcome, up to a change of state that completing respects. -/
theorem exec_of_readsAlike {i : Instr} {s t : State} (h : ReadsAlike i.form.count s t) {g : State → State}
    (hg : ∀ (d : VReg) (len n : Nat) (v : BitVec n), t.complete d len v = g (s.complete d len v)) :
    exec i t = mapNext g (exec i s) := by
  cases i with
  | vpermdVex256 p d s1 src2 =>
    refine execForm_map (h.checkEnabled _) (h.vexSrc _ _ _ _ src2) fun data => ?_
    rw [h.vec]
    exact hg _ _ _ _
  | vpermdEvex256 p d s1 wm src2 => exact h.execForm_maskedPermute hg _ _ d s1 wm (h.fullSrc _ _ _ src2)
  | vpermdEvex512 p d s1 wm src2 => exact h.execForm_maskedPermute hg _ _ d s1 wm (h.fullSrc _ _ _ src2)
  | vpermwEvex128 p d s1 wm src2 => exact h.execForm_maskedPermute hg _ _ d s1 wm (h.fullMemSrc _ _ _ _ src2)
  | vpermwEvex256 p d s1 wm src2 => exact h.execForm_maskedPermute hg _ _ d s1 wm (h.fullMemSrc _ _ _ _ src2)
  | vpermwEvex512 p d s1 wm src2 => exact h.execForm_maskedPermute hg _ _ d s1 wm (h.fullMemSrc _ _ _ _ src2)

/-- Settles O35: the flags are not among what an execution reads, and completing leaves them. -/
theorem flagsAreNeitherReadNorWritten : Obligations.FlagsAreNeitherReadNorWritten := by
  unfold Obligations.FlagsAreNeitherReadNorWritten
  refine fun i s => ⟨fun x y hacc => ?_, fun t h => ?_⟩
  · have hread : ReadsAlike i.form.count s { s with rflags := x, mxcsr := y } := by
      constructor
      case mask => exact fun _ _ _ _ => rfl
      case access => exact hacc
      all_goals rfl
    exact exec_of_readsAlike hread fun _ _ _ _ => rfl
  · obtain ⟨-, v, rfl⟩ := exec_eq_next h
    exact ⟨rfl, rfl⟩

/-- Settles O36: of the masks an execution reads the low bits of k1 to k7 only. -/
theorem unusedMaskBitsAreIgnored : Obligations.UnusedMaskBitsAreIgnored := by
  unfold Obligations.UnusedMaskBitsAreIgnored
  intro i s k hk hacc
  have hread : ReadsAlike i.form.count s { s with k := k } := by
    constructor
    case mask => exact hk
    case access => exact hacc
    all_goals rfl
  exact exec_of_readsAlike hread fun _ _ _ _ => rfl

/-! ## Fetches that end a step -/

/-- Settles O20. -/
theorem nonCanonicalFetchRaisesGp : Obligations.NonCanonicalFetchRaisesGp := by
  unfold Obligations.NonCanonicalFetchRaisesGp
  intro s n hneed hlt hcan
  obtain ⟨hfault, -⟩ := step_of_needsByte hneed
  rw [← canonical_iff s.cfg.vaBits hlt, Bool.not_eq_true] at hcan
  exact hfault _ (fetchByte_of_nonCanonical hlt hcan)

/-- A canonical instruction byte for which `Access` answers a refusal is refused with its reason (20_memory.md R68). -/
theorem fetchByte_of_refused {a : Nat} {s : State} {r : AccessRefusal} (ha : a < 2 ^ 64)
    (hcan : IsCanonical s.cfg.vaBits.bits a) (h : s.answer .fetch a 1 = .refused r) :
    fetchByte a s = .refused (AccessRefusal.refusal r) := by
  rw [fetchByte_of_canonical ha ((canonical_iff s.cfg.vaBits ha).mpr hcan), access_of_refused h, Answer.bind_refused]

/-- Settles O56. -/
theorem refusedFetches : Obligations.RefusedFetches := by
  unfold Obligations.RefusedFetches
  intro s n hneed
  obtain ⟨-, hrefused⟩ := step_of_needsByte hneed
  refine ⟨fun hwrap => hrefused _ (fetchByte_of_wrap hwrap), fun hlt hcan => ⟨fun h => ?_, fun h => ?_⟩⟩
  · exact hrefused _ (fetchByte_of_refused hlt hcan h)
  · exact hrefused _ (fetchByte_of_refused hlt hcan h)

/-! ## Reset -/

theorem State.reset_zmm_get (r : VReg) : State.reset.zmm.get r = 0 := Vector.getElem_replicate r.isLt

theorem State.reset_k_get (a : Fin 8) : State.reset.k.get a = 0 := Vector.getElem_replicate a.isLt

/-- Settles O47. -/
theorem resetState : Obligations.ResetState := by
  unfold Obligations.ResetState
  refine ⟨State.reset_zmm_get, State.reset_k_get, by decide, ?_⟩
  refine ⟨rfl, rfl, rfl, rfl, rfl, rfl, rfl, rfl, rfl, rfl, fun a => Memory.get_nil a, ?_⟩
  exact ⟨rfl, rfl, rfl, rfl, rfl, rfl⟩

/-- Settles O50: memory lists nothing, and every vector and mask register is 0. -/
theorem resetSatisfiesTheInvariant : Obligations.ResetSatisfiesTheInvariant := by
  unfold Obligations.ResetSatisfiesTheInvariant
  refine ⟨rfl, fun r => ⟨?_, fun _ => State.reset_zmm_get r⟩, fun a => ?_⟩
  · rw [State.reset_zmm_get, BitVec.ofNat_eq_ofNat, BitVec.toNat_zero]
    exact Nat.two_pow_pos _
  · rw [State.reset_k_get, BitVec.ofNat_eq_ofNat, BitVec.toNat_zero]
    exact Nat.two_pow_pos _

end Sys2Proof.Machine
end

section
/-! PROOF. The statements on memory (20_memory.md): addresses, what an operand's read answers, runs, platforms of ranges, and the one memory
that loads and fetches read. -/

namespace Sys2Proof.Machine

/-! ## Addresses (20_memory.md R53, R54) -/

/-- The scaled displacement is the signed one times the factor, modulo 2^64. -/
theorem Disp.value_eq_ofInt (N : Nat) (d : Disp) : Disp.value N d = BitVec.ofInt 64 (addressSum.dispInt N d) := by
  cases d with
  | none => rfl
  | d8 v => simp only [Disp.value, addressSum.dispInt, BitVec.signExtend, BitVec.ofInt_mul, BitVec.ofInt_natCast]
  | d32 v => rfl

/-- The scaled index is the register's value, or 0, times the scale, modulo 2^64. -/
theorem scaledIndex_eq_ofInt (s : State) (i : Option Gpr) (ss : BitVec 2) :
    (i.map s.reg).getD 0 * BitVec.ofNat 64 (2 ^ ss.toNat) =
      BitVec.ofInt 64 (addressSum.indexInt s i * 2 ^ ss.toNat) := by
  have hscale : BitVec.ofInt 64 (2 ^ ss.toNat) = BitVec.ofNat 64 (2 ^ ss.toNat) := by
    rw [← BitVec.ofInt_natCast, Nat.cast_pow, Nat.cast_ofNat]
  rw [BitVec.ofInt_mul, hscale]
  cases i with
  | none => rfl
  | some r => simp [addressSum.indexInt, State.reg]

/-- With 64-bit address size the effective address is the sum of R53 modulo 2^64. -/
theorem ea64_eq_ofInt (N len : Nat) (s : State) (m : MemOp) :
    (MemOp.terms N len s m).ea64 = BitVec.ofInt 64 (addressSum N len s m) := by
  cases m with
  | based b d => simp [MemOp.terms, AddrTerms.ea64, addressSum, State.reg, BitVec.ofInt_add, Disp.value_eq_ofInt]
  | ripRel d => simp [MemOp.terms, AddrTerms.ea64, addressSum, BitVec.ofInt_add, BitVec.signExtend]
  | sib b i ss d =>
    simp only [MemOp.terms, AddrTerms.ea64, addressSum, scaledIndex_eq_ofInt]
    simp [State.reg, BitVec.ofInt_add, Disp.value_eq_ofInt]
  | sibNoBase i ss d =>
    simp only [MemOp.terms, AddrTerms.ea64, addressSum, scaledIndex_eq_ofInt]
    simp [BitVec.ofInt_add, BitVec.signExtend]

/-- With 32-bit address size the effective address is the low half of the one with 64-bit address size, zero-extended. -/
theorem AddrTerms.ea32_eq_setWidth_ea64 (t : AddrTerms) : t.ea32 = (t.ea64.setWidth 32).setWidth 64 := by
  refine congrArg (BitVec.setWidth 64) ?_
  unfold AddrTerms.ea64
  rw [BitVec.setWidth_add _ _ (by decide), BitVec.setWidth_add _ _ (by decide), BitVec.setWidth_mul _ _ (by decide),
    BitVec.setWidth_ofNat_of_le (by decide)]

/-- Settles O45. -/
theorem effectiveAddressIsTheModularSum : Obligations.EffectiveAddressIsTheModularSum := by
  unfold Obligations.EffectiveAddressIsTheModularSum
  intro p N len m s
  unfold effectiveAddress
  cases p.addr32 with
  | false =>
    simp only [Bool.false_eq_true, if_false, ea64_eq_ofInt, BitVec.toNat_ofInt]
    omega
  | true =>
    simp only [if_true, AddrTerms.ea32_eq_setWidth_ea64, ea64_eq_ofInt, BitVec.toNat_setWidth, BitVec.toNat_ofInt]
    omega

/-- DS and SS, the segments without an override, have base 0 (10_state.md R30). -/
theorem segBase_defaultSegment (m : MemOp) (s : State) : s.segBase (MemOp.defaultSegment m) = 0 := by
  have hbase : ∀ b : Gpr, s.segBase (if b = 4 ∨ b = 5 then .ss else .ds) = 0 := fun b => by split <;> rfl
  cases m with
  | based b d => exact hbase b
  | ripRel d => rfl
  | sib b i ss d => exact hbase b
  | sibNoBase i ss d => rfl

/-- The segment base that R54 adds: that of FS or GS under its override, and 0 without one. -/
theorem segBase_segmentOf (p : Prefixes) (m : MemOp) (s : State) :
    s.segBase (segmentOf p m) = match p.seg with
      | .none => 0
      | .fs => s.fsBase
      | .gs => s.gsBase := by
  unfold segmentOf
  cases p.seg with
  | none => exact segBase_defaultSegment m s
  | fs => rfl
  | gs => rfl

/-- Settles O46. -/
theorem linearAddressAddsTheSegmentBase : Obligations.LinearAddressAddsTheSegmentBase := by
  unfold Obligations.LinearAddressAddsTheSegmentBase
  intro p N len m s
  unfold linearAddress
  rw [BitVec.toNat_add, segBase_segmentOf]
  cases p.seg <;> rfl

/-! ## Selection from a broadcast -/

/-- Every element that a permutation can select from a replicated value is that value. -/
theorem permute_replicate {w kl : Nat} (hk : 2 ^ Nat.log2 kl = kl) (idx : Vec w kl) (v : BitVec w) :
    permute w kl idx (replicate w kl v) = replicate w kl v := by
  refine eq_of_elems fun j hj => ?_
  rw [elem_permute _ _ hj, elem_replicate v (sel_lt hk idx j), elem_replicate v hj]

/-- Settles O24. -/
theorem permuteOfABroadcastIsTheBroadcast : Obligations.PermuteOfABroadcastIsTheBroadcast := by
  unfold Obligations.PermuteOfABroadcastIsTheBroadcast
  exact fun idx8 idx16 v => ⟨permute_replicate (by decide) idx8 v, permute_replicate (by decide) idx16 v⟩

/-! ## Faults and refusals of an operand -/

/-- A fault of a form is the checks', or, when they pass, its operand's. -/
theorem execForm_eq_fault_iff {f : Form} {len : Nat} {dest : VReg} {n : Nat} {src2 : Answer (BitVec n)}
    {result : BitVec n → BitVec n} {s : State} {e : Fault} :
    execForm f len dest src2 result s = .fault e ↔
      checkEnabled f s = .fault e ∨ Ready f s = true ∧ src2 = .fault e := by
  unfold execForm
  rw [Answer.toOutcome_eq_fault, Answer.bind_eq_fault, ← checkEnabled_eq_ok]
  exact or_congr_right ⟨fun ⟨_, h⟩ => h, fun h => ⟨(), h⟩⟩

/-- A fault of an instruction is the checks', or, when they pass, that of its operand's read. -/
theorem exec_eq_fault_iff {i : Instr} {s : State} {e : Fault} :
    exec i s = .fault e ↔
      checkEnabled i.form s = .fault e ∨ Ready i.form s = true ∧ ∃ a, i.memAccess = some a ∧
        memRead (segmentOf i.prefixes a.m) (operandAddress i a s) a.n s = .fault e := by
  obtain ⟨result, hs⟩ := exec_shape i s
  split at hs
  next hnone =>
    obtain ⟨data, hs⟩ := hs
    simp [hs, execForm_eq_fault_iff, hnone]
  next a hsome =>
    obtain ⟨g, hs⟩ := hs
    simp [hs, execForm_eq_fault_iff, hsome, Answer.bind_eq_fault]

theorem memRead_congr {s t : State} (h : SameAccess s t) (hrip : t.rip = s.rip) (hcfg : t.cfg = s.cfg) (seg : Segment)
    (la : Addr) (n : Nat) : memRead seg la n t = memRead seg la n s := by
  unfold memRead
  rw [access_congr h hrip, hcfg, raise_eq, raise_eq, hrip]

/-- Settles O37: neither the checks nor the operand's address and its read look at vector or mask registers. -/
theorem faultsDoNotDependOnMaskOrVectors : Obligations.FaultsDoNotDependOnMaskOrVectors := by
  unfold Obligations.FaultsDoNotDependOnMaskOrVectors
  intro i s f zmm k hacc h
  rw [exec_eq_fault_iff] at h ⊢
  rcases h with hcheck | ⟨hready, a, ha, hread⟩
  · exact .inl hcheck
  · refine .inr ⟨hready, a, ha, ?_⟩
    rw [memRead_congr hacc rfl rfl]
    exact hread

theorem memRead_of_wrap {seg : Segment} {la : Addr} {n : Nat} {s : State} (h : la.toNat + n > 2 ^ 64) :
    memRead seg la n s = .refused .wrap := by
  unfold memRead
  rw [if_pos h]

/-- A canonical operand for which `Access` answers a refusal is refused with its reason. -/
theorem memRead_of_refused {seg : Segment} {la : Addr} {n : Nat} {s : State} {r : AccessRefusal}
    (hw : la.toNat + n ≤ 2 ^ 64) (hcan : ∀ b < n, IsCanonical s.cfg.vaBits.bits (la.toNat + b))
    (h : s.answer .read la.toNat n = .refused r) : memRead seg la n s = .refused (AccessRefusal.refusal r) := by
  rw [memRead_of_canonical hw hcan, access_of_refused h, Answer.bind_refused]

/-- On a platform of ranges, without a byte that page-faults, the first refused byte gives the answer's reason (log 13). -/
theorem State.answer_of_first_refused {s : State} {map : List Region} (hp : s.cfg.platform = .ranges map)
    {kind : AccessKind} {la n b : Nat} {r : AccessRefusal} (hb : b < n)
    (hpf : ∀ d < n, ∀ c, regionAnswer map kind s.cpl (la + d) ≠ some (.pageFault c))
    (hr : regionAnswer map kind s.cpl (la + b) = some (.refused r))
    (hfirst : ∀ d < b, regionAnswer map kind s.cpl (la + d) = none) : s.answer kind la n = .refused r := by
  rw [State.answer_eq_refused, State.verdict_of_ranges hp]
  rcases rangesVerdict_cases map kind s.cpl la n with ⟨i, c, hc, -⟩ | ⟨-, hv⟩
  · exact absurd hc (hpf i.val i.isLt c)
  · rw [hv, firstRefusal_eq_some hb hr fun d hd r' => by simp [hfirst d hd]]

/-- Settles O43. -/
theorem wrappingAndDeviceOperandsAreRefused : Obligations.WrappingAndDeviceOperandsAreRefused := by
  unfold Obligations.WrappingAndDeviceOperandsAreRefused
  intro i a s ha hready
  refine ⟨fun hwrap => exec_of_memRead_refused hready ha (memRead_of_wrap hwrap), fun hw hcan => ?_⟩
  have hrefused : ∀ r, s.answer .read (operandAddress i a s).toNat a.n = .refused r →
      exec i s = .refused (AccessRefusal.refusal r) :=
    fun r h => exec_of_memRead_refused hready ha (memRead_of_refused hw hcan h)
  refine ⟨hrefused .sideEffects, hrefused .unallocated, fun map b r hp hb hpf hr hfirst => ?_⟩
  exact hrefused r (State.answer_of_first_refused hp hb hpf hr hfirst)

/-! ## Steps and runs -/

/-- Settles O52. -/
theorem stepWritesNoMemory : Obligations.StepWritesNoMemory := by
  unfold Obligations.StepWritesNoMemory
  intro s t h
  obtain ⟨d, v, n, -, -, -, -, rfl⟩ := step_eq_withResult h
  exact ⟨rfl, fun _ => rfl⟩

/-- A run of any length, however it stands, has changed vector registers and `rip` at most. -/
theorem runTo_state_eq (endAddr : Addr) (n : Nat) (s : State) :
    (runTo endAddr n s).state = { s with zmm := (runTo endAddr n s).state.zmm, rip := (runTo endAddr n s).state.rip } := by
  induction n generalizing s with
  | zero =>
    unfold runTo
    split <;> rfl
  | succ n ih =>
    unfold runTo
    split
    · rfl
    · cases h : step s with
      | next t =>
        obtain ⟨d, v, len, -, -, -, -, rfl⟩ := step_eq_withResult h
        exact ih _
      | fault f => rfl
      | refused r => rfl

/-- A run that ends stands at its end address. -/
theorem rip_of_runTo_eq_final {endAddr : Addr} {n : Nat} {s t : State} (h : runTo endAddr n s = .final t) :
    t.rip = endAddr := by
  induction n generalizing s with
  | zero =>
    unfold runTo at h
    split at h
    next hrip => cases h; exact hrip
    next => cases h
  | succ n ih =>
    unfold runTo at h
    split at h
    next hrip => cases h; exact hrip
    next =>
      cases hstep : step s with
      | next u => rw [hstep] at h; exact ih h
      | fault f => rw [hstep] at h; cases h
      | refused r => rw [hstep] at h; cases h

/-- Settles O54. -/
theorem runChangesOnlyVectorRegistersAndRip : Obligations.RunChangesOnlyVectorRegistersAndRip := by
  unfold Obligations.RunChangesOnlyVectorRegistersAndRip
  intro endAddr n s t h
  have hstate := runTo_state_eq endAddr n s
  rw [h] at hstate
  rw [← rip_of_runTo_eq_final h]
  exact hstate

/-! ## Platforms of ranges, and the one memory -/

/-- Settles O58. -/
theorem rangesReadMemory : Obligations.RangesReadMemory := by
  unfold Obligations.RangesReadMemory
  intro s map hp
  refine ⟨fun kind la n h => State.answer_of_plain hp h, fun t ht hm hc => sameAccess_of_ranges hp ht hm hc, ?_⟩
  rintro rfl kind la n
  exact ⟨_, State.answer_of_plain hp fun _ _ => rfl⟩

/-- The elements of a slice that begins at an element. -/
theorem elem_extractLsb' {w n m d j : Nat} (v : BitVec n) (hj : j < m) :
    elem w (v.extractLsb' (w * d) (w * m)) j = elem w v (d + j) := by
  apply BitVec.eq_of_getLsbD_eq
  intro b hb
  have h := Nat.mul_le_mul_left w (show j + 1 ≤ m from hj)
  rw [Nat.mul_add] at h
  simp only [getLsbD_elem, BitVec.getLsbD_extractLsb', hb, show w * j + b < w * m by omega, decide_true, Bool.true_and,
    Nat.mul_add, Nat.add_assoc]

/-- The bytes that an access gets are memory's, at their linear addresses (20_memory.md R62, R65). -/
theorem access_eq_ok {kind : AccessKind} {la n : Nat} {s : State} {v : Vector Byte n} (h : access kind la n s = .ok v) :
    v = Vector.ofFn fun i => s.mem.get (la + i.val) := by
  unfold access at h
  split at h
  next bytes hbytes =>
    cases h
    exact State.eq_of_answer_ok hbytes
  next => cases h
  next => cases h

theorem fetchByte_eq_ok {a : Nat} {s : State} {x : Byte} (h : fetchByte a s = .ok x) : x = s.mem.get a := by
  unfold fetchByte at h
  split at h
  · cases h
  · split at h
    · cases h
    · obtain ⟨bytes, hbytes, hx⟩ := Answer.bind_eq_ok.mp h
      cases hx
      simp [access_eq_ok hbytes]

/-- Settles O59: both loads and the fetch return memory's bytes, element by element. -/
theorem loadsAndFetchesReadOneMemory : Obligations.LoadsAndFetchesReadOneMemory := by
  unfold Obligations.LoadsAndFetchesReadOneMemory
  intro s seg la n v hv
  obtain ⟨hw, hbytes⟩ := memRead_eq_ok hv
  refine ⟨hbytes, fun seg' d m w hdm hw' => eq_of_elems fun j hj => ?_, fun b hb x hx => ?_⟩
  · have hla : (la + BitVec.ofNat 64 d).toNat = la.toNat + d := by
      rw [BitVec.toNat_add, BitVec.toNat_ofNat]
      omega
    obtain ⟨-, hbytes'⟩ := memRead_eq_ok hw'
    rw [hbytes' j hj, elem_extractLsb' v hj, hbytes (d + j) (by omega), hla, Nat.add_assoc]
  · rw [fetchByte_eq_ok hx, hbytes b hb]

end Sys2Proof.Machine
end

section
/-! PROOF. The statements on encoding (30_encoding.md): runs of prefixes, what a whole instruction decodes to, what a decoded instruction
is, the round trip with the encoder, the rows of the opcode table, and the steps that #UD causes, refusals, lengths and the mode decide. -/

namespace Sys2Proof.Machine

/-! ## Admitted runs of prefixes (30_encoding.md R82) -/

/-- A run of 67H, 64H and 65H is counted by these three. -/
theorem length_eq_counts {run : List Byte} (h : run.all (fun b => b == 0x67 || b == 0x64 || b == 0x65) = true) :
    run.length = run.count 0x67 + (run.count 0x64 + run.count 0x65) := by
  induction run with
  | nil => rfl
  | cons a run ih =>
    rw [List.all_cons, Bool.and_eq_true] at h
    obtain ⟨ha, hrun⟩ := h
    simp only [Bool.or_eq_true, beq_iff_eq] at ha
    rw [List.length_cons, ih hrun]
    rcases ha with (rfl | rfl) | rfl <;> simp <;> omega

/-- An admitted run holds at most one 67H and one segment override. -/
theorem length_le_two_of_admitPrefixes {run : List Byte} {p : Prefixes} (h : admitPrefixes run = some p) :
    run.length ≤ 2 ∧ run.all (fun b => b == 0x67 || b == 0x64 || b == 0x65) = true := by
  unfold admitPrefixes at h
  split at h
  next hadm =>
    simp only [Bool.and_eq_true, decide_eq_true_eq] at hadm
    obtain ⟨⟨hall, h67⟩, hseg⟩ := hadm
    have := length_eq_counts hall
    exact ⟨by omega, hall⟩
  next => cases h

/-- The eight admitted runs, with their meaning. -/
def admittedRuns : List (List Byte × Prefixes) :=
  [([], ⟨false, .none⟩), ([0x67], ⟨true, .none⟩), ([0x64], ⟨false, .fs⟩), ([0x65], ⟨false, .gs⟩),
    ([0x67, 0x64], ⟨true, .fs⟩), ([0x64, 0x67], ⟨true, .fs⟩), ([0x67, 0x65], ⟨true, .gs⟩), ([0x65, 0x67], ⟨true, .gs⟩)]

theorem admitPrefixes_of_mem : ∀ x ∈ admittedRuns, admitPrefixes x.1 = some x.2 := by decide

/-- A run is admitted with a meaning exactly when the two stand among the eight. -/
theorem admitPrefixes_eq_some_iff (run : List Byte) (p : Prefixes) :
    admitPrefixes run = some p ↔ (run, p) ∈ admittedRuns := by
  refine ⟨fun h => ?_, admitPrefixes_of_mem (run, p)⟩
  obtain ⟨hlen, hall⟩ := length_le_two_of_admitPrefixes h
  match run, hlen, hall with
  | [], _, _ => cases h; decide
  | [a], _, hall =>
    simp only [List.all_cons, List.all_nil, Bool.and_true, Bool.or_eq_true, beq_iff_eq] at hall
    rcases hall with (rfl | rfl) | rfl <;> cases h <;> decide
  | [a, b], _, hall =>
    simp only [List.all_cons, List.all_nil, Bool.and_true, Bool.or_eq_true, Bool.and_eq_true, beq_iff_eq] at hall
    obtain ⟨ha, hb⟩ := hall
    rcases ha with (rfl | rfl) | rfl <;> rcases hb with (rfl | rfl) | rfl <;> cases h <;> decide

/-- What every admitted run has: legacy prefixes only, none of them forbidden or one of 26H, 2EH, 36H, 3EH, no repeat, not both
overrides, and the length of its meaning. -/
theorem admitted_run {run : List Byte} {p : Prefixes} (h : admitPrefixes run = some p) :
    run.all isLegacyPrefix = true ∧ run.any isForbiddenPrefix = false ∧ run.length = p.length ∧
      ¬(0x26 ∈ run ∨ 0x2E ∈ run ∨ 0x36 ∈ run ∨ 0x3E ∈ run ∨ (0x64 ∈ run ∧ 0x65 ∈ run) ∨ ¬run.Nodup) := by
  have heach : ∀ x ∈ admittedRuns, x.1.all isLegacyPrefix = true ∧ x.1.any isForbiddenPrefix = false ∧
      x.1.length = x.2.length ∧ ¬(0x26 ∈ x.1 ∨ 0x2E ∈ x.1 ∨ 0x36 ∈ x.1 ∨ 0x3E ∈ x.1 ∨
        (0x64 ∈ x.1 ∧ 0x65 ∈ x.1) ∨ ¬x.1.Nodup) := by decide
  exact heach (run, p) ((admitPrefixes_eq_some_iff run p).mp h)

/-! ## What is judged in an instruction that is read whole (30_encoding.md R97) -/

/-- The run of prefixes is judged, a forbidden one first, and after an admitted run the row. -/
def judgeRun (run : List Byte) (row : Prefixes → Decoded) : Decoded :=
  if run.any isForbiddenPrefix then .ud .forbiddenPrefix
  else match admitPrefixes run with
    | none => .prefixRun
    | some p => row p

theorem judgeRun_of_forbidden {run : List Byte} (h : run.any isForbiddenPrefix = true) (row : Prefixes → Decoded) :
    judgeRun run row = .ud .forbiddenPrefix := if_pos h

theorem judgeRun_of_refused {run : List Byte} (hf : run.any isForbiddenPrefix = false) (ha : admitPrefixes run = none)
    (row : Prefixes → Decoded) : judgeRun run row = .prefixRun := by
  simp [judgeRun, hf, ha]

theorem judgeRun_of_admitted {run : List Byte} {p : Prefixes} (h : admitPrefixes run = some p) (row : Prefixes → Decoded) :
    judgeRun run row = row p := by
  obtain ⟨-, hf, -⟩ := admitted_run h
  simp [judgeRun, hf, h]

theorem judgeRun_eq_instr {run : List Byte} {row : Prefixes → Decoded} {i : Instr} {n : Nat}
    (h : judgeRun run row = .instr i n) : ∃ p, admitPrefixes run = some p ∧ row p = .instr i n := by
  unfold judgeRun at h
  split at h
  · cases h
  · split at h
    · cases h
    next p hp => exact ⟨p, hp, h⟩

/-- Form 1 after its prefixes, with L and W judged (R98, R104). -/
def vexRow (b1 b2 modrm : Byte) (rm : RmOperand) (len : Nat) (p : Prefixes) : Decoded :=
  if bitAt b2 2 = false then .ud .vexL0
  else if bitAt b2 7 then .ud .vexW1
  else .instr
    (.vpermdVex256 p (reg4 (!bitAt b1 7) (field modrm 3 3)) (~~~field b2 3 4).toFin (vexSrc (!bitAt b1 5) rm)) len

/-- Form 1 is the instruction exactly with L = 1 and W = 0. -/
theorem vexRow_eq_instr {b1 b2 modrm : Byte} {rm : RmOperand} {len n : Nat} {p : Prefixes} {i : Instr} :
    vexRow b1 b2 modrm rm len p = .instr i n ↔ bitAt b2 2 = true ∧ bitAt b2 7 = false ∧ n = len ∧
      i = .vpermdVex256 p (reg4 (!bitAt b1 7) (field modrm 3 3)) (~~~field b2 3 4).toFin (vexSrc (!bitAt b1 5) rm) := by
  unfold vexRow
  cases bitAt b2 2 with
  | false => simp
  | true =>
    cases bitAt b2 7 with
    | true => simp
    | false => simp [eq_comm, and_comm]

/-- Form 1 after its prefixes is an instruction or #UD. -/
theorem vexRow_cases (b1 b2 modrm : Byte) (rm : RmOperand) (len : Nat) (p : Prefixes) :
    (∃ i, vexRow b1 b2 modrm rm len p = .instr i len) ∨ ∃ c, vexRow b1 b2 modrm rm len p = .ud c := by
  unfold vexRow
  split
  · exact .inr ⟨_, rfl⟩
  · split
    · exact .inr ⟨_, rfl⟩
    · exact .inl ⟨_, rfl⟩

/-- The end of step 3 of R97 on the fields of P0, P1 and P2 (R87). -/
def evexFields (p : Prefixes) (p0 p1 p2 modrm : Byte) (rm : RmOperand) : Except UdCause Instr :=
  evexInstr p (bitAt p1 7) (field p2 5 2) (!bitAt p0 6) (!bitAt p0 5) (bitAt p2 4)
    (reg5 (!bitAt p0 4) (!bitAt p0 7) (field modrm 3 3)) (BitVec.ofBool (!bitAt p2 3) ++ ~~~field p1 3 4).toFin
    ⟨(field p2 0 3).toFin, bitAt p2 7⟩ rm

/-- Forms 2 to 6 after their prefixes, with L'L judged and then the rest (R99, R100). -/
def evexRow (p0 p1 p2 op modrm : Byte) (rm : RmOperand) (len : Nat) (p : Prefixes) : Decoded :=
  if field p2 5 2 = 3 then .ud .evexLL3
  else if op = 0x36 ∧ field p2 5 2 = 0 then .ud .vpermdLL0
  else match evexFields p p0 p1 p2 modrm rm with
    | .error c => .ud c
    | .ok i => .instr i len

theorem evexRow_eq_instr {p0 p1 p2 op modrm : Byte} {rm : RmOperand} {len n : Nat} {p : Prefixes} {i : Instr} :
    evexRow p0 p1 p2 op modrm rm len p = .instr i n ↔ n = len ∧ field p2 5 2 ≠ 3 ∧ ¬(op = 0x36 ∧ field p2 5 2 = 0) ∧
      evexFields p p0 p1 p2 modrm rm = .ok i := by
  unfold evexRow
  split
  next h3 => simp [h3]
  next h3 =>
    split
    next h0 => simp [h0]
    next h0 =>
      simp only [ne_eq, h3, h0, not_false_iff, true_and]
      cases evexFields p p0 p1 p2 modrm rm <;> simp [eq_comm, and_comm]

/-- Forms 2 to 6 after their prefixes are an instruction or #UD. -/
theorem evexRow_cases (p0 p1 p2 op modrm : Byte) (rm : RmOperand) (len : Nat) (p : Prefixes) :
    (∃ i, evexRow p0 p1 p2 op modrm rm len p = .instr i len) ∨ ∃ c, evexRow p0 p1 p2 op modrm rm len p = .ud c := by
  unfold evexRow
  split
  · exact .inr ⟨_, rfl⟩
  · split
    · exact .inr ⟨_, rfl⟩
    · split
      · exact .inr ⟨_, rfl⟩
      · exact .inl ⟨_, rfl⟩

/-- The instruction of a row with opcode 36H, by its length bits. -/
def vpermdOf (ll : BitVec 2) (p : Prefixes) (dest src1 : VReg) (wm : Writemask) (src2 : FullSrc) : Instr :=
  if ll = 1 then .vpermdEvex256 p dest src1 wm src2 else .vpermdEvex512 p dest src1 wm src2

/-- The instruction of a row with opcode 8DH, by its length bits. -/
def vpermwOf (ll : BitVec 2) (p : Prefixes) (dest src1 : VReg) (wm : Writemask) (src2 : FullMemSrc) : Instr :=
  if ll = 0 then .vpermwEvex128 p dest src1 wm src2
  else if ll = 1 then .vpermwEvex256 p dest src1 wm src2
  else .vpermwEvex512 p dest src1 wm src2

/-- What the checks of R101 and R102 leave: a mask that is well-formed, an operand that b allows, and no broadcast of words. -/
theorem evexInstr_eq_ok {p : Prefixes} {w x b bcst : Bool} {ll : BitVec 2} {dest src1 : VReg} {wm : Writemask}
    {rm : RmOperand} {i : Instr} : evexInstr p w ll x b bcst dest src1 wm rm = .ok i ↔ wm.wf = true ∧
      ∃ src2, fullSrc x b bcst rm = some src2 ∧
        ((w = false ∧ i = vpermdOf ll p dest src1 wm src2) ∨
          (w = true ∧ bcst = false ∧ i = vpermwOf ll p dest src1 wm (fullMemSrc x b rm))) := by
  have hwm : (wm.z && wm.aaa == 0) = !wm.wf := by simp [Writemask.wf, bne]
  unfold evexInstr
  rw [hwm]
  cases fullSrc x b bcst rm with
  | none => simp
  | some src2 =>
    cases wm.wf with
    | false => cases w <;> cases bcst <;> simp
    | true =>
      cases w with
      | false => simp [vpermdOf, @eq_comm _ i]
      | true =>
        cases bcst with
        | true => simp
        | false => simp [vpermwOf, ← apply_ite (Except.ok (ε := UdCause)), @eq_comm _ i]

/-! ## Whole instructions (30_encoding.md R80, R97) -/

theorem decodeVex_of_pattern {b1 b2 op : Byte} (h : vexPattern b1 b2 op = true) (run rest : List Byte) :
    decodeVex run b1 b2 op rest = readOperand (run.length + 4) (!bitAt b1 6) (!bitAt b1 5) rest fun modrm rm len =>
      judgeRun run (vexRow b1 b2 modrm rm len) := by
  simp only [vexPattern, Bool.and_eq_true, beq_iff_eq, and_assoc] at h
  unfold decodeVex
  rw [if_neg (not_not_intro h)]
  rfl

theorem decodeVex_of_not_pattern {b1 b2 op : Byte} (h : vexPattern b1 b2 op = false) (run rest : List Byte) :
    decodeVex run b1 b2 op rest = .notInScope := by
  rw [← Bool.not_eq_true, vexPattern] at h
  simp only [Bool.and_eq_true, beq_iff_eq, and_assoc] at h
  exact if_pos h

/-- What is judged after 62H, wrong reserved bits first (R103). -/
def evexJudge (run : List Byte) (p0 p1 p2 op modrm : Byte) (rm : RmOperand) (len : Nat) : Decoded :=
  if evexFixed p0 p1 = false then .ud .evexReserved else judgeRun run (evexRow p0 p1 p2 op modrm rm len)

theorem evexFixed_iff {p0 p1 : Byte} : evexFixed p0 p1 = true ↔ field p0 2 2 = 0 ∧ bitAt p1 2 = true := by
  simp [evexFixed]

theorem evexPattern_iff {p0 p1 op : Byte} : evexPattern p0 p1 op = true ↔ evexFixed p0 p1 = true ∧
    field p0 0 2 = 2 ∧ field p1 0 2 = 1 ∧ ((op = 0x36 ∧ bitAt p1 7 = false) ∨ (op = 0x8D ∧ bitAt p1 7 = true)) := by
  simp [evexPattern, and_assoc]

theorem decodeEvex_of_pattern {p0 p1 op : Byte} (h : evexPattern p0 p1 op = true ∨ evexFixed p0 p1 = false) (p2 : Byte)
    (run rest : List Byte) : decodeEvex run p0 p1 p2 op rest =
      readOperand (run.length + 5) (!bitAt p0 6) (!bitAt p0 5) rest (evexJudge run p0 p1 p2 op) := by
  have hif : ¬((field p0 2 2 = 0 ∧ bitAt p1 2 = true) ∧ ¬(field p0 0 2 = 2 ∧ field p1 0 2 = 1 ∧
      ((op = 0x36 ∧ bitAt p1 7 = false) ∨ (op = 0x8D ∧ bitAt p1 7 = true)))) := by
    rw [← evexFixed_iff]
    rintro ⟨hfix, hnot⟩
    rcases h with h | h
    · exact hnot (evexPattern_iff.mp h).2
    · rw [h] at hfix
      cases hfix
  unfold decodeEvex evexJudge
  rw [if_neg hif]
  congr 1
  funext modrm rm len
  simp only [← evexFixed_iff, Bool.not_eq_true]
  rfl

theorem decodeEvex_of_not_pattern {p0 p1 op : Byte} (hfix : evexFixed p0 p1 = true) (h : evexPattern p0 p1 op = false)
    (p2 : Byte) (run rest : List Byte) : decodeEvex run p0 p1 p2 op rest = .notInScope := by
  rw [← Bool.not_eq_true, evexPattern_iff] at h
  exact if_pos ⟨evexFixed_iff.mp hfix, fun hpat => h ⟨hfix, hpat⟩⟩

/-- What an instruction that is there whole decodes to: its length is judged, then its run of prefixes, then its row. -/
theorem decode_vex_whole {run : List Byte} (hrun : run.all isLegacyPrefix = true) {b1 b2 op modrm : Byte}
    (hpat : vexPattern b1 b2 op = true) {tail : List Byte} {rm : RmOperand} {n : Nat}
    (hrm : readRm modrm (!bitAt b1 6) (!bitAt b1 5) tail = some (rm, n)) :
    decode (run ++ [0xC4, b1, b2, op, modrm] ++ tail) =
      if run.length + 5 + n > 15 then .gpLen else judgeRun run (vexRow b1 b2 modrm rm (run.length + 5 + n)) := by
  rw [List.append_assoc]
  exact (decode_vex hrun b1 b2 op (modrm :: tail)).trans
    ((decodeVex_of_pattern hpat _ _).trans (readOperand_of_readRm hrm _))

theorem decode_evex_whole {run : List Byte} (hrun : run.all isLegacyPrefix = true) {p0 p1 op modrm : Byte} (p2 : Byte)
    (hpat : evexPattern p0 p1 op = true ∨ evexFixed p0 p1 = false) {tail : List Byte} {rm : RmOperand} {n : Nat}
    (hrm : readRm modrm (!bitAt p0 6) (!bitAt p0 5) tail = some (rm, n)) :
    decode (run ++ [0x62, p0, p1, p2, op, modrm] ++ tail) =
      if run.length + 6 + n > 15 then .gpLen else evexJudge run p0 p1 p2 op modrm rm (run.length + 6 + n) := by
  rw [List.append_assoc]
  exact (decode_evex hrun p0 p1 p2 op (modrm :: tail)).trans
    ((decodeEvex_of_pattern hpat _ _ _).trans (readOperand_of_readRm hrm _))

theorem evexJudge_of_pattern {p0 p1 op : Byte} (h : evexPattern p0 p1 op = true) (run : List Byte) (p2 modrm : Byte)
    (rm : RmOperand) (len : Nat) :
    evexJudge run p0 p1 p2 op modrm rm len = judgeRun run (evexRow p0 p1 p2 op modrm rm len) := by
  unfold evexJudge
  rw [(evexPattern_iff.mp h).1]
  rfl

/-- After an admitted run an instruction is at most 13 bytes long, so the row decides. -/
theorem decode_vex_admitted {run : List Byte} {p : Prefixes} (hadm : admitPrefixes run = some p) {b1 b2 op modrm : Byte}
    (hpat : vexPattern b1 b2 op = true) {tail : List Byte} {rm : RmOperand} {n : Nat}
    (hrm : readRm modrm (!bitAt b1 6) (!bitAt b1 5) tail = some (rm, n)) :
    decode (run ++ [0xC4, b1, b2, op, modrm] ++ tail) = vexRow b1 b2 modrm rm (run.length + 5 + n) p := by
  have hn : n ≤ 5 := readRm_length_le hrm
  obtain ⟨hlen, -⟩ := length_le_two_of_admitPrefixes hadm
  obtain ⟨hrun, -⟩ := admitted_run hadm
  rw [decode_vex_whole hrun hpat hrm, if_neg (by omega), judgeRun_of_admitted hadm]

theorem decode_evex_admitted {run : List Byte} {p : Prefixes} (hadm : admitPrefixes run = some p)
    {p0 p1 op modrm : Byte} (p2 : Byte) (hpat : evexPattern p0 p1 op = true) {tail : List Byte} {rm : RmOperand} {n : Nat}
    (hrm : readRm modrm (!bitAt p0 6) (!bitAt p0 5) tail = some (rm, n)) :
    decode (run ++ [0x62, p0, p1, p2, op, modrm] ++ tail) = evexRow p0 p1 p2 op modrm rm (run.length + 6 + n) p := by
  have hn : n ≤ 5 := readRm_length_le hrm
  obtain ⟨hlen, -⟩ := length_le_two_of_admitPrefixes hadm
  obtain ⟨hrun, -⟩ := admitted_run hadm
  rw [decode_evex_whole hrun p2 (.inl hpat) hrm, if_neg (by omega), evexJudge_of_pattern hpat, judgeRun_of_admitted hadm]

/-! ## What a decoded instruction is -/

/-- How bytes come to decode to an instruction of a length: an admitted run, the pattern of form 1 or of forms 2 to 6, an operand
read whole, and fields that the row accepts. -/
inductive DecodedAs : List Byte → Instr → Nat → Prop
  | vex {run : List Byte} {p : Prefixes} {b1 b2 op modrm : Byte} {tail : List Byte} {rm : RmOperand} {n : Nat} {i : Instr}
      (hadm : admitPrefixes run = some p) (hpat : vexPattern b1 b2 op = true)
      (hrm : readRm modrm (!bitAt b1 6) (!bitAt b1 5) tail = some (rm, n))
      (hrow : vexRow b1 b2 modrm rm (run.length + 5 + n) p = .instr i (run.length + 5 + n)) :
      DecodedAs (run ++ [0xC4, b1, b2, op, modrm] ++ tail) i (run.length + 5 + n)
  | evex {run : List Byte} {p : Prefixes} {p0 p1 p2 op modrm : Byte} {tail : List Byte} {rm : RmOperand} {n : Nat}
      {i : Instr} (hadm : admitPrefixes run = some p) (hpat : evexPattern p0 p1 op = true)
      (hrm : readRm modrm (!bitAt p0 6) (!bitAt p0 5) tail = some (rm, n))
      (hrow : evexRow p0 p1 p2 op modrm rm (run.length + 6 + n) p = .instr i (run.length + 6 + n)) :
      DecodedAs (run ++ [0x62, p0, p1, p2, op, modrm] ++ tail) i (run.length + 6 + n)

/-- With too few bytes for the operand there is no result. -/
theorem readOperand_of_readRm_none {before : Nat} {x b : Bool} {modrm : Byte} {tail : List Byte}
    (h : readRm modrm x b tail = none) (judge : Byte → RmOperand → Nat → Decoded) :
    readOperand before x b (modrm :: tail) judge = .truncated := by
  unfold readOperand
  simp only [h]

/-- An operand that is read and judged to be an instruction. -/
theorem readOperand_eq_instr {before : Nat} {x b : Bool} {rest : List Byte} {judge : Byte → RmOperand → Nat → Decoded}
    {i : Instr} {n : Nat} (h : readOperand before x b rest judge = .instr i n) :
    ∃ modrm tail rm k, rest = modrm :: tail ∧ readRm modrm x b tail = some (rm, k) ∧
      judge modrm rm (before + 1 + k) = .instr i n := by
  cases rest with
  | nil => cases h
  | cons modrm tail =>
    cases hrm : readRm modrm x b tail with
    | none => rw [readOperand_of_readRm_none hrm] at h; cases h
    | some r =>
      obtain ⟨rm, k⟩ := r
      rw [readOperand_of_readRm hrm] at h
      split at h
      · cases h
      · exact ⟨modrm, tail, rm, k, rfl, hrm, h⟩

theorem decodeVex_eq_instr {run : List Byte} {b1 b2 op : Byte} {rest : List Byte} {i : Instr} {n : Nat}
    (h : decodeVex run b1 b2 op rest = .instr i n) : DecodedAs (run ++ 0xC4 :: b1 :: b2 :: op :: rest) i n := by
  cases hpat : vexPattern b1 b2 op with
  | false => rw [decodeVex_of_not_pattern hpat] at h; cases h
  | true =>
    rw [decodeVex_of_pattern hpat] at h
    obtain ⟨modrm, tail, rm, k, rfl, hrm, hjudge⟩ := readOperand_eq_instr h
    obtain ⟨p, hadm, hrow⟩ := judgeRun_eq_instr hjudge
    obtain ⟨-, -, rfl, -⟩ := vexRow_eq_instr.mp hrow
    simpa using DecodedAs.vex (run := run) (tail := tail) hadm hpat hrm hrow

theorem decodeEvex_eq_instr {run : List Byte} {p0 p1 p2 op : Byte} {rest : List Byte} {i : Instr} {n : Nat}
    (h : decodeEvex run p0 p1 p2 op rest = .instr i n) : DecodedAs (run ++ 0x62 :: p0 :: p1 :: p2 :: op :: rest) i n := by
  cases hfix : evexFixed p0 p1 with
  | false =>
    rw [decodeEvex_of_pattern (.inr hfix)] at h
    obtain ⟨modrm, tail, rm, k, -, -, hjudge⟩ := readOperand_eq_instr h
    rw [evexJudge, if_pos hfix] at hjudge
    cases hjudge
  | true =>
    cases hpat : evexPattern p0 p1 op with
    | false => rw [decodeEvex_of_not_pattern hfix hpat] at h; cases h
    | true =>
      rw [decodeEvex_of_pattern (.inl hpat)] at h
      obtain ⟨modrm, tail, rm, k, rfl, hrm, hjudge⟩ := readOperand_eq_instr h
      rw [evexJudge_of_pattern hpat] at hjudge
      obtain ⟨p, hadm, hrow⟩ := judgeRun_eq_instr hjudge
      obtain ⟨rfl, -⟩ := evexRow_eq_instr.mp hrow
      simpa using DecodedAs.evex (run := run) (tail := tail) hadm hpat hrm hrow

/-- The bytes that decode to an instruction of a length are those that `DecodedAs` describes. -/
theorem decode_eq_instr_iff {bs : List Byte} {i : Instr} {n : Nat} : decode bs = .instr i n ↔ DecodedAs bs i n := by
  constructor
  · intro h
    rw [← splitPrefixes_fst_append_snd bs]
    unfold decode decodeBody at h
    split at h
    next => cases h
    next b0 body hsnd =>
      rw [hsnd]
      split at h
      next h0 =>
        split at h
        next b1 b2 op rest => rw [h0]; exact decodeVex_eq_instr h
        next => cases h
      next =>
        split at h
        next h0 =>
          split at h
          next p0 p1 p2 op rest => rw [h0]; exact decodeEvex_eq_instr h
          next => cases h
        next => cases h
  · intro h
    cases h with
    | vex hadm hpat hrm hrow => rw [decode_vex_admitted hadm hpat hrm, hrow]
    | evex hadm hpat hrm hrow => rw [decode_evex_admitted hadm _ hpat hrm, hrow]

/-! ## Operand 3 as it is read (30_encoding.md R90, R101) -/

/-- The operand can be encoded: R90 has bytes for it. -/
def RmOperand.Wf : RmOperand → Prop
  | .reg _ => True
  | .mem m => m.wf = true

/-- The SIB and displacement bytes of an operand. -/
def RmOperand.bytes : RmOperand → Nat
  | .reg _ => 0
  | .mem m => m.length

theorem low_reg4 (hi : Bool) (lo : BitVec 3) : Gpr.low (reg4 hi lo) = lo.toNat := by
  cases hi <;> revert lo <;> decide

theorem low_reg4_eq_five {hi : Bool} {lo : BitVec 3} : Gpr.low (reg4 hi lo) = 5 ↔ lo = 5 := by
  rw [low_reg4]
  exact BitVec.toNat_inj (y := 5#3)

theorem low_reg4_eq_four {hi : Bool} {lo : BitVec 3} : Gpr.low (reg4 hi lo) = 4 ↔ lo = 4 := by
  rw [low_reg4]
  exact BitVec.toNat_inj (y := 4#3)

/-- A displacement that is read is as long as it says, and there is none only for mod = 00b. -/
theorem readDisp_eq_some {mod : BitVec 2} {bs : List Byte} {d : Disp × Nat} (h : readDisp mod bs = some d) :
    d.2 = d.1.length ∧ (d.1 = .none → mod = 0) := by
  unfold readDisp at h
  split at h
  next h0 => cases h; exact ⟨rfl, fun _ => h0⟩
  next =>
    split at h <;> obtain ⟨v, -, rfl⟩ := Option.map_eq_some_iff.mp h <;> exact ⟨rfl, nofun⟩

/-- A displacement read for a base is one that the base can have, since mod = 00b with low base bits 101b is another form. -/
theorem wfBase_of_readDisp {mod : BitVec 2} {bs : List Byte} {d : Disp × Nat} (h : readDisp mod bs = some d) {hi : Bool}
    {lo : BitVec 3} (hne : ¬(mod = 0 ∧ lo = 5)) : d.1.wfBase (reg4 hi lo) = true := by
  obtain ⟨-, hmod⟩ := readDisp_eq_some h
  simp only [Disp.wfBase, Bool.or_eq_true, bne_iff_ne, ne_eq, low_reg4_eq_five]
  by_cases hd : d.1 = .none
  · exact .inr fun hlo => hne ⟨hmod hd, hlo⟩
  · exact .inl hd

/-- An operand that is read can be encoded, and takes as many bytes as its form has. -/
theorem readSib_eq_some {mod : BitVec 2} {x b : Bool} {bs : List Byte} {r : RmOperand × Nat}
    (h : readSib mod x b bs = some r) : RmOperand.Wf r.1 ∧ r.2 = RmOperand.bytes r.1 := by
  cases bs with
  | nil => cases h
  | cons sib bs =>
    unfold readSib at h
    dsimp only at h
    split at h
    next =>
      obtain ⟨v, -, rfl⟩ := Option.map_eq_some_iff.mp h
      exact ⟨wfIndex_sibIndex _ _, rfl⟩
    next hne =>
      obtain ⟨d, hd, rfl⟩ := Option.map_eq_some_iff.mp h
      refine ⟨?_, congrArg (1 + ·) (readDisp_eq_some hd).1⟩
      exact Bool.and_eq_true_iff.mpr ⟨wfIndex_sibIndex _ _, wfBase_of_readDisp hd hne⟩

theorem readRm_eq_some {modrm : Byte} {x b : Bool} {bs : List Byte} {r : RmOperand × Nat}
    (h : readRm modrm x b bs = some r) : RmOperand.Wf r.1 ∧ r.2 = RmOperand.bytes r.1 := by
  unfold readRm at h
  split at h
  next => cases h; exact ⟨trivial, rfl⟩
  next =>
    split at h
    next => exact readSib_eq_some h
    next h4 =>
      split at h
      next =>
        obtain ⟨v, -, rfl⟩ := Option.map_eq_some_iff.mp h
        exact ⟨rfl, rfl⟩
      next hne =>
        obtain ⟨d, hd, rfl⟩ := Option.map_eq_some_iff.mp h
        refine ⟨?_, (readDisp_eq_some hd).1⟩
        refine Bool.and_eq_true_iff.mpr ⟨?_, wfBase_of_readDisp hd hne⟩
        exact bne_iff_ne.mpr fun hlow => h4 (low_reg4_eq_four.mp hlow)

theorem vexSrc_wf {rm : RmOperand} (h : RmOperand.Wf rm) (b : Bool) :
    (vexSrc b rm).wf = true ∧ (vexSrc b rm).length = RmOperand.bytes rm := by
  cases rm with
  | reg r => exact ⟨rfl, rfl⟩
  | mem m => exact ⟨h, rfl⟩

theorem fullMemSrc_wf {rm : RmOperand} (h : RmOperand.Wf rm) (x b : Bool) :
    (fullMemSrc x b rm).wf = true ∧ (fullMemSrc x b rm).length = RmOperand.bytes rm := by
  cases rm with
  | reg r => exact ⟨rfl, rfl⟩
  | mem m => exact ⟨h, rfl⟩

theorem fullSrc_wf {rm : RmOperand} (h : RmOperand.Wf rm) {x b bcst : Bool} {src2 : FullSrc}
    (hsrc : fullSrc x b bcst rm = some src2) : src2.wf = true ∧ src2.length = RmOperand.bytes rm := by
  cases rm with
  | reg r =>
    cases bcst with
    | false => cases hsrc; exact ⟨rfl, rfl⟩
    | true => cases hsrc
  | mem m => cases bcst <;> cases hsrc <;> exact ⟨h, rfl⟩

theorem vpermdOf_wf {wm : Writemask} {src2 : FullSrc} (hwm : wm.wf = true) (hsrc : src2.wf = true) (ll : BitVec 2)
    (p : Prefixes) (dest src1 : VReg) : (vpermdOf ll p dest src1 wm src2).wf = true ∧
      (vpermdOf ll p dest src1 wm src2).length = p.length + 6 + src2.length := by
  have h := Bool.and_eq_true_iff.mpr ⟨hwm, hsrc⟩
  unfold vpermdOf
  split <;> exact ⟨h, rfl⟩

theorem vpermwOf_wf {wm : Writemask} {src2 : FullMemSrc} (hwm : wm.wf = true) (hsrc : src2.wf = true) (ll : BitVec 2)
    (p : Prefixes) (dest src1 : VReg) : (vpermwOf ll p dest src1 wm src2).wf = true ∧
      (vpermwOf ll p dest src1 wm src2).length = p.length + 6 + src2.length := by
  have h := Bool.and_eq_true_iff.mpr ⟨hwm, hsrc⟩
  unfold vpermwOf
  split
  · exact ⟨h, rfl⟩
  · split <;> exact ⟨h, rfl⟩

/-- The instruction that EVEX fields give is well-formed and as long as its operand makes it. -/
theorem evexInstr_wf {p : Prefixes} {w x b bcst : Bool} {ll : BitVec 2} {dest src1 : VReg} {wm : Writemask}
    {rm : RmOperand} {i : Instr} (h : evexInstr p w ll x b bcst dest src1 wm rm = .ok i) (hrm : RmOperand.Wf rm) :
    i.wf = true ∧ i.length = p.length + 6 + RmOperand.bytes rm := by
  obtain ⟨hwm, src2, hsrc, ⟨-, rfl⟩ | ⟨-, -, rfl⟩⟩ := evexInstr_eq_ok.mp h
  · obtain ⟨hwf, hlen⟩ := fullSrc_wf hrm hsrc
    rw [← hlen]
    exact vpermdOf_wf hwm hwf ll p dest src1
  · obtain ⟨hwf, hlen⟩ := fullMemSrc_wf hrm x b
    rw [← hlen]
    exact vpermwOf_wf hwm hwf ll p dest src1

/-- Settles O2: a decoded instruction is well-formed, because R90's forms are read as it tells them apart and R102 is checked. -/
theorem decodedInstructionIsWellFormed : Obligations.DecodedInstructionIsWellFormed := by
  unfold Obligations.DecodedInstructionIsWellFormed
  intro bs i n h
  cases decode_eq_instr_iff.mp h with
  | vex hadm hpat hrm hrow =>
    obtain ⟨-, -, hlen, -⟩ := admitted_run hadm
    obtain ⟨hwf, hbytes⟩ := readRm_eq_some hrm
    obtain ⟨hle, -⟩ := readRm_take hrm
    obtain ⟨-, -, -, rfl⟩ := vexRow_eq_instr.mp hrow
    obtain ⟨hsrc, hsrclen⟩ := vexSrc_wf hwf _
    refine ⟨hsrc, ?_, ?_⟩
    · rw [Instr.length, hsrclen, ← hbytes, hlen]
    · simp only [List.length_append, List.length_cons, List.length_nil]
      omega
  | evex hadm hpat hrm hrow =>
    obtain ⟨-, -, hlen, -⟩ := admitted_run hadm
    obtain ⟨hwf, hbytes⟩ := readRm_eq_some hrm
    obtain ⟨hle, -⟩ := readRm_take hrm
    obtain ⟨-, -, -, hfields⟩ := evexRow_eq_instr.mp hrow
    obtain ⟨hi, hilen⟩ := evexInstr_wf hfields hwf
    refine ⟨hi, ?_, ?_⟩
    · rw [hilen, ← hbytes, hlen]
    · simp only [List.length_append, List.length_cons, List.length_nil]
      omega

/-! ## The encoder's fields read back (30_encoding.md R84, R87) -/

theorem vexByte1_fields {b1 : Byte} {r x b : Bool} (h : inv r ++ inv x ++ inv b ++ 2#5 = b1) :
    field b1 0 5 = 2 ∧ (!bitAt b1 7) = r ∧ (!bitAt b1 6) = x ∧ (!bitAt b1 5) = b := by
  subst h
  revert r x b; decide

theorem vexByte2_fields {b2 : Byte} {v : BitVec 4} (h : 0#1 ++ ~~~v ++ 1#1 ++ 1#2 = b2) :
    field b2 0 2 = 1 ∧ ~~~field b2 3 4 = v ∧ bitAt b2 2 = true ∧ bitAt b2 7 = false := by
  subst h
  revert v; decide

theorem evexP0_fields {p0 : Byte} {r x b r' : Bool} (h : inv r ++ inv x ++ inv b ++ inv r' ++ 0#2 ++ 2#2 = p0) :
    field p0 2 2 = 0 ∧ field p0 0 2 = 2 ∧ (!bitAt p0 7) = r ∧ (!bitAt p0 6) = x ∧ (!bitAt p0 5) = b ∧
      (!bitAt p0 4) = r' := by
  subst h
  revert r x b r'; decide

theorem evexP1_fields {p1 : Byte} {w : Bool} {v : BitVec 4} (h : BitVec.ofBool w ++ ~~~v ++ 1#1 ++ 1#2 = p1) :
    bitAt p1 2 = true ∧ field p1 0 2 = 1 ∧ bitAt p1 7 = w ∧ ~~~field p1 3 4 = v := by
  subst h
  revert w v; decide

theorem evexP2_fields {p2 : Byte} {z : Bool} {ll : BitVec 2} {bcst v' : Bool} {aaa : BitVec 3}
    (h : BitVec.ofBool z ++ ll ++ BitVec.ofBool bcst ++ inv v' ++ aaa = p2) :
    bitAt p2 7 = z ∧ field p2 5 2 = ll ∧ bitAt p2 4 = bcst ∧ (!bitAt p2 3) = v' ∧ field p2 0 3 = aaa := by
  subst h
  revert z ll bcst v' aaa; decide

/-- Form 1's operand 3 is read back, whatever follows. -/
theorem readRm_vexSrc_bits (src2 : VexSrc) (h : src2.wf = true) (reg : BitVec 3) (rest : List Byte) :
    ∃ rm, readRm (src2.bits.modBits ++ reg ++ src2.bits.rm) src2.bits.x src2.bits.b (src2.bits.tail ++ rest) =
        some (rm, src2.length) ∧ vexSrc src2.bits.b rm = src2 := by
  cases src2 with
  | reg r => exact ⟨_, readRm_regBits r reg _ _ rest, congrArg VexSrc.reg (reg4_regBit_low3 r)⟩
  | mem m => exact ⟨_, readRm_bits m h reg rest, rfl⟩

theorem readRm_fullSrc_bits (src2 : FullSrc) (h : src2.wf = true) (reg : BitVec 3) (rest : List Byte) :
    ∃ rm, readRm (src2.bits.modBits ++ reg ++ src2.bits.rm) src2.bits.x src2.bits.b (src2.bits.tail ++ rest) =
        some (rm, src2.length) ∧ fullSrc src2.bits.x src2.bits.b src2.bcstBit rm = some src2 := by
  cases src2 with
  | reg r =>
    exact ⟨_, readRm_regBits r reg _ _ rest, congrArg (fun r => some (FullSrc.reg r)) (reg5_regBit_low3 r)⟩
  | mem m => exact ⟨_, readRm_bits m h reg rest, rfl⟩
  | bcst m => exact ⟨_, readRm_bits m h reg rest, rfl⟩

/-- The operand of forms 4 to 6 is one that R101 allows without a broadcast. -/
theorem readRm_fullMemSrc_bits (src2 : FullMemSrc) (h : src2.wf = true) (reg : BitVec 3) (rest : List Byte) :
    ∃ rm, readRm (src2.bits.modBits ++ reg ++ src2.bits.rm) src2.bits.x src2.bits.b (src2.bits.tail ++ rest) =
        some (rm, src2.length) ∧ fullMemSrc src2.bits.x src2.bits.b rm = src2 ∧
        ∃ full, fullSrc src2.bits.x src2.bits.b false rm = some full := by
  cases src2 with
  | reg r => exact ⟨_, readRm_regBits r reg _ _ rest, congrArg FullMemSrc.reg (reg5_regBit_low3 r), _, rfl⟩
  | mem m => exact ⟨_, readRm_bits m h reg rest, rfl, _, rfl⟩

/-! ## The round trip (30_encoding.md R82, R84 to R93) -/

/-- The bytes of form 1 after its prefixes decode to it after any run of the prefixes' meaning. -/
theorem decode_encodeVex {run : List Byte} {p : Prefixes} (hadm : admitPrefixes run = some p) (dest src1 : VReg16)
    {src2 : VexSrc} (h : src2.wf = true) (rest : List Byte) :
    ∃ n, decode (run ++ (encodeVex p dest src1 src2.bits).drop p.length ++ rest) =
      .instr (.vpermdVex256 p dest src1 src2) n := by
  obtain ⟨rm, hrm, hsrc⟩ := readRm_vexSrc_bits src2 h (low3 dest) rest
  obtain ⟨-, hreg, -⟩ := fields_modrm src2.bits.modBits (low3 dest) src2.bits.rm
  rw [encodeVex, ← p.bytes_length, List.append_assoc p.bytes, List.drop_left]
  generalize hb1 : inv (regBit dest 3) ++ inv src2.bits.x ++ inv src2.bits.b ++ 2#5 = b1
  generalize hb2 : 0#1 ++ ~~~(BitVec.ofNat 4 src1.val) ++ 1#1 ++ 1#2 = b2
  obtain ⟨hmap, hr, hx, hb⟩ := vexByte1_fields hb1
  obtain ⟨hpp, hv, hl, hw⟩ := vexByte2_fields hb2
  rw [← hx, ← hb] at hrm
  have hpat : vexPattern b1 b2 0x36 = true := by simp [vexPattern, hmap, hpp]
  have hdec := decode_vex_admitted hadm hpat hrm
  rw [vexRow_eq_instr.mpr ⟨hl, hw, rfl, rfl⟩, hr, hb, hv, hreg, hsrc, reg4_regBit_low3, toFin_ofNat4] at hdec
  exact ⟨_, by simpa using hdec⟩

/-- The bytes of forms 2 to 6 after their prefixes decode, after any run of the prefixes' meaning, to what the fields give. -/
theorem decode_encodeEvex {run : List Byte} {p : Prefixes} (hadm : admitPrefixes run = some p) {w : Bool} {ll : BitVec 2}
    {op : Byte} (hop : (op = 0x36 ∧ w = false) ∨ (op = 0x8D ∧ w = true)) (h3 : ll ≠ 3) (h0 : ¬(op = 0x36 ∧ ll = 0))
    {dest src1 : VReg} {wm : Writemask} {bcst : Bool} {m : RmBits} {rm : RmOperand} {k : Nat} {rest : List Byte} {i : Instr}
    (hrm : readRm (m.modBits ++ low3 dest ++ m.rm) m.x m.b (m.tail ++ rest) = some (rm, k))
    (hi : evexInstr p w ll m.x m.b bcst dest src1 wm rm = .ok i) :
    ∃ n, decode (run ++ (encodeEvex p w ll op dest src1 wm bcst m).drop p.length ++ rest) = .instr i n := by
  obtain ⟨-, hreg, -⟩ := fields_modrm m.modBits (low3 dest) m.rm
  rw [encodeEvex, ← p.bytes_length, List.append_assoc p.bytes, List.drop_left]
  generalize hp0 : inv (regBit dest 3) ++ inv m.x ++ inv m.b ++ inv (regBit dest 4) ++ 0#2 ++ 2#2 = p0
  generalize hp1 : BitVec.ofBool w ++ ~~~(BitVec.ofNat 4 src1.val) ++ 1#1 ++ 1#2 = p1
  generalize hp2 : BitVec.ofBool wm.z ++ ll ++ BitVec.ofBool bcst ++ inv (regBit src1 4) ++ BitVec.ofNat 3 wm.aaa.val = p2
  obtain ⟨hres, hmap, hr, hx, hb, hr'⟩ := evexP0_fields hp0
  obtain ⟨hone, hpp, hw, hv⟩ := evexP1_fields hp1
  obtain ⟨hz, hll, hbc, hv', haaa⟩ := evexP2_fields hp2
  rw [← hx, ← hb] at hrm
  have hpat : evexPattern p0 p1 op = true := by
    rw [evexPattern_iff, evexFixed_iff, hw]
    exact ⟨⟨hres, hone⟩, hmap, hpp, hop⟩
  have hfields : evexFields p p0 p1 p2 (m.modBits ++ low3 dest ++ m.rm) rm = .ok i := by
    rw [evexFields, hw, hll, hx, hb, hbc, hr', hr, hreg, hv', hv, haaa, hz, reg5_regBit_low3, toFin_regBit_ofNat4,
      toFin_ofNat3]
    exact hi
  have hdec := decode_evex_admitted hadm p2 hpat hrm
  rw [evexRow_eq_instr.mpr ⟨rfl, by rwa [hll], by rwa [hll], hfields⟩] at hdec
  exact ⟨_, by simpa using hdec⟩

theorem decode_encodeVpermd {run : List Byte} {p : Prefixes} (hadm : admitPrefixes run = some p) {ll : BitVec 2}
    (h3 : ll ≠ 3) (h0 : ll ≠ 0) (dest src1 : VReg) {wm : Writemask} {src2 : FullSrc} (h : (wm.wf && src2.wf) = true)
    (rest : List Byte) :
    ∃ n, decode (run ++ (encodeEvex p false ll 0x36 dest src1 wm src2.bcstBit src2.bits).drop p.length ++ rest) =
      .instr (vpermdOf ll p dest src1 wm src2) n := by
  obtain ⟨hwm, hwf⟩ := Bool.and_eq_true_iff.mp h
  obtain ⟨rm, hrm, hsrc⟩ := readRm_fullSrc_bits src2 hwf (low3 dest) rest
  exact decode_encodeEvex hadm (.inl ⟨rfl, rfl⟩) h3 (fun hop => h0 hop.2) hrm
    (evexInstr_eq_ok.mpr ⟨hwm, src2, hsrc, .inl ⟨rfl, rfl⟩⟩)

theorem decode_encodeVpermw {run : List Byte} {p : Prefixes} (hadm : admitPrefixes run = some p) {ll : BitVec 2}
    (h3 : ll ≠ 3) (dest src1 : VReg) {wm : Writemask} {src2 : FullMemSrc} (h : (wm.wf && src2.wf) = true)
    (rest : List Byte) :
    ∃ n, decode (run ++ (encodeEvex p true ll 0x8D dest src1 wm false src2.bits).drop p.length ++ rest) =
      .instr (vpermwOf ll p dest src1 wm src2) n := by
  obtain ⟨hwm, hwf⟩ := Bool.and_eq_true_iff.mp h
  obtain ⟨rm, hrm, hsrc, full, hfull⟩ := readRm_fullMemSrc_bits src2 hwf (low3 dest) rest
  exact decode_encodeEvex hadm (.inr ⟨rfl, rfl⟩) h3 (fun hop => absurd hop.1 (by decide)) hrm
    (evexInstr_eq_ok.mpr ⟨hwm, full, hfull, .inr ⟨rfl, rfl, by rw [hsrc]⟩⟩)

/-- The bytes of a well-formed instruction after its prefixes decode to it after any run of the prefixes' meaning. -/
theorem decode_after_run (i : Instr) (h : i.wf = true) {run : List Byte} (hadm : admitPrefixes run = some i.prefixes)
    (rest : List Byte) : decode (run ++ (encode i).drop i.prefixes.length ++ rest) = .instr i i.length := by
  suffices hdec : ∃ n, decode (run ++ (encode i).drop i.prefixes.length ++ rest) = .instr i n by
    obtain ⟨n, hn⟩ := hdec
    obtain ⟨-, rfl, -⟩ := decodedInstructionIsWellFormed _ i n hn
    exact hn
  cases i with
  | vpermdVex256 p dest src1 src2 => exact decode_encodeVex hadm dest src1 h rest
  | vpermdEvex256 p dest src1 wm src2 => exact decode_encodeVpermd hadm (by decide) (by decide) dest src1 h rest
  | vpermdEvex512 p dest src1 wm src2 => exact decode_encodeVpermd hadm (by decide) (by decide) dest src1 h rest
  | vpermwEvex128 p dest src1 wm src2 => exact decode_encodeVpermw hadm (by decide) dest src1 h rest
  | vpermwEvex256 p dest src1 wm src2 => exact decode_encodeVpermw hadm (by decide) dest src1 h rest
  | vpermwEvex512 p dest src1 wm src2 => exact decode_encodeVpermw hadm (by decide) dest src1 h rest

/-- An encoding begins with the bytes of its prefixes. -/
theorem encode_eq_prefixes_append (i : Instr) : i.prefixes.bytes ++ (encode i).drop i.prefixes.length = encode i := by
  rw [← Prefixes.bytes_length]
  cases i <;> simp [encode, encodeVex, encodeEvex, Instr.prefixes]

/-- Settles O1: the encoder's own prefixes are one run of their meaning. -/
theorem decodeOfEncodeIsTheInstruction : Obligations.DecodeOfEncodeIsTheInstruction := by
  unfold Obligations.DecodeOfEncodeIsTheInstruction
  intro i h rest
  rw [← encode_eq_prefixes_append i]
  exact decode_after_run i h (admitPrefixes_bytes i.prefixes) rest

/-- Settles O13: a round trip that needs only the meaning of the run. -/
theorem admittedPrefixRunsAreEight : Obligations.AdmittedPrefixRunsAreEight := by
  unfold Obligations.AdmittedPrefixRunsAreEight
  exact ⟨admitPrefixes_eq_some_iff, fun i h run hadm rest => decode_after_run i h hadm rest⟩

/-! ## Bytes before and after an instruction's end -/

/-- Settles O3: the operand is read from the bytes that the length counts, and from these whatever follows. -/
theorem decodeReadsOnlyTheInstructionsBytes : Obligations.DecodeReadsOnlyTheInstructionsBytes := by
  unfold Obligations.DecodeReadsOnlyTheInstructionsBytes
  intro bs i n h rest
  rw [decode_eq_instr_iff] at h ⊢
  cases h with
  | @vex run p b1 b2 op modrm tail rm k i hadm hpat hrm hrow =>
    obtain ⟨-, htake, -⟩ := readRm_take hrm
    have hbytes : (run ++ [0xC4, b1, b2, op, modrm] ++ tail).take (run.length + 5 + k) =
        run ++ [0xC4, b1, b2, op, modrm] ++ tail.take k := by
      rw [List.append_assoc, Nat.add_assoc, List.take_length_add_append, Nat.add_comm 5 k, List.append_assoc]
      rfl
    rw [hbytes, List.append_assoc]
    exact .vex hadm hpat (readRm_append htake rest) hrow
  | @evex run p p0 p1 p2 op modrm tail rm k i hadm hpat hrm hrow =>
    obtain ⟨-, htake, -⟩ := readRm_take hrm
    have hbytes : (run ++ [0x62, p0, p1, p2, op, modrm] ++ tail).take (run.length + 6 + k) =
        run ++ [0x62, p0, p1, p2, op, modrm] ++ tail.take k := by
      rw [List.append_assoc, Nat.add_assoc, List.take_length_add_append, Nat.add_comm 6 k, List.append_assoc]
      rfl
    rw [hbytes, List.append_assoc]
    exact .evex hadm hpat (readRm_append htake rest) hrow

/-- Bytes that leave the decoder asking leave it asking when they are cut shorter. -/
theorem decode_take_of_truncated {bs : List Byte} {m k : Nat} (h : decode (bs.take m) = .truncated) (hk : k ≤ m) :
    decode (bs.take k) = .truncated := by
  by_contra hne
  have happend : bs.take m = bs.take k ++ (bs.drop k).take (m - k) := by
    rw [← List.take_add, Nat.add_sub_cancel' hk]
  rw [happend, decode_append hne] at h
  exact hne h

/-- Without its last byte, an operand has no result. -/
theorem readOperand_take {before : Nat} {x b : Bool} {modrm : Byte} {tail : List Byte} {rm : RmOperand} {n : Nat}
    (h : readRm modrm x b tail = some (rm, n)) (judge : Byte → RmOperand → Nat → Decoded) :
    readOperand before x b ((modrm :: tail).take n) judge = .truncated := by
  obtain ⟨-, -, hnone⟩ := readRm_take h
  cases n with
  | zero => rfl
  | succ n => exact readOperand_of_readRm_none (hnone n (Nat.lt_succ_self n)) _

/-- Settles O57: all bytes but the last leave the decoder asking, and so do fewer. -/
theorem instructionsAreReadWhole : Obligations.InstructionsAreReadWhole := by
  unfold Obligations.InstructionsAreReadWhole
  intro run modrm tail rm n hrun
  refine ⟨fun b1 b2 op hpat hrm k hk => ?_, fun p0 p1 p2 op hpat hrm k hk => ?_⟩
  · refine decode_take_of_truncated (m := run.length + (4 + n)) ?_ (by omega)
    rw [List.append_assoc, List.take_length_add_append, Nat.add_comm 4 n]
    refine (decode_vex hrun b1 b2 op ((modrm :: tail).take n)).trans ?_
    rw [decodeVex_of_pattern hpat]
    exact readOperand_take hrm _
  · refine decode_take_of_truncated (m := run.length + (5 + n)) ?_ (by omega)
    rw [List.append_assoc, List.take_length_add_append, Nat.add_comm 5 n]
    refine (decode_evex hrun p0 p1 p2 op ((modrm :: tail).take n)).trans ?_
    rw [decodeEvex_of_pattern hpat]
    exact readOperand_take hrm _

/-! ## The rows of the opcode table (30_encoding.md R86, R88) -/

/-- Masking a number and a byte below it is masking both. -/
theorem and_mul_add_byte (a m : Nat) (x c : Byte) :
    (a * 256 + x.toNat) &&& (m * 256 + c.toNat) = (a &&& m) * 256 + (x &&& c).toNat := by
  apply Nat.eq_of_testBit_eq
  intro j
  rw [Nat.testBit_and, Nat.mul_comm a, Nat.mul_comm m, Nat.mul_comm (a &&& m), show 256 = 2 ^ 8 from rfl,
    Nat.testBit_two_pow_mul_add a x.isLt, Nat.testBit_two_pow_mul_add m c.isLt,
    Nat.testBit_two_pow_mul_add (a &&& m) (x &&& c).isLt]
  split
  · rw [BitVec.toNat_and, Nat.testBit_and]
  · rw [Nat.testBit_and]

/-- Masking numbers is masking their bytes. -/
theorem beNumber_and {xs ms : List Byte} (h : xs.length = ms.length) (a m : Nat) :
    beNumber xs a &&& beNumber ms m = beNumber (List.zipWith (· &&& ·) xs ms) (a &&& m) := by
  induction xs generalizing ms a m with
  | nil =>
    cases ms with
    | nil => rfl
    | cons _ _ => cases h
  | cons x xs ih =>
    cases ms with
    | nil => cases h
    | cons c ms => simp only [beNumber, List.zipWith_cons_cons, ih (Nat.succ.inj h), and_mul_add_byte]

/-- Byte strings of one length with the same number are the same. -/
theorem beNumber_injective {xs ys : List Byte} (h : xs.length = ys.length) {a b : Nat}
    (hn : beNumber xs a = beNumber ys b) : a = b ∧ xs = ys := by
  induction xs generalizing ys a b with
  | nil =>
    cases ys with
    | nil => exact ⟨hn, rfl⟩
    | cons _ _ => cases h
  | cons x xs ih =>
    cases ys with
    | nil => cases h
    | cons y ys =>
      obtain ⟨hab, rfl⟩ := ih (Nat.succ.inj h) hn
      have hx := x.isLt
      have hy := y.isLt
      have hxy : x = y := BitVec.eq_of_toNat_eq (by omega)
      exact ⟨by omega, by rw [hxy]⟩

/-- The bytes of a row's mask. -/
def maskBytes : Form → List Byte
  | .vexD256 => [0xFF, 0x1F, 0x87, 0xFF]
  | _ => [0xFF, 0x0F, 0x87, 0x60, 0xFF]

/-- The bytes of a row's match. -/
def valueBytes : Form → List Byte
  | .vexD256 => [0xC4, 0x02, 0x05, 0x36]
  | .evexD256 => [0x62, 0x02, 0x05, 0x20, 0x36]
  | .evexD512 => [0x62, 0x02, 0x05, 0x40, 0x36]
  | .evexW128 => [0x62, 0x02, 0x85, 0x00, 0x8D]
  | .evexW256 => [0x62, 0x02, 0x85, 0x20, 0x8D]
  | .evexW512 => [0x62, 0x02, 0x85, 0x40, 0x8D]

theorem pattern_eq (f : Form) : f.pattern = ⟨(maskBytes f).length, beNumber (maskBytes f) 0, beNumber (valueBytes f) 0⟩ := by
  cases f <;> decide

/-- A row is matched byte by byte. -/
theorem matchesBytes_iff (f : Form) (body : List Byte) : f.matchesBytes body = true ↔
    (maskBytes f).length ≤ body.length ∧ List.zipWith (· &&& ·) body (maskBytes f) = valueBytes f := by
  unfold Form.matchesBytes
  rw [pattern_eq]
  simp only [Bool.and_eq_true, decide_eq_true_eq, beq_iff_eq]
  refine and_congr_right fun hlen => ?_
  have hzip : List.zipWith (· &&& ·) (body.take (maskBytes f).length) (maskBytes f) =
      List.zipWith (· &&& ·) body (maskBytes f) := by
    rw [List.zipWith_eq_zipWith_take_min (l₁ := body), Nat.min_eq_right hlen, List.take_length]
  have hvalue : (List.zipWith (· &&& ·) body (maskBytes f)).length = (valueBytes f).length := by
    rw [List.length_zipWith, Nat.min_eq_right hlen]
    cases f <;> rfl
  rw [beNumber_and (List.length_take_of_le hlen), hzip]
  exact ⟨fun h => (beNumber_injective hvalue h).2, fun h => by rw [h]; rfl⟩

/-- Two rows whose match is the same are the same. -/
theorem valueBytes_injective {f g : Form} (h : valueBytes f = valueBytes g) : f = g := by
  revert h
  cases f <;> cases g <;> decide

/-- The first byte of a match says which mask the row has. -/
theorem maskBytes_eq_of_head {f g : Form} (h : (valueBytes f).head? = (valueBytes g).head?) : maskBytes f = maskBytes g := by
  revert h
  cases f <;> cases g <;> decide

/-- A mask keeps the first byte. -/
theorem head_of_matchesBytes {f : Form} {body : List Byte}
    (h : List.zipWith (· &&& ·) body (maskBytes f) = valueBytes f) : body.head? = (valueBytes f).head? := by
  rw [← h]
  cases body with
  | nil => rfl
  | cons b body =>
    have hff : b &&& 0xFF = b := BitVec.and_allOnes
    cases f <;> exact congrArg some hff.symm

/-- Settles O5: the first byte is in every mask, so both rows have one mask, and so one match. -/
theorem noBytesMatchTwoRows : Obligations.NoBytesMatchTwoRows := by
  unfold Obligations.NoBytesMatchTwoRows
  intro f g body hf hg
  obtain ⟨-, hf⟩ := (matchesBytes_iff f body).mp hf
  obtain ⟨-, hg⟩ := (matchesBytes_iff g body).mp hg
  have hmask := maskBytes_eq_of_head ((head_of_matchesBytes hf).symm.trans (head_of_matchesBytes hg))
  apply valueBytes_injective
  rw [← hf, ← hg, hmask]

/-- The fixed bits of form 1's payload bytes, under the masks of its row. -/
theorem vexBytes_and {b1 b2 : Byte} (hmap : field b1 0 5 = 2) (hpp : field b2 0 2 = 1) (hl : bitAt b2 2 = true)
    (hw : bitAt b2 7 = false) : b1 &&& 0x1F = 0x02 ∧ b2 &&& 0x87 = 0x05 := by
  constructor
  · revert b1; decide
  · revert b2; decide

/-- The fixed bits of P0, P1 and P2, under the masks of its rows: W and L'L stay. -/
theorem evexBytes_and {p0 p1 : Byte} (hres : field p0 2 2 = 0) (hmap : field p0 0 2 = 2) (hone : bitAt p1 2 = true)
    (hpp : field p1 0 2 = 1) (p2 : Byte) : p0 &&& 0x0F = 0x02 ∧ p1 &&& 0x87 = BitVec.ofBool (bitAt p1 7) ++ 5#7 ∧
      p2 &&& 0x60 = 0#1 ++ field p2 5 2 ++ 0#5 := by
  refine ⟨?_, ?_, ?_⟩
  · revert p0; decide
  · revert p1; decide
  · revert p2; decide

theorem rowBytes_vpermdOf {ll : BitVec 2} (h3 : ll ≠ 3) (h0 : ll ≠ 0) (p : Prefixes) (dest src1 : VReg) (wm : Writemask)
    (src2 : FullSrc) : maskBytes (vpermdOf ll p dest src1 wm src2).form = [0xFF, 0x0F, 0x87, 0x60, 0xFF] ∧
      valueBytes (vpermdOf ll p dest src1 wm src2).form = [0x62, 0x02, 0x05, 0#1 ++ ll ++ 0#5, 0x36] := by
  have hll : ll = 1 ∨ ll = 2 := by revert ll; decide
  rcases hll with rfl | rfl <;> exact ⟨rfl, rfl⟩

theorem rowBytes_vpermwOf {ll : BitVec 2} (h3 : ll ≠ 3) (p : Prefixes) (dest src1 : VReg) (wm : Writemask)
    (src2 : FullMemSrc) : maskBytes (vpermwOf ll p dest src1 wm src2).form = [0xFF, 0x0F, 0x87, 0x60, 0xFF] ∧
      valueBytes (vpermwOf ll p dest src1 wm src2).form = [0x62, 0x02, 0x85, 0#1 ++ ll ++ 0#5, 0x8D] := by
  have hll : ll = 0 ∨ ll = 1 ∨ ll = 2 := by revert ll; decide
  rcases hll with rfl | rfl | rfl <;> exact ⟨rfl, rfl⟩

/-- The row of the instruction that EVEX fields give has their W, L'L and opcode in its match. -/
theorem rowBytes_of_evexFields {p : Prefixes} {p0 p1 p2 op modrm : Byte} {rm : RmOperand} {i : Instr}
    (hpat : evexPattern p0 p1 op = true) (h3 : field p2 5 2 ≠ 3) (h0 : ¬(op = 0x36 ∧ field p2 5 2 = 0))
    (hi : evexFields p p0 p1 p2 modrm rm = .ok i) :
    maskBytes i.form = [0xFF, 0x0F, 0x87, 0x60, 0xFF] ∧
      valueBytes i.form = [0x62, 0x02, BitVec.ofBool (bitAt p1 7) ++ 5#7, 0#1 ++ field p2 5 2 ++ 0#5, op] := by
  obtain ⟨-, -, -, hop⟩ := evexPattern_iff.mp hpat
  obtain ⟨-, src2, -, ⟨hw, rfl⟩ | ⟨hw, -, rfl⟩⟩ := evexInstr_eq_ok.mp hi <;> rw [hw] at hop ⊢
  · obtain ⟨rfl, -⟩ | ⟨-, hw'⟩ := hop
    · exact rowBytes_vpermdOf h3 (fun hll => h0 ⟨rfl, hll⟩) p _ _ _ src2
    · cases hw'
  · obtain ⟨-, hw'⟩ | ⟨rfl, -⟩ := hop
    · cases hw'
    · exact rowBytes_vpermwOf h3 p _ _ _ _

/-- Settles O4: the fields that the decoder checks are the bits of the row's mask. -/
theorem decodedBytesMatchTheirRow : Obligations.DecodedBytesMatchTheirRow := by
  unfold Obligations.DecodedBytesMatchTheirRow
  intro bs i n h
  cases decode_eq_instr_iff.mp h with
  | @vex run p b1 b2 op modrm tail rm k i hadm hpat hrm hrow =>
    obtain ⟨hrun, -⟩ := admitted_run hadm
    simp only [vexPattern, Bool.and_eq_true, beq_iff_eq] at hpat
    obtain ⟨⟨hmap, hpp⟩, rfl⟩ := hpat
    obtain ⟨hl, hw, -, rfl⟩ := vexRow_eq_instr.mp hrow
    obtain ⟨h1, h2⟩ := vexBytes_and hmap hpp hl hw
    rw [List.append_assoc, List.cons_append, splitPrefixes_append run hrun _ (by decide), matchesBytes_iff]
    refine ⟨by simp [Instr.form, maskBytes], ?_⟩
    show [0xC4, b1 &&& 0x1F, b2 &&& 0x87, 0x36] = _
    rw [h1, h2]
    rfl
  | @evex run p p0 p1 p2 op modrm tail rm k i hadm hpat hrm hrow =>
    obtain ⟨hrun, -⟩ := admitted_run hadm
    obtain ⟨-, h3, h0, hi⟩ := evexRow_eq_instr.mp hrow
    obtain ⟨hmask, hvalue⟩ := rowBytes_of_evexFields hpat h3 h0 hi
    obtain ⟨hfix, hmap, hpp, -⟩ := evexPattern_iff.mp hpat
    obtain ⟨hres, hone⟩ := evexFixed_iff.mp hfix
    obtain ⟨hp0, hp1, hp2⟩ := evexBytes_and hres hmap hone hpp p2
    have hop : op &&& 0xFF = op := BitVec.and_allOnes
    rw [List.append_assoc, List.cons_append, splitPrefixes_append run hrun _ (by decide), matchesBytes_iff, hmask, hvalue,
      ← hp1, ← hp2]
    refine ⟨by simp, ?_⟩
    show [0x62, p0 &&& 0x0F, p1 &&& 0x87, p2 &&& 0x60, op &&& 0xFF] = _
    rw [hp0, hop]

/-! ## What a decode result does to a step (30_encoding.md R97) -/

theorem stepRaisesUd_of_decode {bytes : List Byte} {c : UdCause} (h : decode bytes = .ud c) : StepRaisesUd bytes := by
  intro s hmode hcode
  rw [step_of_codeAt hmode hcode (by simp [h]), h]

theorem stepOnBytes_of_gpLen {bytes : List Byte} (h : decode bytes = .gpLen) :
    StepOnBytes bytes fun s => .fault (.gp0 s.rip) := by
  intro s hmode hcode
  rw [step_of_codeAt hmode hcode (by simp [h]), h]

theorem stepOnBytes_of_prefixRun {bytes : List Byte} (h : decode bytes = .prefixRun) :
    StepOnBytes bytes fun _ => .refused .prefixRun := by
  intro s hmode hcode
  rw [step_of_codeAt hmode hcode (by simp [h]), h]

theorem stepOnBytes_of_notInScope {bytes : List Byte} (h : decode bytes = .notInScope) :
    StepOnBytes bytes fun _ => .refused .notInScope := by
  intro s hmode hcode
  rw [step_of_codeAt hmode hcode (by simp [h]), h]

/-! ## #UD causes after an admitted run (30_encoding.md R98 to R104) -/

/-- The pattern of form 1 after an admitted run raises #UD when its row is no instruction. -/
theorem stepRaisesUd_vex {run : List Byte} {p : Prefixes} (hadm : admitPrefixes run = some p) {b1 b2 op modrm : Byte}
    (hpat : vexPattern b1 b2 op = true) {tail : List Byte} {r : RmOperand × Nat}
    (hrm : readRm modrm (!bitAt b1 6) (!bitAt b1 5) tail = some r) (h : ¬(bitAt b2 2 = true ∧ bitAt b2 7 = false)) :
    StepRaisesUd (run ++ [0xC4, b1, b2, op, modrm] ++ tail) := by
  obtain ⟨rm, n⟩ := r
  rcases vexRow_cases b1 b2 modrm rm (run.length + 5 + n) p with ⟨i, hi⟩ | ⟨c, hc⟩
  · obtain ⟨hl, hw, -⟩ := vexRow_eq_instr.mp hi
    exact absurd ⟨hl, hw⟩ h
  · exact stepRaisesUd_of_decode ((decode_vex_admitted hadm hpat hrm).trans hc)

/-- The pattern of forms 2 to 6 after an admitted run raises #UD when its fields give no instruction. -/
theorem stepRaisesUd_evex {run : List Byte} {p : Prefixes} (hadm : admitPrefixes run = some p) {p0 p1 p2 op modrm : Byte}
    (hpat : evexPattern p0 p1 op = true) {tail : List Byte} {r : RmOperand × Nat}
    (hrm : readRm modrm (!bitAt p0 6) (!bitAt p0 5) tail = some r)
    (h : ∀ i, field p2 5 2 ≠ 3 → ¬(op = 0x36 ∧ field p2 5 2 = 0) → evexFields p p0 p1 p2 modrm r.1 ≠ .ok i) :
    StepRaisesUd (run ++ [0x62, p0, p1, p2, op, modrm] ++ tail) := by
  obtain ⟨rm, n⟩ := r
  rcases evexRow_cases p0 p1 p2 op modrm rm (run.length + 6 + n) p with ⟨i, hi⟩ | ⟨c, hc⟩
  · obtain ⟨-, h3, h0, hfields⟩ := evexRow_eq_instr.mp hi
    exact absurd hfields (h i h3 h0)
  · exact stepRaisesUd_of_decode ((decode_evex_admitted hadm p2 hpat hrm).trans hc)

/-- The opcode of the pattern of forms 2 to 6 says what W is. -/
theorem evexPattern_w {p0 p1 op : Byte} (h : evexPattern p0 p1 op = true) :
    (op = 0x36 → bitAt p1 7 = false) ∧ (op = 0x8D → bitAt p1 7 = true) := by
  obtain ⟨-, -, -, ⟨rfl, hw⟩ | ⟨rfl, hw⟩⟩ := evexPattern_iff.mp h
  · exact ⟨fun _ => hw, fun hop => absurd hop (by decide)⟩
  · exact ⟨fun hop => absurd hop (by decide), fun _ => hw⟩

/-- The mask fields of P2 are well-formed when they do not zero without a mask (R102). -/
theorem evexMask_wf {p2 : Byte} (h : bitAt p2 7 = false ∨ field p2 0 3 ≠ 0) :
    (⟨(field p2 0 3).toFin, bitAt p2 7⟩ : Writemask).wf = true := by
  revert p2; decide

theorem not_evexMask_wf {p2 : Byte} (hz : bitAt p2 7 = true) (haaa : field p2 0 3 = 0) :
    (⟨(field p2 0 3).toFin, bitAt p2 7⟩ : Writemask).wf = false := by
  revert p2; decide

/-- Without a broadcast bit every operand is allowed. -/
theorem fullSrc_of_not_bcst (x b : Bool) (rm : RmOperand) : ∃ src2, fullSrc x b false rm = some src2 := by
  cases rm with
  | reg r => exact ⟨_, rfl⟩
  | mem m => exact ⟨_, rfl⟩

/-- Settles O7: L = 0 and L'L = 00b leave the rows at 36H no instruction, and at 8DH L'L = 00b is form 4's. -/
theorem unsupportedVectorLengthRaisesUd : Obligations.UnsupportedVectorLengthRaisesUd := by
  unfold Obligations.UnsupportedVectorLengthRaisesUd
  intro run p hadm modrm tail rm
  refine ⟨fun b1 b2 op hpat hl hrm => ?_, fun p0 p1 p2 hpat hll hrm => ?_, fun p0 p1 p2 hpat hll hb hz hrm => ?_⟩
  · exact stepRaisesUd_vex hadm hpat hrm fun h => by rw [h.1] at hl; cases hl
  · exact stepRaisesUd_evex hadm hpat hrm fun i _ h0 _ => h0 ⟨rfl, hll⟩
  · obtain ⟨src2, hsrc⟩ := fullSrc_of_not_bcst (!bitAt p0 6) (!bitAt p0 5) rm.1
    obtain ⟨dest, src1, wm, data, hfields⟩ : ∃ dest src1 wm data,
        evexFields p p0 p1 p2 modrm rm.1 = .ok (vpermwOf 0 p dest src1 wm data) := by
      rw [evexFields, hb, hll]
      exact ⟨_, _, _, _,
        evexInstr_eq_ok.mpr ⟨evexMask_wf hz, src2, hsrc, .inr ⟨(evexPattern_w hpat).2 rfl, rfl, rfl⟩⟩⟩
    refine ⟨_, _, (decode_evex_admitted hadm p2 hpat hrm).trans (evexRow_eq_instr.mpr ⟨rfl, ?_, ?_, hfields⟩), rfl⟩
    · rw [hll]; decide
    · exact fun h => absurd h.1 (by decide)

/-- Settles O8: no row has L'L = 11b, and form 1 has W = 0. -/
theorem reservedLengthOrVexWRaisesUd : Obligations.ReservedLengthOrVexWRaisesUd := by
  unfold Obligations.ReservedLengthOrVexWRaisesUd
  intro run p hadm modrm tail rm
  refine ⟨fun p0 p1 p2 op hpat hll hrm => ?_, fun b1 b2 op hpat hw hrm => ?_⟩
  · exact stepRaisesUd_evex hadm hpat hrm fun i h3 _ _ => h3 hll
  · exact stepRaisesUd_vex hadm hpat hrm fun h => by rw [h.2] at hw; cases hw

/-- An operand with mod = 11b is a register. -/
theorem readRm_of_mod_three {modrm : Byte} (h : field modrm 6 2 = 3) (x b : Bool) (tail : List Byte) :
    readRm modrm x b tail = some (.reg (field modrm 0 3), 0) := if_pos h

/-- Settles O10: a register leaves no operand for b = 1, and words no broadcast. -/
theorem broadcastBitSelectsBroadcastOrRaisesUd : Obligations.BroadcastBitSelectsBroadcastOrRaisesUd := by
  unfold Obligations.BroadcastBitSelectsBroadcastOrRaisesUd
  intro run p p0 p1 p2 op modrm tail rm n hadm hpat hb hrm
  refine ⟨fun hreg => stepRaisesUd_evex hadm hpat hrm fun i _ _ hi => ?_, fun hop hll hz m hm => ?_⟩
  · rw [evexFields, hb] at hi
    obtain ⟨-, src2, hsrc, hrow⟩ := evexInstr_eq_ok.mp hi
    rcases hreg with hmod | hop
    · rw [readRm_of_mod_three hmod] at hrm
      cases hrm
      cases hsrc
    · rw [(evexPattern_w hpat).2 hop] at hrow
      rcases hrow with ⟨hw, -⟩ | ⟨-, hbc, -⟩
      · cases hw
      · cases hbc
  · subst hm
    obtain ⟨dest, src1, wm, hfields⟩ : ∃ dest src1 wm,
        evexFields p p0 p1 p2 modrm (.mem m) = .ok (vpermdOf (field p2 5 2) p dest src1 wm (.bcst m)) := by
      rw [evexFields, hb]
      exact ⟨_, _, _, evexInstr_eq_ok.mpr ⟨evexMask_wf hz, _, rfl, .inl ⟨(evexPattern_w hpat).1 hop, rfl⟩⟩⟩
    refine ⟨_, _, (decode_evex_admitted hadm p2 hpat hrm).trans (evexRow_eq_instr.mpr ⟨rfl, ?_, ?_, hfields⟩), ?_⟩
    · rcases hll with h | h <;> rw [h] <;> decide
    · rcases hll with h | h <;> rw [h] <;> exact fun h0 => absurd h0.2 (by decide)
    · rcases hll with h | h <;> rw [h] <;> rfl

/-- Settles O11: such mask fields are not well-formed, and no EVEX form has them. -/
theorem zeroingWithoutWritemaskRaisesUd : Obligations.ZeroingWithoutWritemaskRaisesUd := by
  unfold Obligations.ZeroingWithoutWritemaskRaisesUd
  intro run p p0 p1 p2 op modrm tail rm hadm hpat hz haaa hrm
  refine stepRaisesUd_evex hadm hpat hrm fun i _ _ hi => ?_
  obtain ⟨hwf, -⟩ := evexInstr_eq_ok.mp hi
  rw [not_evexMask_wf hz haaa] at hwf
  cases hwf

/-! ## Results that the run of prefixes alone decides, or does not change (30_encoding.md R81, R82, R103, R105) -/

/-- Settles O9: wrong reserved bits are judged right after the length, before the run of prefixes and the opcode. -/
theorem evexReservedBitsRaiseUd : Obligations.EvexReservedBitsRaiseUd := by
  unfold Obligations.EvexReservedBitsRaiseUd
  intro run p0 p1 p2 op modrm tail rm n hrun hrm hlen hwrong
  have hfix : evexFixed p0 p1 = false := by
    rw [← Bool.not_eq_true, evexFixed_iff]
    rintro ⟨hres, hone⟩
    rcases hwrong with h | h
    · exact h hres
    · rw [hone] at h; cases h
  apply stepRaisesUd_of_decode
  rw [decode_evex_whole hrun p2 (.inr hfix) hrm, if_neg (by omega), evexJudge, if_pos hfix]

/-- Within 15 bytes a pattern after any run is judged by the run first. -/
theorem decode_vex_short {run : List Byte} (hrun : run.all isLegacyPrefix = true) {b1 b2 op modrm : Byte}
    (hpat : vexPattern b1 b2 op = true) {tail : List Byte} {rm : RmOperand} {n : Nat}
    (hrm : readRm modrm (!bitAt b1 6) (!bitAt b1 5) tail = some (rm, n)) (hlen : run.length + 5 + n ≤ 15) :
    ∃ row, decode (run ++ [0xC4, b1, b2, op, modrm] ++ tail) = judgeRun run row :=
  ⟨_, by rw [decode_vex_whole hrun hpat hrm, if_neg (Nat.not_lt.mpr hlen)]⟩

theorem decode_evex_short {run : List Byte} (hrun : run.all isLegacyPrefix = true) {p0 p1 op modrm : Byte} (p2 : Byte)
    (hpat : evexPattern p0 p1 op = true) {tail : List Byte} {rm : RmOperand} {n : Nat}
    (hrm : readRm modrm (!bitAt p0 6) (!bitAt p0 5) tail = some (rm, n)) (hlen : run.length + 6 + n ≤ 15) :
    ∃ row, decode (run ++ [0x62, p0, p1, p2, op, modrm] ++ tail) = judgeRun run row :=
  ⟨_, by rw [decode_evex_whole hrun p2 (.inl hpat) hrm, if_neg (Nat.not_lt.mpr hlen), evexJudge_of_pattern hpat]⟩

/-- 66H, F2H, F3H, F0H and 40H to 4FH are the forbidden prefixes (R82). -/
theorem isForbiddenPrefix_of {b : Byte}
    (h : b = 0x66 ∨ b = 0xF2 ∨ b = 0xF3 ∨ b = 0xF0 ∨ (0x40 ≤ b.toNat ∧ b.toNat ≤ 0x4F)) : isForbiddenPrefix b = true := by
  revert b; decide

/-- Settles O12: a forbidden prefix is judged right after the length. -/
theorem forbiddenLegacyPrefixRaisesUd : Obligations.ForbiddenLegacyPrefixRaisesUd := by
  unfold Obligations.ForbiddenLegacyPrefixRaisesUd
  rintro run hrun ⟨b, hmem, hb⟩ modrm tail rm n
  have hforb : run.any isForbiddenPrefix = true := List.any_eq_true.mpr ⟨b, hmem, isForbiddenPrefix_of hb⟩
  refine ⟨fun b1 b2 op hpat hrm hlen => ?_, fun p0 p1 p2 op hpat hrm hlen => ?_⟩
  · obtain ⟨row, hdec⟩ := decode_vex_short hrun hpat hrm hlen
    exact stepRaisesUd_of_decode (hdec.trans (judgeRun_of_forbidden hforb row))
  · obtain ⟨row, hdec⟩ := decode_evex_short hrun p2 hpat hrm hlen
    exact stepRaisesUd_of_decode (hdec.trans (judgeRun_of_forbidden hforb row))

/-- Settles O14: none of the eight admitted runs has what these have. -/
theorem otherPrefixRunsAreRefused : Obligations.OtherPrefixRunsAreRefused := by
  unfold Obligations.OtherPrefixRunsAreRefused
  intro run hrun hforb hother modrm tail rm n
  have hadm : admitPrefixes run = none := by
    refine Option.eq_none_iff_forall_ne_some.mpr fun p hp => ?_
    obtain ⟨-, -, -, hnot⟩ := admitted_run hp
    exact hnot hother
  refine ⟨fun b1 b2 op hpat hrm hlen => ?_, fun p0 p1 p2 op hpat hrm hlen => ?_⟩
  · obtain ⟨row, hdec⟩ := decode_vex_short hrun hpat hrm hlen
    exact stepOnBytes_of_prefixRun (hdec.trans (judgeRun_of_refused hforb hadm row))
  · obtain ⟨row, hdec⟩ := decode_evex_short hrun p2 hpat hrm hlen
    exact stepOnBytes_of_prefixRun (hdec.trans (judgeRun_of_refused hforb hadm row))

/-- Settles O15: the decoder answers before it reads an operand, so no length is judged. -/
theorem neighbouringEncodingsAreNotInScope : Obligations.NeighbouringEncodingsAreNotInScope := by
  unfold Obligations.NeighbouringEncodingsAreNotInScope
  intro run hrun
  refine ⟨fun b hb hC4 h62 => ?_, fun b1 b2 op hpat => ?_, fun p0 p1 p2 op hfix hpat => ?_⟩
  · apply stepOnBytes_of_notInScope
    rw [decode, splitPrefixes_append run hrun b hb]
    exact (if_neg hC4).trans (if_neg h62)
  · exact stepOnBytes_of_notInScope ((decode_vex hrun b1 b2 op []).trans (decodeVex_of_not_pattern hpat run []))
  · exact stepOnBytes_of_notInScope
      ((decode_evex hrun p0 p1 p2 op []).trans (decodeEvex_of_not_pattern hfix hpat p2 run []))

/-- Settles O16: the length goes before all that is judged, and a decoded instruction is as long as its form counts. -/
theorem longerThanFifteenBytesRaisesGp : Obligations.LongerThanFifteenBytesRaisesGp := by
  unfold Obligations.LongerThanFifteenBytesRaisesGp
  refine ⟨fun bytes h => stepOnBytes_of_gpLen h, fun run modrm tail rm n hrun => ⟨?_, ?_⟩, fun bs i n h => ?_⟩
  · intro b1 b2 op hpat hrm hlen
    exact stepOnBytes_of_gpLen ((decode_vex_whole hrun hpat hrm).trans (if_pos hlen))
  · intro p0 p1 p2 op hpat hrm hlen
    exact stepOnBytes_of_gpLen ((decode_evex_whole hrun p2 hpat hrm).trans (if_pos hlen))
  · obtain ⟨-, rfl, -⟩ := decodedInstructionIsWellFormed bs i n h
    exact (Instr.length_bounds i).2

/-! ## Modes and features (30_encoding.md R106, R107) -/

/-- Settles O19: the mode is the first check of the step and of every meaning. -/
theorem otherModesAreRefused : Obligations.OtherModesAreRefused := by
  unfold Obligations.OtherModesAreRefused
  intro s hmode
  refine ⟨step_of_refused (by simp [nextInstr, hmode]), fun i => exec_of_checkEnabled.2 _ ?_⟩
  simp [checkEnabled, hmode]

/-- Settles O48: reset leaves the processor outside 64-bit mode. -/
theorem noFormExecutesAtReset : Obligations.NoFormExecutesAtReset := by
  unfold Obligations.NoFormExecutesAtReset
  exact otherModesAreRefused State.reset rfl

/-- A form without one of its features, or whose state is not enabled, does not pass the #UD checks. -/
theorem checkEnabled_of_disabled {f : Form} {s : State} (hmode : s.mode64 = true)
    (h : f.hasFeatures s.cfg = false ∨ Form.osEnabled f s = false) : checkEnabled f s = .fault (.ud s.rip) := by
  have hdis : (Form.osEnabled f s && f.hasFeatures s.cfg) = false := by
    rcases h with h | h <;> simp [h]
  simp [checkEnabled, hmode, hdis]

/-- A slice is all ones when each of its bits is 1. -/
theorem extractLsb'_eq_allOnes {w lo n : Nat} {v : BitVec w} (h : ∀ j < n, v.getLsbD (lo + j) = true) :
    v.extractLsb' lo n = BitVec.allOnes n := by
  apply BitVec.eq_of_getLsbD_eq
  intro j hj
  simp [hj, h j hj]

theorem bits_of_osAvxEnabled {s : State} (h : s.osAvxEnabled = true) :
    s.cr4.getLsbD 18 = true ∧ s.xcr0.extractLsb' 1 2 = 3 := by
  simp only [State.osAvxEnabled, Bool.and_eq_true] at h
  obtain ⟨⟨hcr4, h1⟩, h2⟩ := h
  refine ⟨hcr4, extractLsb'_eq_allOnes fun j hj => ?_⟩
  match j, hj with
  | 0, _ => exact h1
  | 1, _ => exact h2

theorem bits_of_osAvx512Enabled {s : State} (h : s.osAvx512Enabled = true) :
    s.osAvxEnabled = true ∧ s.xcr0.extractLsb' 5 3 = 7 := by
  simp only [State.osAvx512Enabled, Bool.and_eq_true] at h
  obtain ⟨⟨⟨hos, h5⟩, h6⟩, h7⟩ := h
  refine ⟨hos, extractLsb'_eq_allOnes fun j hj => ?_⟩
  match j, hj with
  | 0, _ => exact h5
  | 1, _ => exact h6
  | 2, _ => exact h7

/-- A form is enabled only with CR4.OSXSAVE, XCR0[2:1] = 11b and, under EVEX, XCR0[7:5] = 111b (60_exceptions.md R195). -/
theorem bits_of_osEnabled {f : Form} {s : State} (h : Form.osEnabled f s = true) :
    s.cr4.getLsbD 18 = true ∧ s.xcr0.extractLsb' 1 2 = 3 ∧ (f ≠ .vexD256 → s.xcr0.extractLsb' 5 3 = 7) := by
  unfold Form.osEnabled at h
  split at h
  next =>
    obtain ⟨havx, h5⟩ := bits_of_osAvx512Enabled h
    obtain ⟨hcr4, h1⟩ := bits_of_osAvxEnabled havx
    exact ⟨hcr4, h1, fun _ => h5⟩
  next hvex =>
    obtain ⟨hcr4, h1⟩ := bits_of_osAvxEnabled h
    refine ⟨hcr4, h1, fun hne => ?_⟩
    cases f with
    | vexD256 => exact absurd rfl hne
    | _ => exact absurd rfl hvex

/-- Settles O39: every listed bit is part of the features or enables that the checks ask for. -/
theorem disabledFormRaisesUd : Obligations.DisabledFormRaisesUd := by
  unfold Obligations.DisabledFormRaisesUd
  intro i s hmode h
  refine exec_of_checkEnabled.1 _ (checkEnabled_of_disabled hmode ?_)
  generalize i.form = f at h ⊢
  rcases h with hfeatures | hos
  · left
    cases f with
    | vexD256 => exact hfeatures
    | evexD256 => exact Bool.and_eq_false_iff.mpr hfeatures
    | evexD512 => exact hfeatures
    | evexW128 => exact Bool.and_eq_false_iff.mpr hfeatures
    | evexW256 => exact Bool.and_eq_false_iff.mpr hfeatures
    | evexW512 => exact hfeatures
  · right
    rw [← Bool.not_eq_true]
    intro henabled
    obtain ⟨hcr4, h1, h5⟩ := bits_of_osEnabled henabled
    rcases hos with h | h | ⟨hne, h⟩
    · rw [hcr4] at h; cases h
    · exact h h1
    · exact h (h5 hne)

end Sys2Proof.Machine
end

section
/-! PROOF. The statements on VPERMD (40_vpermd.md): what a step does with an instruction at `rip`, selection, what forms 1 to 3 compute, the
unmasked EVEX form against the VEX form, and identity indices. -/

namespace Sys2Proof.Machine

/-! ## The step of an instruction at `rip` (40_vpermd.md R148) -/

/-- Settles O17: the decode result is the step's execution. -/
theorem stepRunsTheDecodedInstruction : Obligations.StepRunsTheDecodedInstruction := by
  unfold Obligations.StepRunsTheDecodedInstruction
  intro bytes i n h s hmode hcode
  rw [step_of_codeAt hmode hcode (by simp [h]), h]

/-- Settles O18: the encoding decodes to its instruction. -/
theorem stepRunsTheInstructionInMemory : Obligations.StepRunsTheInstructionInMemory := by
  unfold Obligations.StepRunsTheInstructionInMemory
  intro i h
  have hdec : decode (encode i) = .instr i i.length := by
    simpa using decodeOfEncodeIsTheInstruction i h []
  exact stepRunsTheDecodedInstruction _ i _ hdec

/-! ## Selection (40_vpermd.md R141, R142) -/

/-- Settles O22: the index widths of the five pairs are the logarithms of their counts. -/
theorem permuteTakesTheNamedElements : Obligations.PermuteTakesTheNamedElements := by
  unfold Obligations.PermuteTakesTheNamedElements
  intro q hq idx data j hj
  have hlog : ∀ q ∈ [(32, 8, 3), (32, 16, 4), (16, 8, 3), (16, 16, 4), (16, 32, 5)],
      q.2.2 = Nat.log2 q.2.1 ∧ 2 ^ Nat.log2 q.2.1 = q.2.1 := by decide
  obtain ⟨hnb, hpow⟩ := hlog q hq
  rw [hnb]
  exact ⟨elem_permute idx data hj, sel_lt hpow idx j⟩

/-- An element is the vector shifted down to it and cut to its width. -/
theorem elem_eq_setWidth_ushiftRight {w n : Nat} (v : BitVec n) (j : Nat) : elem w v j = (v >>> (j * w)).setWidth w := by
  apply BitVec.eq_of_getLsbD_eq
  intro b hb
  simp only [getLsbD_elem, BitVec.getLsbD_setWidth, BitVec.getLsbD_ushiftRight, hb, decide_true, Bool.true_and,
    Nat.mul_comm]

/-- Settles O23: the selected element is the shift's low doubleword. -/
theorem permuteIsTheVexListing : Obligations.PermuteIsTheVexListing := by
  unfold Obligations.PermuteIsTheVexListing
  intro src1 src2 j hj
  rw [elem_permute _ _ hj, elem_eq_setWidth_ushiftRight]
  rfl

/-! ## Operand 3 that can be read (20_memory.md R52, R55, R56) -/

/-- Operand 3 can be read exactly when the memory operand, if there is one, can. -/
theorem operandReadable_iff {i : Instr} {s : State} : operandReadable i s = true ↔
    ∀ a, i.memAccess = some a → readable (operandAddress i a s).toNat a.n s = true := by
  unfold operandReadable
  cases i.memAccess with
  | none => simp
  | some a => simp

theorem VexSrc.load_of_readable {p : Prefixes} {len : Nat} {s : State} {src2 : VexSrc}
    (h : ∀ a, src2.memAccess = some a → readable (linearAddress p a.N len a.m s).toNat a.n s = true) :
    ∃ data, VexSrc.load p len 32 8 s src2 = .ok data ∧ VexSrc.HasData p len s data src2 := by
  cases src2 with
  | reg r => exact ⟨_, rfl, rfl⟩
  | mem m => exact loadFullMem_of_readable (by decide) (by decide) (h ⟨m, 1, 32⟩ rfl)

theorem FullSrc.load_of_readable {kl : Nat} {p : Prefixes} {len : Nat} {s : State} {src2 : FullSrc}
    (h : ∀ a, src2.memAccess (4 * kl) = some a → readable (linearAddress p a.N len a.m s).toNat a.n s = true) :
    ∃ data, FullSrc.load p len kl s src2 = .ok data ∧ FullSrc.HasData kl p len s data src2 := by
  cases src2 with
  | reg r => exact ⟨_, rfl, rfl⟩
  | mem m =>
    have hbytes : 32 * kl / 8 = 4 * kl := by omega
    unfold FullSrc.load
    rw [hbytes]
    exact loadFullMem_of_readable hbytes (by omega) (h ⟨m, 4 * kl, 4 * kl⟩ rfl)
  | bcst m => exact loadBroadcast_of_readable (h ⟨m, 4, 4⟩ rfl)

/-! ## What a completed form stores (40_vpermd.md R142 to R145, 10_state.md R23) -/

/-- A ready form with its operand loaded stores the elements of its result, and zeros above them. -/
theorem execForm_stores {f : Form} {w kl : Nat} {s : State} (hr : Ready f s = true) (hm : w * kl ≤ s.cfg.maxvl) (len : Nat)
    (dest : VReg) {src2 : Answer (Vec w kl)} {data : Vec w kl} (hload : src2 = .ok data) (result : Vec w kl → Vec w kl) :
    ∃ v : Zmm, execForm f len dest src2 result s = .next (s.withResult dest v (s.rip + BitVec.ofNat 64 len)) ∧
      (∀ j < kl, elem w v j = elem w (result data) j) ∧ v.toNat < 2 ^ (w * kl) := by
  subst hload
  exact ⟨_, execForm_ok hr len dest data result, fun j hj => elem_stored s _ hm hj, stored_lt s _⟩

/-- The elements that a ready form with a masked permutation stores; `nb` is the number of index bits. -/
theorem execForm_maskedPermute_stores {f : Form} {w kl nb : Nat} {s : State} (hr : Ready f s = true)
    (hm : w * kl ≤ s.cfg.maxvl) (hn : Nat.log2 kl = nb) (hw : nb ≤ w) (len : Nat) (dest src1 : VReg) (wm : Writemask)
    {src2 : Answer (Vec w kl)} {data : Vec w kl} (hload : src2 = .ok data) :
    ∃ v : Zmm, execForm f len dest src2 (maskedPermute w kl dest src1 wm s) s =
        .next (s.withResult dest v (s.rip + BitVec.ofNat 64 len)) ∧
      (∀ j < kl, elem w v j = maskedElem w nb s dest src1 wm data j) ∧ v.toNat < 2 ^ (w * kl) := by
  obtain ⟨v, hexec, helem, hlt⟩ := execForm_stores hr hm len dest hload (maskedPermute w kl dest src1 wm s)
  exact ⟨v, hexec, fun j hj => (helem j hj).trans (elem_maskedPermute hn hw dest src1 wm s data hj), hlt⟩

/-- Settles O25: the index bits read from operand 2's low part are the register's. -/
theorem vpermdVex256PermutesDoublewords : Obligations.VpermdVex256PermutesDoublewords := by
  unfold Obligations.VpermdVex256PermutesDoublewords
  intro p dest src1 src2 s hr hop
  obtain ⟨data, hload, hdata⟩ := VexSrc.load_of_readable (operandReadable_iff.mp hop)
  obtain ⟨v, hexec, helem, hlt⟩ := execForm_stores (w := 32) (kl := 8) hr (Ready.maxvl hr) _ (dest.castLE (by decide)) hload
    (permute 32 8 (s.vec 32 8 (src1.castLE (by decide))))
  refine ⟨data, v, hexec, hdata, fun j hj => ?_, hlt⟩
  rw [helem j hj, elem_permute _ _ hj, sel_vec rfl (by decide) _ _ hj]
  rfl

/-- Settles O26: the shared masked permutation with three index bits. -/
theorem vpermdEvex256PermutesAndMasksDoublewords : Obligations.VpermdEvex256PermutesAndMasksDoublewords := by
  unfold Obligations.VpermdEvex256PermutesAndMasksDoublewords
  intro p dest src1 wm src2 s hr hop
  obtain ⟨data, hload, hdata⟩ := FullSrc.load_of_readable (kl := 8) (operandReadable_iff.mp hop)
  obtain ⟨v, hexec, helem, hlt⟩ :=
    execForm_maskedPermute_stores hr (Ready.maxvl hr) (nb := 3) (by decide) (by decide) _ dest src1 wm hload
  exact ⟨data, v, hexec, hdata, helem, hlt⟩

/-- Settles O27: sixteen doublewords are the whole register. -/
theorem vpermdEvex512PermutesAndMasksDoublewords : Obligations.VpermdEvex512PermutesAndMasksDoublewords := by
  unfold Obligations.VpermdEvex512PermutesAndMasksDoublewords
  intro p dest src1 wm src2 s hr hop
  obtain ⟨data, hload, hdata⟩ := FullSrc.load_of_readable (kl := 16) (operandReadable_iff.mp hop)
  obtain ⟨v, hexec, helem, -⟩ :=
    execForm_maskedPermute_stores hr (Ready.maxvl hr) (nb := 4) (by decide) (by decide) _ dest src1 wm hload
  exact ⟨data, v, hexec, hdata, helem⟩

/-! ## Without a writemask (40_vpermd.md R145, R146) -/

/-- Without a writemask the masked permutation is the permutation. -/
theorem maskedPermute_unmasked (w kl : Nat) (dest src1 : VReg) (z : Bool) (s : State) :
    maskedPermute w kl dest src1 ⟨0, z⟩ s = permute w kl (s.vec w kl src1) := by
  funext data
  refine eq_of_elems fun j hj => ?_
  unfold maskedPermute
  rw [elem_applyMask _ _ _ _ hj, if_pos (.inl rfl)]

/-- Neither the factor of a disp8 nor the length enters the address of an operand without disp8 and not relative to `rip`. -/
theorem linearAddress_of_encodingFree {m : MemOp} (h : MemOp.encodingFree m = true) (p : Prefixes) (N len N' len' : Nat)
    (s : State) : linearAddress p N len m s = linearAddress p N' len' m s := by
  have hterms : MemOp.terms N len s m = MemOp.terms N' len' s m := by
    cases m with
    | based b d => cases d with
      | d8 v => cases h
      | none => rfl
      | d32 v => rfl
    | ripRel d => cases h
    | sib b i ss d => cases d with
      | d8 v => cases h
      | none => rfl
      | d32 v => rfl
    | sibNoBase i ss d => rfl
  unfold linearAddress effectiveAddress
  rw [hterms]

theorem loadFullMem_of_encodingFree {m : MemOp} (h : MemOp.encodingFree m = true) (p : Prefixes)
    (N len N' len' w kl : Nat) (s : State) : loadFullMem p N len w kl m s = loadFullMem p N' len' w kl m s := by
  unfold loadFullMem loadBytes
  rw [linearAddress_of_encodingFree h p N len N' len']

theorem State.complete_succ (s : State) (d : VReg) (len : Nat) {n : Nat} (v : BitVec n) :
    s.complete d (len + 1) v = { s.complete d len v with rip := (s.complete d len v).rip + 1 } := by
  rw [State.complete_eq_withResult, BitVec.ofNat_add, ← BitVec.add_assoc]
  rfl

/-- Two ready forms with the same operand and result have the same outcome, but for the byte by which the second is longer. -/
theorem execForm_succ {f f' : Form} {s : State} (hf : Ready f s = true) (hf' : Ready f' s = true) (len : Nat) (dest : VReg)
    {n : Nat} (src2 : Answer (BitVec n)) (result : BitVec n → BitVec n) :
    execForm f' (len + 1) dest src2 result s =
      mapNext (fun t => { t with rip := t.rip + 1 }) (execForm f len dest src2 result s) := by
  rw [execForm_of_ready hf, execForm_of_ready hf']
  cases src2 with
  | ok data => exact congrArg _ (s.complete_succ dest len (result data))
  | fault e => rfl
  | refused r => rfl

/-- Unmasked form 2 and form 1, both ready and loading the same operand 3, differ by the byte of length (R146). -/
theorem exec_vpermdEvex256_unmasked {p : Prefixes} {dest src1 : VReg16} {s : State} (hv : Ready .vexD256 s = true)
    (he : Ready .evexD256 s = true) {src2 : VexSrc} {src2' : FullSrc} (hlen : src2'.length = src2.length)
    (hload : FullSrc.load p (p.length + 6 + src2.length) 8 s src2' =
      VexSrc.load p (p.length + 5 + src2.length) 32 8 s src2) :
    exec (.vpermdEvex256 p (dest.castLE (by decide)) (src1.castLE (by decide)) ⟨0, false⟩ src2') s =
      mapNext (fun t => { t with rip := t.rip + 1 }) (exec (.vpermdVex256 p dest src1 src2) s) := by
  have hsucc : p.length + 6 + src2.length = p.length + 5 + src2.length + 1 := by omega
  show execForm .evexD256 (p.length + 6 + src2'.length) _ (FullSrc.load p (p.length + 6 + src2'.length) 8 s src2') _ s = _
  rw [hlen, hload, maskedPermute_unmasked, hsucc]
  exact execForm_succ hv he _ _ _ _

/-- Settles O31: the operands load alike, a register always and memory because its address is free of the encoding. -/
theorem unmaskedEvexEqualsVex : Obligations.UnmaskedEvexEqualsVex := by
  unfold Obligations.UnmaskedEvexEqualsVex
  intro p dest src1 s hv he
  refine ⟨fun r => ?_, fun m hm => ?_⟩
  · have hvex : exec (.vpermdVex256 p dest src1 (.reg r)) s = .next _ := execForm_ok hv _ _ _ _
    have hevex := exec_vpermdEvex256_unmasked (p := p) (dest := dest) (src1 := src1) hv he (src2 := .reg r)
      (src2' := .reg (r.castLE (by decide))) rfl rfl
    exact ⟨_, _, hvex, hevex.trans (congrArg (mapNext _) hvex), rfl⟩
  · exact exec_vpermdEvex256_unmasked hv he (src2 := .mem m) rfl (loadFullMem_of_encodingFree hm _ _ _ _ _ _ _ _)

/-! ## Identity indices (40_vpermd.md R149) -/

/-- A permutation whose every selector names its own element changes nothing. -/
theorem permute_of_sel_eq {w kl : Nat} {idx : Vec w kl} (h : ∀ j < kl, sel w kl idx j = j) (data : Vec w kl) :
    permute w kl idx data = data := by
  refine eq_of_elems fun j hj => ?_
  rw [elem_permute _ _ hj, h j hj]

/-- Storing a register's low bits keeps the register when there is nothing above them. -/
theorem stored_vec {w kl : Nat} {s : State} (hm : w * kl ≤ s.cfg.maxvl) {d : VReg}
    (hd : (s.zmm.get d).toNat < 2 ^ (w * kl)) :
    ((s.vec w kl d).setWidth s.cfg.maxvl).setWidth 512 = s.zmm.get d := by
  have hle : 2 ^ (w * kl) ≤ 2 ^ s.cfg.maxvl := Nat.pow_le_pow_right (by decide) hm
  apply BitVec.eq_of_toNat_eq
  unfold State.vec
  simp only [BitVec.toNat_setWidth]
  rw [Nat.mod_eq_of_lt hd, Nat.mod_eq_of_lt (hd.trans_le hle), Nat.mod_eq_of_lt (s.zmm.get d).isLt]

/-- Writing a register's own value changes only `rip`. -/
theorem State.withResult_self (s : State) (d : VReg) (rip : Addr) :
    s.withResult d (s.zmm.get d) rip = { s with rip := rip } := by
  have hset : s.zmm.set d.val (s.zmm.get d) d.isLt = s.zmm := Vector.set_getElem_self d.isLt
  unfold State.withResult
  rw [hset]

/-- A ready form that permutes its own destination by identity indices, with nothing above the vector length, changes only `rip`. -/
theorem execForm_identity {f : Form} {w kl nb : Nat} {s : State} (hr : Ready f s = true) (hm : w * kl ≤ s.cfg.maxvl)
    (hn : Nat.log2 kl = nb) (hw : nb ≤ w) {d src1 : VReg} (hidx : IdentityIndices w kl nb (s.zmm.get src1))
    (hd : (s.zmm.get d).toNat < 2 ^ (w * kl)) (len : Nat) :
    execForm f len d (.ok (s.vec w kl d)) (permute w kl (s.vec w kl src1)) s =
      .next { s with rip := s.rip + BitVec.ofNat 64 len } := by
  have hsel : ∀ j < kl, sel w kl (s.vec w kl src1) j = j := fun j hj => (sel_vec hn hw s src1 hj).trans (hidx j hj)
  rw [execForm_ok hr, permute_of_sel_eq hsel, stored_vec hm hd, State.withResult_self]

/-- Identity indices under EVEX without a writemask: the permutation is that of `execForm_identity`. -/
theorem execForm_maskedPermute_identity {f : Form} {w kl nb : Nat} {s : State} (hr : Ready f s = true)
    (hm : w * kl ≤ s.cfg.maxvl) (hn : Nat.log2 kl = nb) (hw : nb ≤ w) {d src1 : VReg}
    (hidx : IdentityIndices w kl nb (s.zmm.get src1)) (hd : (s.zmm.get d).toNat < 2 ^ (w * kl)) (len : Nat) :
    execForm f len d (.ok (s.vec w kl d)) (maskedPermute w kl d src1 ⟨0, false⟩ s) s =
      .next { s with rip := s.rip + BitVec.ofNat 64 len } := by
  rw [maskedPermute_unmasked]
  exact execForm_identity hr hm hn hw hidx hd len

/-- Settles O32: forms 3 and 6 have nothing above their vector length, which is the register's. -/
theorem identityIndicesChangeOnlyRip : Obligations.IdentityIndicesChangeOnlyRip := by
  unfold Obligations.IdentityIndicesChangeOnlyRip
  refine fun p s => ⟨fun d src1 hr hidx hd => ?_, fun d src1 => ⟨fun hr hidx hd => ?_, fun hr hidx => ?_,
    fun hr hidx hd => ?_, fun hr hidx hd => ?_, fun hr hidx => ?_⟩⟩
  · exact execForm_identity hr (Ready.maxvl hr) (by decide) (by decide) hidx hd _
  · exact execForm_maskedPermute_identity hr (Ready.maxvl hr) (by decide) (by decide) hidx hd _
  · exact execForm_maskedPermute_identity hr (Ready.maxvl hr) (by decide) (by decide) hidx
      (BitVec.toNat_lt_twoPow_of_le (by decide)) _
  · exact execForm_maskedPermute_identity hr (Ready.maxvl hr) (by decide) (by decide) hidx hd _
  · exact execForm_maskedPermute_identity hr (Ready.maxvl hr) (by decide) (by decide) hidx hd _
  · exact execForm_maskedPermute_identity hr (Ready.maxvl hr) (by decide) (by decide) hidx
      (BitVec.toNat_lt_twoPow_of_le (by decide)) _

end Sys2Proof.Machine
end

section
/-! PROOF. The statements on VPERMW (41_vpermw.md): what forms 4 to 6 compute. -/

namespace Sys2Proof.Machine

/-- A readable operand 3 of `kl` words loads as the register's low bits or the bytes of memory (20_memory.md R52, R55). -/
theorem FullMemSrc.load_of_readable {kl : Nat} {p : Prefixes} {len : Nat} {s : State} {src2 : FullMemSrc}
    (h : ∀ a, src2.memAccess (2 * kl) = some a → readable (linearAddress p a.N len a.m s).toNat a.n s = true) :
    ∃ data, FullMemSrc.load p len 16 kl s src2 = .ok data ∧ FullMemSrc.HasData kl p len s data src2 := by
  cases src2 with
  | reg r => exact ⟨_, rfl, rfl⟩
  | mem m =>
    have hbytes : 16 * kl / 8 = 2 * kl := by omega
    unfold FullMemSrc.load
    rw [hbytes]
    exact loadFullMem_of_readable hbytes (by omega) (h ⟨m, 2 * kl, 2 * kl⟩ rfl)

/-- A ready VPERMW form of `kl` words whose operand 3 can be read stores the permuted and masked words, and zeros above them
(41_vpermw.md R170 to R173). -/
theorem execForm_permutesWords {f : Form} {kl nb : Nat} {s : State} (hr : Ready f s = true) (hm : 16 * kl ≤ s.cfg.maxvl)
    (hn : Nat.log2 kl = nb) (hw : nb ≤ 16) {p : Prefixes} {len : Nat} {src2 : FullMemSrc}
    (h : ∀ a, src2.memAccess (2 * kl) = some a → readable (linearAddress p a.N len a.m s).toNat a.n s = true)
    (dest src1 : VReg) (wm : Writemask) :
    ∃ (data : Vec 16 kl) (v : Zmm),
      execForm f len dest (FullMemSrc.load p len 16 kl s src2) (maskedPermute 16 kl dest src1 wm s) s =
          .next (s.withResult dest v (s.rip + BitVec.ofNat 64 len)) ∧
        FullMemSrc.HasData kl p len s data src2 ∧
        (∀ j < kl, elem 16 v j = maskedElem 16 nb s dest src1 wm data j) ∧ v.toNat < 2 ^ (16 * kl) := by
  obtain ⟨data, hload, hdata⟩ := FullMemSrc.load_of_readable h
  obtain ⟨v, hexec, helem, hlt⟩ := execForm_maskedPermute_stores hr hm hn hw len dest src1 wm hload
  exact ⟨data, v, hexec, hdata, helem, hlt⟩

/-- Settles O28: eight words, with three index bits. -/
theorem vpermwEvex128PermutesAndMasksWords : Obligations.VpermwEvex128PermutesAndMasksWords := by
  unfold Obligations.VpermwEvex128PermutesAndMasksWords
  intro p dest src1 wm src2 s hr hop
  exact execForm_permutesWords (kl := 8) (nb := 3) hr (Ready.maxvl hr) (by decide) (by decide)
    (operandReadable_iff.mp hop) dest src1 wm

/-- Settles O29: sixteen words, with four index bits. -/
theorem vpermwEvex256PermutesAndMasksWords : Obligations.VpermwEvex256PermutesAndMasksWords := by
  unfold Obligations.VpermwEvex256PermutesAndMasksWords
  intro p dest src1 wm src2 s hr hop
  exact execForm_permutesWords (kl := 16) (nb := 4) hr (Ready.maxvl hr) (by decide) (by decide)
    (operandReadable_iff.mp hop) dest src1 wm

/-- Settles O30: thirty-two words, with five index bits, are the whole register. -/
theorem vpermwEvex512PermutesAndMasksWords : Obligations.VpermwEvex512PermutesAndMasksWords := by
  unfold Obligations.VpermwEvex512PermutesAndMasksWords
  intro p dest src1 wm src2 s hr hop
  obtain ⟨data, v, hexec, hdata, helem, -⟩ :=
    execForm_permutesWords (kl := 32) (nb := 5) hr (Ready.maxvl hr) (by decide) (by decide)
      (operandReadable_iff.mp hop) dest src1 wm
  exact ⟨data, v, hexec, hdata, helem⟩

end Sys2Proof.Machine
end

section
/-! PROOF. The statements on exceptions (60_exceptions.md): page faults of fetches and operands, #NM, non-canonical operands, what a fault of a
step is, and the privilege level, which acts only through `Access`. -/

namespace Sys2Proof.Machine

/-! ## Page faults of a platform of ranges (60_exceptions.md R197; log 14) -/

/-- The bits of the model's page-fault error code: P, W/R, U/S, RSVD, I/D, PK, and none above them. -/
theorem pageFaultCode_bits (kind : AccessKind) (cpl : Fin 4) (c : PageFaultCause) :
    (pageFaultCode kind cpl c).getLsbD 0 = c.present ∧ (pageFaultCode kind cpl c).getLsbD 1 = false ∧
      (pageFaultCode kind cpl c).getLsbD 2 = decide (cpl = 3) ∧ (pageFaultCode kind cpl c).getLsbD 3 = c.reserved ∧
      (pageFaultCode kind cpl c).getLsbD 4 = (kind == .fetch && c.fetchReported) ∧
      (pageFaultCode kind cpl c).getLsbD 5 = c.protectionKey ∧ (pageFaultCode kind cpl c).toNat < 64 := by
  rcases c with ⟨_ | _, _ | _, _ | _, _ | _⟩ <;> cases kind <;> revert cpl <;> decide

/-- A page fault that a platform of ranges answers is one of a byte for which a range says so, with the model's code. -/
theorem State.answer_pageFault_of_ranges {s : State} {map : List Region} (hp : s.cfg.platform = .ranges map)
    {kind : AccessKind} {la n : Nat} {code : BitVec 32} {i : Fin n} (h : s.answer kind la n = .pageFault code i) :
    ∃ c, regionAnswer map kind s.cpl (la + i.val) = some (.pageFault c) ∧ code = pageFaultCode kind s.cpl c := by
  rw [State.answer_eq_pageFault, State.verdict_of_ranges hp] at h
  rcases rangesVerdict_cases map kind s.cpl la n with ⟨i', c, hc, hv⟩ | ⟨-, hv⟩
  · rw [hv] at h
    cases h
    exact ⟨c, hc, rfl⟩
  · rw [hv] at h
    split at h <;> cases h

/-- A platform of ranges answers a page fault where some byte faults, whatever other bytes are refused (log 13). -/
theorem State.answer_of_faulting_byte {s : State} {map : List Region} (hp : s.cfg.platform = .ranges map)
    {kind : AccessKind} {la n b : Nat} {c : PageFaultCause} (hb : b < n)
    (hc : regionAnswer map kind s.cpl (la + b) = some (.pageFault c)) :
    ∃ (code : BitVec 32) (i : Fin n), s.answer kind la n = .pageFault code i := by
  rcases rangesVerdict_cases map kind s.cpl la n with ⟨i, c', -, hv⟩ | ⟨hnone, -⟩
  · exact ⟨_, i, State.answer_eq_pageFault.mpr ((State.verdict_of_ranges hp kind la n).trans hv)⟩
  · exact absurd hc (hnone b hb c)

/-! ## Faults of a fetch and of an operand -/

/-- Settles O21: the byte that the decoder needs and cannot get ends the step with the fault of its fetch. -/
theorem pageFaultOnFetchIsRaised : Obligations.PageFaultOnFetchIsRaised := by
  unfold Obligations.PageFaultOnFetchIsRaised
  intro s n code b hneed hlt hcan hpf
  obtain ⟨hfault, -⟩ := step_of_needsByte hneed
  refine hfault _ ?_
  rw [fetchByte_of_canonical hlt ((canonical_iff s.cfg.vaBits hlt).mpr hcan), access_of_pageFault hpf, Answer.bind_fault]
  simp [BitVec.ofNat_add]

/-- Settles O40: CR0.TS is the last of the checks, all of which go before the operand. -/
theorem taskSwitchedRaisesNm : Obligations.TaskSwitchedRaisesNm := by
  unfold Obligations.TaskSwitchedRaisesNm
  intro i s hmode hos hfeatures hts
  refine exec_of_checkEnabled.1 _ ?_
  simp [checkEnabled, hmode, hos, hfeatures, State.cr0TS, hts]

/-- The exception of a non-canonical operand is #SS(0) exactly for the accesses that use the stack segment (20_memory.md R54). -/
theorem nonCanonical_segmentOf (i : Instr) (m : MemOp) (rip : Addr) :
    (segmentOf i.prefixes m).nonCanonical rip = if usesStackSegment i m then .ss0 rip else .gp0 rip := by
  unfold segmentOf usesStackSegment
  cases i.prefixes.seg with
  | none =>
    have hbase : ∀ b : Gpr, (if b = 4 ∨ b = 5 then Segment.ss else .ds).nonCanonical rip =
        if b == 4 || b == 5 then .ss0 rip else .gp0 rip := fun b => by
      by_cases hb : b = 4 ∨ b = 5 <;> simp [hb, Segment.nonCanonical]
    cases m with
    | based b d => exact hbase b
    | ripRel d => rfl
    | sib b x ss d => exact hbase b
    | sibNoBase x ss d => rfl
  | fs => rfl
  | gs => rfl

/-- Settles O41. -/
theorem nonCanonicalOperandRaisesSsOrGp : Obligations.NonCanonicalOperandRaisesSsOrGp := by
  unfold Obligations.NonCanonicalOperandRaisesSsOrGp
  intro i a s ha hready hw hbyte
  rw [← nonCanonical_segmentOf]
  exact exec_of_memRead_fault hready ha (memRead_of_nonCanonical hw hbyte)

/-- A canonical operand for which `Access` answers a page fault raises it, with the address of the byte it names. -/
theorem memRead_of_pageFault {seg : Segment} {la : Addr} {n : Nat} {s : State} {code : BitVec 32} {b : Fin n}
    (hw : la.toNat + n ≤ 2 ^ 64) (hcan : ∀ b < n, IsCanonical s.cfg.vaBits.bits (la.toNat + b))
    (h : s.answer .read la.toNat n = .pageFault code b) :
    memRead seg la n s = .fault (.pf code (la + BitVec.ofNat 64 b.val) s.rip) := by
  rw [memRead_of_canonical hw hcan, access_of_pageFault h, Answer.bind_fault]
  simp [BitVec.ofNat_add]

/-- Settles O42: on a platform of ranges a byte that faults makes `Access` answer a page fault, of which the first part says the rest. -/
theorem pageFaultOnOperandIsRaised : Obligations.PageFaultOnOperandIsRaised := by
  unfold Obligations.PageFaultOnOperandIsRaised
  intro i a s ha hready hw hcan
  have hraise : ∀ (code : BitVec 32) (b : Fin a.n), s.answer .read (operandAddress i a s).toNat a.n = .pageFault code b →
      exec i s = .fault (.pf code (operandAddress i a s + BitVec.ofNat 64 b.val) s.rip) :=
    fun code b h => exec_of_memRead_fault hready ha (memRead_of_pageFault hw hcan h)
  refine ⟨hraise, fun map hp ⟨b, hb, c, hc⟩ => ?_⟩
  obtain ⟨code, i', hanswer⟩ := State.answer_of_faulting_byte hp hb hc
  obtain ⟨c', hc', rfl⟩ := State.answer_pageFault_of_ranges hp hanswer
  exact ⟨i'.val, c', _, i'.isLt, hc', hraise _ _ hanswer, pageFaultCode_bits .read s.cpl c'⟩

/-! ## Faults of a step -/

theorem nextInstr_of_mode64 {s : State} (h : s.mode64 = true) : nextInstr s = fetchInstr (2 ^ 64 - s.rip.toNat) [] s :=
  if_pos h

theorem nextInstr_of_other_mode {s : State} (h : ¬s.mode64 = true) : nextInstr s = .refused .mode :=
  if_neg h

/-- A fault of a step is one of its fetch, or of the instruction at `rip`. -/
theorem step_eq_fault {s : State} {f : Fault} (h : step s = .fault f) :
    nextInstr s = .fault f ∨ ∃ i, nextInstr s = .ok i ∧ exec i s = .fault f := by
  unfold step at h
  split at h
  next i hi => exact .inr ⟨i, hi, h⟩
  next e he =>
    cases h
    exact .inl he
  next => cases h

/-- Everything a fault of an instruction can be: #UD, #NM, its operand's segment's exception, or a page fault that `Access` answered. -/
theorem exec_fault_cases {i : Instr} {s : State} {f : Fault} (h : exec i s = .fault f) :
    f = .ud s.rip ∨ f = .nm s.rip ∨ f = .ss0 s.rip ∨ f = .gp0 s.rip ∨
      ∃ la n code, ∃ b : Fin n, s.answer .read la n = .pageFault code b ∧
        f = .pf code (BitVec.ofNat 64 (la + b.val)) s.rip := by
  rcases exec_eq_fault h with h | h | ⟨-, a, -, h⟩
  · exact .inl h
  · exact .inr (.inl h)
  · rcases memRead_eq_fault h with ⟨-, rfl⟩ | ⟨code, b, hanswer, rfl⟩
    · rw [nonCanonical_segmentOf]
      split
      · exact .inr (.inr (.inl rfl))
      · exact .inr (.inr (.inr (.inl rfl)))
    · exact .inr (.inr (.inr (.inr ⟨_, _, code, b, hanswer, rfl⟩)))

/-- Everything a fault of a step can be, with the address of the instruction: one of the exceptions without a recorded address, or a page
fault that `Access` answered. -/
theorem step_fault_cases {s : State} {f : Fault} (h : step s = .fault f) :
    f = .ud s.rip ∨ f = .nm s.rip ∨ f = .ss0 s.rip ∨ f = .gp0 s.rip ∨
      ∃ kind la n code, ∃ b : Fin n, s.answer kind la n = .pageFault code b ∧
        f = .pf code (BitVec.ofNat 64 (la + b.val)) s.rip := by
  rcases step_eq_fault h with h | ⟨i, -, h⟩
  · unfold nextInstr at h
    split at h
    · rcases fetchInstr_eq_fault h with h | h | ⟨a, code, b, hpf⟩
      · exact .inl h
      · exact .inr (.inr (.inr (.inl h)))
      · exact .inr (.inr (.inr (.inr ⟨.fetch, a, 1, code, b, hpf⟩)))
    · cases h
  · rcases exec_fault_cases h with h | h | h | h | hpf
    · exact .inl h
    · exact .inr (.inl h)
    · exact .inr (.inr (.inl h))
    · exact .inr (.inr (.inr (.inl h)))
    · exact .inr (.inr (.inr (.inr ⟨.read, hpf⟩)))

/-- A fault changes CR2 at most (60_exceptions.md R200). -/
theorem State.afterFault_eq (s : State) (f : Fault) : s.afterFault f = { s with cr2 := f.cr2.getD s.cr2 } := by
  cases f <;> rfl

/-- Settles O44: each of the five exceptions fixes its vector, code and address, and only a page fault's come from `Access`. -/
theorem faultsArePrecise : Obligations.FaultsArePrecise := by
  unfold Obligations.FaultsArePrecise
  intro s f h
  have hcases := step_fault_cases h
  refine ⟨?_, State.afterFault_eq s f, ?_⟩
  · rcases hcases with rfl | rfl | rfl | rfl | ⟨_, _, _, _, _, -, rfl⟩ <;> rfl
  · rcases hcases with rfl | rfl | rfl | rfl | ⟨kind, la, n, code, b, hanswer, rfl⟩
    · exact .inl ⟨rfl, rfl, rfl⟩
    · exact .inr (.inl ⟨rfl, rfl, rfl⟩)
    · exact .inr (.inr (.inl ⟨rfl, rfl, rfl⟩))
    · exact .inr (.inr (.inr (.inl ⟨rfl, rfl, rfl⟩)))
    · refine .inr (.inr (.inr (.inr ⟨code, kind, la, n, b, hanswer, rfl, rfl, rfl, rfl, fun map hp => ?_⟩)))
      obtain ⟨c, -, rfl⟩ := State.answer_pageFault_of_ranges hp hanswer
      obtain ⟨-, hwrite, huser, -, -, -, hlt⟩ := pageFaultCode_bits kind s.cpl c
      exact ⟨hwrite, huser, hlt⟩

/-! ## The privilege level (60_exceptions.md R205) -/

/-- A fault without the U/S bit of a page fault's code. -/
def Fault.clearUser : Fault → Fault
  | .pf code cr2 rip => .pf (Machine.clearUser code) cr2 rip
  | e => e

/-- An answer without the U/S bit of a page fault's code. -/
def Answer.clearUser {α : Type} : Answer α → Answer α
  | .ok a => .ok a
  | .fault e => .fault e.clearUser
  | .refused r => .refused r

theorem Answer.clearUser_bind {α β : Type} (x : Answer α) (f : α → Answer β) :
    (x.bind f).clearUser = x.clearUser.bind fun a => (f a).clearUser := by
  cases x <;> rfl

/-- Answers alike up to the U/S bit go on alike. -/
theorem Answer.clearUser_bind_congr {α β : Type} {x y : Answer α} {f g : α → Answer β}
    (hxy : x.clearUser = y.clearUser) (hfg : ∀ a, (f a).clearUser = (g a).clearUser) :
    (x.bind f).clearUser = (y.bind g).clearUser := by
  rw [Answer.clearUser_bind, Answer.clearUser_bind, hxy, funext hfg]

theorem outcomeClearUser_fault (e : Fault) : outcomeClearUser (.fault e) = .fault e.clearUser := by
  cases e <;> rfl

theorem outcomeClearUser_toOutcome {α : Type} (x : Answer α) (f : α → State) :
    outcomeClearUser (x.toOutcome f) = x.clearUser.toOutcome f := by
  cases x with
  | ok a => rfl
  | fault e => exact outcomeClearUser_fault e
  | refused r => rfl

theorem mapNext_toOutcome {α : Type} (x : Answer α) (f : α → State) (g : State → State) :
    mapNext g (x.toOutcome f) = x.toOutcome fun a => g (f a) := by
  cases x <;> rfl

/-- The outcome of a step up to the U/S bit, from what is fetched up to that bit. -/
theorem outcomeClearUser_step (s : State) :
    outcomeClearUser (step s) = match (nextInstr s).clearUser with
      | .ok i => outcomeClearUser (exec i s)
      | .fault e => .fault e
      | .refused r => .refused r := by
  unfold step
  cases nextInstr s with
  | ok i => rfl
  | fault e => exact outcomeClearUser_fault e
  | refused r => rfl

/-- An access up to the U/S bit, from the answer of `Access` up to that bit. -/
theorem access_clearUser (kind : AccessKind) (la n : Nat) (s : State) :
    (access kind la n s).clearUser = match AccessAnswer.clearUser (s.answer kind la n) with
      | .ok bytes => .ok bytes
      | .pageFault code i => .fault (.pf code (BitVec.ofNat 64 (la + i.val)) s.rip)
      | .refused r => .refused (AccessRefusal.refusal r) := by
  unfold access
  cases s.answer kind la n <;> rfl

/-- `Access` answers alike at the privilege level `c`, up to the U/S bit of a page fault's code. -/
structure SameAccessButUser (s : State) (c : Fin 4) : Prop where
  answer : ∀ (kind : AccessKind) (la n : Nat),
    AccessAnswer.clearUser (({ s with cpl := c } : State).answer kind la n) =
      AccessAnswer.clearUser (s.answer kind la n)

/-- The shared execution sequence looks at the privilege level through operand 3 only. -/
theorem execForm_clearUser {s : State} {c : Fin 4} {f : Form} {len : Nat} {dest : VReg} {n : Nat}
    {src2 src2' : Answer (BitVec n)} {result : BitVec n → BitVec n} (hsrc : src2'.clearUser = src2.clearUser) :
    outcomeClearUser (execForm f len dest src2' result { s with cpl := c }) =
      mapNext (fun t => { t with cpl := c }) (outcomeClearUser (execForm f len dest src2 result s)) := by
  have hanswer : ((checkEnabled f s).bind fun _ => src2').clearUser = ((checkEnabled f s).bind fun _ => src2).clearUser :=
    Answer.clearUser_bind_congr rfl fun _ => hsrc
  unfold execForm
  rw [outcomeClearUser_toOutcome, outcomeClearUser_toOutcome, mapNext_toOutcome, ← hanswer]
  rfl

section
variable {s : State} {c : Fin 4} (h : SameAccessButUser s c)
include h

theorem SameAccessButUser.access (kind : AccessKind) (la n : Nat) :
    (access kind la n { s with cpl := c }).clearUser = (access kind la n s).clearUser := by
  rw [access_clearUser, access_clearUser, h.answer]

theorem SameAccessButUser.memRead (seg : Segment) (la : Addr) (n : Nat) :
    (memRead seg la n { s with cpl := c }).clearUser = (memRead seg la n s).clearUser := by
  unfold Machine.memRead
  split
  · rfl
  · split
    · rfl
    · exact Answer.clearUser_bind_congr (h.access _ _ _) fun _ => rfl

theorem SameAccessButUser.loadFullMem (p : Prefixes) (N len w kl : Nat) (m : MemOp) :
    (loadFullMem p N len w kl m { s with cpl := c }).clearUser = (loadFullMem p N len w kl m s).clearUser :=
  Answer.clearUser_bind_congr (h.memRead _ _ _) fun _ => rfl

theorem SameAccessButUser.vexSrc (p : Prefixes) (len w kl : Nat) (src2 : VexSrc) :
    (VexSrc.load p len w kl { s with cpl := c } src2).clearUser = (VexSrc.load p len w kl s src2).clearUser := by
  cases src2 with
  | reg r => rfl
  | mem m => exact h.loadFullMem _ _ _ _ _ m

theorem SameAccessButUser.fullSrc (p : Prefixes) (len kl : Nat) (src2 : FullSrc) :
    (FullSrc.load p len kl { s with cpl := c } src2).clearUser = (FullSrc.load p len kl s src2).clearUser := by
  cases src2 with
  | reg r => rfl
  | mem m => exact h.loadFullMem _ _ _ _ _ m
  | bcst m => exact Answer.clearUser_bind_congr (h.memRead _ _ _) fun _ => rfl

theorem SameAccessButUser.fullMemSrc (p : Prefixes) (len w kl : Nat) (src2 : FullMemSrc) :
    (FullMemSrc.load p len w kl { s with cpl := c } src2).clearUser = (FullMemSrc.load p len w kl s src2).clearUser := by
  cases src2 with
  | reg r => rfl
  | mem m => exact h.loadFullMem _ _ _ _ _ m

theorem SameAccessButUser.exec (i : Instr) :
    outcomeClearUser (exec i { s with cpl := c }) =
      mapNext (fun t => { t with cpl := c }) (outcomeClearUser (exec i s)) := by
  cases i with
  | vpermdVex256 p d s1 src2 => exact execForm_clearUser (h.vexSrc _ _ _ _ src2)
  | vpermdEvex256 p d s1 wm src2 => exact execForm_clearUser (h.fullSrc _ _ _ src2)
  | vpermdEvex512 p d s1 wm src2 => exact execForm_clearUser (h.fullSrc _ _ _ src2)
  | vpermwEvex128 p d s1 wm src2 => exact execForm_clearUser (h.fullMemSrc _ _ _ _ src2)
  | vpermwEvex256 p d s1 wm src2 => exact execForm_clearUser (h.fullMemSrc _ _ _ _ src2)
  | vpermwEvex512 p d s1 wm src2 => exact execForm_clearUser (h.fullMemSrc _ _ _ _ src2)

theorem SameAccessButUser.fetchByte (a : Nat) :
    (fetchByte a { s with cpl := c }).clearUser = (fetchByte a s).clearUser := by
  unfold Machine.fetchByte
  split
  · rfl
  · split
    · rfl
    · exact Answer.clearUser_bind_congr (h.access _ _ _) fun _ => rfl

theorem SameAccessButUser.fetchInstr (left : Nat) (bytes : List Byte) :
    (fetchInstr left bytes { s with cpl := c }).clearUser = (fetchInstr left bytes s).clearUser := by
  induction left generalizing bytes with
  | zero => rfl
  | succ left ih =>
    refine Answer.clearUser_bind_congr (h.fetchByte _) fun b => ?_
    cases decode (bytes ++ [b]) with
    | truncated => exact ih _
    | _ => rfl

theorem SameAccessButUser.nextInstr :
    (nextInstr { s with cpl := c }).clearUser = (nextInstr s).clearUser := by
  by_cases hmode : s.mode64 = true
  · rw [nextInstr_of_mode64 hmode, nextInstr_of_mode64 (s := { s with cpl := c }) hmode]
    exact h.fetchInstr _ _
  · rw [nextInstr_of_other_mode hmode, nextInstr_of_other_mode (s := { s with cpl := c }) hmode]

theorem SameAccessButUser.step :
    outcomeClearUser (step { s with cpl := c }) =
      mapNext (fun t => { t with cpl := c }) (outcomeClearUser (step s)) := by
  rw [outcomeClearUser_step, outcomeClearUser_step, h.nextInstr]
  cases (Machine.nextInstr s).clearUser with
  | ok i => exact h.exec i
  | fault e => rfl
  | refused r => rfl

end

/-- States with the same mode, `rip` and configuration whose accesses are answered alike run the same instruction. -/
theorem nextInstr_congr {s t : State} (h : SameAccess s t) (hmode : t.mode64 = s.mode64) (hrip : t.rip = s.rip)
    (hcfg : t.cfg = s.cfg) : nextInstr t = nextInstr s := by
  unfold nextInstr
  rw [hmode, hrip, fetchInstr_congr h hrip hcfg]

/-- The privilege level is not among what an execution reads. -/
theorem exec_cpl {s : State} {c : Fin 4} (h : SameAccess s { s with cpl := c }) (i : Instr) :
    exec i { s with cpl := c } = mapNext (fun t => { t with cpl := c }) (exec i s) := by
  have hread : ReadsAlike i.form.count s { s with cpl := c } := by
    constructor
    case mask => exact fun _ _ _ _ => rfl
    case access => exact h
    all_goals rfl
  exact exec_of_readsAlike hread fun _ _ _ _ => rfl

theorem step_cpl {s : State} {c : Fin 4} (h : SameAccess s { s with cpl := c }) :
    step { s with cpl := c } = mapNext (fun t => { t with cpl := c }) (step s) := by
  unfold step
  rw [nextInstr_congr h rfl rfl rfl]
  cases nextInstr s with
  | ok i => exact exec_cpl h i
  | fault e => rfl
  | refused r => rfl

/-- Settles O38: fetching and executing look at the privilege level through `Access` only, and they pass on the code of its page fault. -/
theorem privilegeActsOnlyThroughAccess : Obligations.PrivilegeActsOnlyThroughAccess := by
  unfold Obligations.PrivilegeActsOnlyThroughAccess
  intro i s c
  refine ⟨fun hacc => ⟨exec_cpl hacc i, step_cpl hacc⟩, fun hacc => ?_,
    fun map hp hr => clearUser_answer_of_ranges hp hp rfl hr⟩
  have h : SameAccessButUser s c := ⟨hacc⟩
  exact ⟨h.exec i, h.step⟩

end Sys2Proof.Machine
end

section
/-! PROOF. The statements on reset, launches and runs (70_reset_and_hazards.md): what the boot steps enable, what a run leaves as it was
launched, and that every run ends. -/

namespace Sys2Proof.Machine

/-! ## After the boot steps (70_reset_and_hazards.md R231) -/

@[simp] theorem State.boot_mode64 (s : State) : s.boot.mode64 = true := rfl

@[simp] theorem State.boot_cr0TS (s : State) : s.boot.cr0TS = false := by simp [State.cr0TS, State.boot]

@[simp] theorem State.boot_osAvxEnabled (s : State) : s.boot.osAvxEnabled = true := by
  have hcr4 : s.boot.osxsave = true := by simp [State.osxsave, State.boot]
  have hxcr0 : s.boot.xcr0.getLsbD 1 = true ∧ s.boot.xcr0.getLsbD 2 = true := by
    unfold State.boot
    split <;> simp
  obtain ⟨h1, h2⟩ := hxcr0
  simp [State.osAvxEnabled, hcr4, h1, h2]

theorem State.boot_osAvx512Enabled {s : State} (h : s.cfg.hasAvx512F = true) : s.boot.osAvx512Enabled = true := by
  unfold State.osAvx512Enabled
  rw [State.boot_osAvxEnabled]
  simp [State.boot, h]

/-- Every EVEX form's features include AVX512F, or one that implies it (00_scope.md R7, 30_encoding.md R106). -/
theorem Form.hasAvx512F_of_hasFeatures {f : Form} {c : Config} (h : f.hasFeatures c = true) (he : f.isEvex = true) :
    c.hasAvx512F = true := by
  cases f with
  | vexD256 => cases he
  | evexD256 => exact (Bool.and_eq_true_iff.mp h).1
  | evexD512 => exact h
  | evexW128 => exact Config.hasAvx512F_of_BW (Bool.and_eq_true_iff.mp h).1
  | evexW256 => exact Config.hasAvx512F_of_BW (Bool.and_eq_true_iff.mp h).1
  | evexW512 => exact Config.hasAvx512F_of_BW h

theorem State.boot_osEnabled {f : Form} {s : State} (h : f.hasFeatures s.cfg = true) : Form.osEnabled f s.boot = true := by
  unfold Form.osEnabled
  split
  next he => exact State.boot_osAvx512Enabled (Form.hasAvx512F_of_hasFeatures h he)
  next => exact State.boot_osAvxEnabled s

/-- Settles O49. -/
theorem bootMakesEveryFormReady : Obligations.BootMakesEveryFormReady := by
  unfold Obligations.BootMakesEveryFormReady
  intro s f h
  simp [Ready, State.boot_osEnabled h, h]

/-! ## A run from a clean launch (70_reset_and_hazards.md R235) -/

/-- Settles O60: a run changes vector registers and `rip` at most, and `Access` does not depend on them. -/
theorem runReadsTheLaunchMemory : Obligations.RunReadsTheLaunchMemory := by
  unfold Obligations.RunReadsTheLaunchMemory
  rintro l n ⟨-, -, -, -, -, hacc⟩
  have hstate : (l.run n).state = { l.state0 with zmm := (l.run n).state.zmm, rip := (l.run n).state.rip } :=
    runTo_state_eq l.endAddr n l.state0
  have hmem : (l.run n).state.mem = l.state0.mem := by rw [hstate]
  have hcfg : (l.run n).state.cfg = l.state0.cfg := by rw [hstate]
  have hsame : SameAccess l.state0 (l.run n).state := by
    rw [hstate]
    exact hacc _ _
  exact ⟨hmem, hcfg, hsame, CodeAt.congr hsame hcfg⟩

/-! ## Every run ends -/

/-- Only at a canonical `rip` can a step complete: its first byte is fetched there (60_exceptions.md R199). -/
theorem canonical_of_step_eq_next {s t : State} (h : step s = .next t) :
    canonical s.cfg.vaBits.bits s.rip.toNat = true := by
  by_contra hcan
  cases hmode : s.mode64 with
  | false =>
    obtain ⟨hrefused, -⟩ := otherModesAreRefused s hmode
    rw [hrefused] at h
    cases h
  | true =>
    rw [canonical_iff s.cfg.vaBits s.rip.isLt] at hcan
    have hfault := nonCanonicalFetchRaisesGp s 0 ⟨hmode, [], rfl, rfl, rfl⟩ s.rip.isLt hcan
    rw [hfault] at h
    cases h

/-- An address 16 bytes into the non-canonical ones: no instruction at a canonical address reaches it. -/
def VaBits.inHole (va : VaBits) : Addr := BitVec.ofNat 64 (2 ^ (va.bits - 1) + 16)

/-- The distance from `rip` up to the hole in the canonical addresses, round the top of the address space where `rip` is above it. -/
def State.distanceToHole (s : State) : Nat := (VaBits.inHole s.cfg.vaBits - s.rip).toNat

/-- From a canonical address, less than 16 bytes upwards come nearer to the hole and do not pass it. -/
theorem sub_add_lt_of_canonical {va : VaBits} {a : Addr} (h : canonical va.bits a.toNat = true) {n : Nat} (hpos : 0 < n)
    (hn : n < 16) : (VaBits.inHole va - (a + BitVec.ofNat 64 n)).toNat < (VaBits.inHole va - a).toNat := by
  unfold canonical at h
  unfold VaBits.inHole
  rw [BitVec.toNat_sub, BitVec.toNat_sub, BitVec.toNat_add, BitVec.toNat_ofNat, BitVec.toNat_ofNat]
  have ha := a.isLt
  cases va <;>
  · simp only [VaBits.bits, Bool.or_eq_true, beq_iff_eq] at h ⊢
    omega

/-- A completed step comes nearer to the hole, also where its instruction ends at the top of the address space. -/
theorem distanceToHole_lt_of_step {s t : State} (h : step s = .next t) : t.distanceToHole < s.distanceToHole := by
  have hcan := canonical_of_step_eq_next h
  obtain ⟨d, v, n, -, -, h5, h13, rfl⟩ := step_eq_withResult h
  exact sub_add_lt_of_canonical hcan (by omega) (by omega)

/-- A run that may make more steps than its start is bytes away from the hole is over by then. -/
theorem runTo_ne_running {endAddr : Addr} {n : Nat} {s : State} (h : s.distanceToHole < n) (u : State) :
    runTo endAddr n s ≠ .running u := by
  induction n generalizing s with
  | zero => exact absurd h (Nat.not_lt_zero _)
  | succ n ih =>
    unfold runTo
    split
    · exact RunStatus.noConfusion
    · cases hstep : step s with
      | next t => exact ih (Nat.lt_of_lt_of_le (distanceToHole_lt_of_step hstep) (Nat.le_of_lt_succ h))
      | fault f => exact RunStatus.noConfusion
      | refused r => exact RunStatus.noConfusion

/-- Settles O55: every step comes nearer to the hole, which bounds their number. -/
theorem everyRunEnds : Obligations.EveryRunEnds := by
  unfold Obligations.EveryRunEnds
  exact fun endAddr s => ⟨s.distanceToHole + 1, runTo_ne_running (Nat.lt_succ_self _)⟩

end Sys2Proof.Machine
end

section
/-! PROOF. The words written out from the spec's encodings (95_test_vectors.md section 1). -/

namespace Sys2Proof.Machine

/-- Bytes that encode a well-formed instruction decode to it and to its length (30_encoding.md R111). -/
theorem decode_eq_instr_of_encode_eq {i : Instr} {bs : List Byte} {n : Nat}
    (h : i.wf = true ∧ encode i = bs ∧ i.length = n) : decode bs = .instr i n := by
  obtain ⟨hwf, rfl, rfl⟩ := h
  simpa using decodeOfEncodeIsTheInstruction i hwf []

/-- Settles O6: each word is the encoding of its instruction, and encoding and decoding are a round trip. -/
theorem sampleWordsDecode : Obligations.SampleWordsDecode := by
  unfold Obligations.SampleWordsDecode
  and_intros <;>
  exact decode_eq_instr_of_encode_eq (by decide)

end Sys2Proof.Machine
end
